-- ==== Sys2Proof/Word.lean ====
section
/-! DEFINITION. The word types of AbarrowCrypto CORE: bytes, 32-bit command and response words, and 8-byte blocks
(00_scope.md R8, R9; 20_memory.md R72). -/

namespace Sys2Proof

/-- A byte: 8 bits (R9). -/
abbrev Byte := BitVec 8

/-- A command word or a response word: 32 bits, carried whole (R61, R65, R69). -/
abbrev Word := BitVec 32

/-- A cipher block, an IV or a cipher key: `B` = 8 bytes, byte 0 the first to arrive (R6, R68). -/
abbrev Block := Vector Byte 8

end Sys2Proof
end

