-- ==== Sys2Proof/Config.lean ====
section
/-! DEFINITION. The implementation parameters: the constants of 00_scope.md R6 and the open parameters `Hd`, `Hb`, `H`
of R7 (92_eei_decisions.md D35), the latter as constants with no body. -/

namespace Sys2Proof

/-- The external Hasher capability (20_memory.md R66): digest length `hd`, block length `hb` and the function `H`, with
the limits of 00_scope.md R7 as proof fields, so that a Hasher outside them cannot be built (93 U7). -/
structure Hasher where
  /-- `Hd`, `getHashByteLength()`: the digest and tag length in bytes. -/
  hd : Nat
  /-- `Hb`, `getBlockBytes()`: the block length in bytes. -/
  hb : Nat
  /-- `H`: a total function from byte sequences to `Hd` bytes. -/
  digest : List Byte → List Byte
  hd_pos : 1 ≤ hd
  hd_le : hd ≤ 64
  hb_le : hb ≤ 128
  hd_le_hb : hd ≤ hb
  digest_length : ∀ m, (digest m).length = hd

namespace Config

/-- `ROUNDS`: Feistel rounds (R6). -/
def rounds : Nat := 16
/-- `B`: the cipher block size in bytes (R6). -/
def blockBytes : Nat := 8
/-- `FC_KEYLENS`: the key lengths `FC.SETKEY` accepts (R6, D8). -/
def fcKeyLens : List Nat := [8]
/-- `NMAX`: the largest suffix length unit SB holds (R6, D22). -/
def nmax : Nat := 64
/-- `HBMAX`: the largest hasher block the pad buffers hold (R6, D35). -/
def hbmax : Nat := 128
/-- `MC_KEY_MIN` (R6, D24). -/
def mcKeyMin : Nat := 1
/-- `MC_KEY_MAX` (R6, D24). -/
def mcKeyMax : Nat := 65535
/-- `CHUNK_MAX`: the largest payload of one command (R6, D2). -/
def chunkMax : Nat := 65535

/-- FREE VALUE (log entry 5): the open parameter `Hd` less one, so that `1 ≤ Hd ≤ 64` (R7). -/
opaque hdLess1 : Fin 64

/-- FREE VALUE (log entry 5): from it and `Hd` the open parameter `Hb` is formed, so that `Hd ≤ Hb ≤ 128` (R7). -/
opaque hbLess1 : Fin 128

/-- FREE VALUE (log entry 5): the open parameter `H`, any function from byte sequences to `Hd` bytes (R7). -/
opaque hashFunction : List Byte → Vector Byte (hdLess1.val + 1)

/-- The Hasher this instance is built with: fixed for its lifetime and known only to be well formed (R7). Every pair
`(Hd, Hb)` of R7 is `(hdLess1 + 1, hbLess1 + 1)` for some values of the two constants. -/
def hasher : Hasher where
  hd := hdLess1.val + 1
  hb := max (hdLess1.val + 1) (hbLess1.val + 1)
  digest m := (hashFunction m).toList
  hd_pos := by omega
  hd_le := by have := hdLess1.isLt; omega
  hb_le := by have := hdLess1.isLt; have := hbLess1.isLt; omega
  hd_le_hb := by omega
  digest_length m := by simp

end Config
end Sys2Proof
end

