-- ==== Sys2Proof/Syntax.lean ====
section
/-! DEFINITION. The 22 commands of AbarrowCrypto CORE (30_encoding.md R94), one constructor per row of
spec/opcode_table.json, and the fixed sets of names their operands range over (R93). -/

namespace Sys2Proof

/-- The mode operand of `MP.START` and element `mp_mode` (R93; value 3 is reserved and has no name). -/
inductive Mode where
  | ecb | cbc | ctr
deriving DecidableEq, Repr

/-- The direction operand of `MP.START` and element `mp_dir` (R93). -/
inductive Dir where
  | encrypt | decrypt
deriving DecidableEq, Repr

/-- The padding scheme operand of `MP.START` and element `mp_pad` (R93). -/
inductive Pad where
  | zero | len
deriving DecidableEq, Repr

/-- The path operand of `MC.START` and element `mc_path` (R93, R58). -/
inductive Path where
  | tag | check
deriving DecidableEq, Repr

/-- The unit operand of `ABORT`: 0 all three, 2 MP, 3 SB, 4 MC (R93). -/
inductive AbortUnit where
  | all | mp | sb | mc
deriving DecidableEq, Repr

/-- A command: the operation and its operands. A `len` operand is the number of payload bytes that follow on DIN (R92);
a command without one has the fixed payload length of R92. -/
inductive Instr where
  /-- `NOP` (R280) -/
  | nop
  /-- `RDSR idx` (R281) -/
  | rdsr (idx : BitVec 8)
  /-- `ABORT u` (R282) -/
  | abort (u : AbortUnit)
  /-- `FC.SETKEY : key` (R150) -/
  | fcSetkey (len : BitVec 16)
  /-- `FC.RMKEY` (R151) -/
  | fcRmkey
  /-- `FC.HASKEY` (R152) -/
  | fcHaskey
  /-- `FC.ENCBLK : block` (R160) -/
  | fcEncblk
  /-- `FC.DECBLK : block` (R161) -/
  | fcDecblk
  /-- `MP.SETIV : iv` (R190) -/
  | mpSetiv
  /-- `MP.RMIV` (R191) -/
  | mpRmiv
  /-- `MP.START mode dir pad` (R200) -/
  | mpStart (mode : Mode) (dir : Dir) (pad : Pad)
  /-- `MP.DATA : chunk` (R201) -/
  | mpData (len : BitVec 16)
  /-- `MP.END` (R208) -/
  | mpEnd
  /-- `SB.START n` (R232) -/
  | sbStart (n : BitVec 8)
  /-- `SB.DATA : chunk` (R233) -/
  | sbData (len : BitVec 16)
  /-- `SB.END` (R234) -/
  | sbEnd
  /-- `MC.SETKEY : key` (R252) -/
  | mcSetkey (len : BitVec 16)
  /-- `MC.RMKEY` (R253) -/
  | mcRmkey
  /-- `MC.HASKEY` (R254) -/
  | mcHaskey
  /-- `MC.START path quiet` (R255) -/
  | mcStart (path : Path) (quiet : Bool)
  /-- `MC.DATA : chunk` (R257) -/
  | mcData (len : BitVec 16)
  /-- `MC.END` (R260, R262) -/
  | mcEnd
deriving DecidableEq, Repr

end Sys2Proof
end

