-- ==== Sys2Proof/WellFormed.lean ====
section
/-! DEFINITION. Which commands have an encoding: the constraints of 30_encoding.md R93 and R104 that the operand types do
not already hold. The mode, direction, scheme, path and unit operands range over names, so `mode = 3`, a set reserved bit of
`arg` and `ABORT` of another unit cannot be written. -/

namespace Sys2Proof

/-- The command has a word that is not reserved (R93, R104): `RDSR` names a register 0 to 5 and `SB.START` a length of at
most `NMAX`. -/
def Instr.wellFormed : Instr → Bool
  | .rdsr idx => idx.toNat ≤ 5
  | .sbStart n => n.toNat ≤ Config.nmax
  | .nop => true
  | .abort _ => true
  | .fcSetkey _ => true
  | .fcRmkey => true
  | .fcHaskey => true
  | .fcEncblk => true
  | .fcDecblk => true
  | .mpSetiv => true
  | .mpRmiv => true
  | .mpStart _ _ _ => true
  | .mpData _ => true
  | .mpEnd => true
  | .sbData _ => true
  | .sbEnd => true
  | .mcSetkey _ => true
  | .mcRmkey => true
  | .mcHaskey => true
  | .mcStart _ _ => true
  | .mcData _ => true
  | .mcEnd => true

end Sys2Proof
end

