-- ==== Sys2Proof/Decode.lean ====
section
/-! DEFINITION. The command decoder, total on every word (30_encoding.md R90 to R104), the encoder written from the same
table (R94), and the serialised form of a command word (20_memory.md R69). -/

namespace Sys2Proof

/-- Why a word is reserved: the four reasons of R100, and a byte stream too short to hold a word (R69). -/
inductive DecodeError where
  /-- `unit` is 5 to 15 -/
  | reservedUnit
  /-- `op` is not in the table of R94 for its unit -/
  | reservedOp
  /-- `arg` breaks a constraint of R93 -/
  | reservedArg
  /-- `len` breaks a constraint of R92 -/
  | reservedLen
  /-- fewer than four bytes of a serialised word -/
  | truncated
deriving DecidableEq, Repr

/-- The field `w[31:28]` (R90). -/
def unitField (w : Word) : BitVec 4 := w.extractLsb' 28 4

/-- The field `w[27:24]` (R90). -/
def opField (w : Word) : BitVec 4 := w.extractLsb' 24 4

/-- The field `w[23:16]` (R90). -/
def argField (w : Word) : BitVec 8 := w.extractLsb' 16 8

/-- The field `w[15:0]`: the number of payload bytes that follow on DIN (R90). -/
def lenField (w : Word) : BitVec 16 := w.extractLsb' 0 16

/-- `arg` of `ABORT`: 0 all, 2 MP, 3 SB, 4 MC, every other value reserved (R93). -/
def AbortUnit.ofArg (arg : BitVec 8) : Option AbortUnit :=
  match arg.toNat with
  | 0 => some .all
  | 2 => some .mp
  | 3 => some .sb
  | 4 => some .mc
  | _ => none

/-- `arg` of `ABORT` (R93). -/
def AbortUnit.toArg : AbortUnit → BitVec 8
  | .all => 0
  | .mp => 2
  | .sb => 3
  | .mc => 4

/-- `arg[1:0]` of `MP.START`, value 3 reserved (R93). -/
def Mode.ofBits (b : BitVec 2) : Option Mode :=
  match b.toNat with
  | 0 => some .ecb
  | 1 => some .cbc
  | 2 => some .ctr
  | _ => none

/-- The two-bit code of a mode (R93, R56). -/
def Mode.toBits : Mode → BitVec 2
  | .ecb => 0
  | .cbc => 1
  | .ctr => 2

/-- The bit of a direction, 0 encrypt (R93). -/
def Dir.ofBit : Bool → Dir
  | false => .encrypt
  | true => .decrypt

/-- The bit of a direction (R93, R56). -/
def Dir.toBit : Dir → Bool
  | .encrypt => false
  | .decrypt => true

/-- The bit of a padding scheme, 0 ZERO (R93). -/
def Pad.ofBit : Bool → Pad
  | false => .zero
  | true => .len

/-- The bit of a padding scheme (R93, R56). -/
def Pad.toBit : Pad → Bool
  | .zero => false
  | .len => true

/-- The bit of a MAC path, 0 tag (R93). -/
def Path.ofBit : Bool → Path
  | false => .tag
  | true => .check

/-- The bit of a MAC path (R93, R58). -/
def Path.toBit : Path → Bool
  | .tag => false
  | .check => true

/-- The word is `i` when its `arg` and then its `len` meet their constraints (R91, R100). -/
def accept (argOk lenOk : Bool) (i : Instr) : Except DecodeError Instr :=
  if argOk then (if lenOk then .ok i else .error .reservedLen) else .error .reservedArg

/-- The operands of `MP.START`: `arg[7:4] = 0`, mode, direction and scheme (R93). -/
def decodeMpStart (arg : BitVec 8) (len : BitVec 16) : Except DecodeError Instr :=
  match Mode.ofBits (arg.extractLsb' 0 2) with
  | none => .error .reservedArg
  | some mode =>
    accept (arg.extractLsb' 4 4 == 0) (len == 0)
      (.mpStart mode (Dir.ofBit (arg.getLsbD 2)) (Pad.ofBit (arg.getLsbD 3)))

/-- The operand of `ABORT` (R93). -/
def decodeAbort (arg : BitVec 8) (len : BitVec 16) : Except DecodeError Instr :=
  match AbortUnit.ofArg arg with
  | none => .error .reservedArg
  | some u => accept true (len == 0) (.abort u)

/-- The decoder: for every word exactly one command, or the reason why the word is reserved (R91, R94, R100). -/
def decode (w : Word) : Except DecodeError Instr :=
  let arg := argField w
  let len := lenField w
  match (unitField w).toNat, (opField w).toNat with
  | 0, 0 => accept (arg == 0) (len == 0) .nop
  | 0, 1 => accept (arg.toNat ≤ 5) (len == 0) (.rdsr arg)
  | 0, 2 => decodeAbort arg len
  | 0, _ => .error .reservedOp
  | 1, 0 => accept (arg == 0) true (.fcSetkey len)
  | 1, 1 => accept (arg == 0) (len == 0) .fcRmkey
  | 1, 2 => accept (arg == 0) (len == 0) .fcHaskey
  | 1, 3 => accept (arg == 0) (len == 8) .fcEncblk
  | 1, 4 => accept (arg == 0) (len == 8) .fcDecblk
  | 1, _ => .error .reservedOp
  | 2, 0 => accept (arg == 0) (len == 8) .mpSetiv
  | 2, 1 => accept (arg == 0) (len == 0) .mpRmiv
  | 2, 2 => decodeMpStart arg len
  | 2, 3 => accept (arg == 0) true (.mpData len)
  | 2, 4 => accept (arg == 0) (len == 0) .mpEnd
  | 2, _ => .error .reservedOp
  | 3, 0 => accept (arg.toNat ≤ Config.nmax) (len == 0) (.sbStart arg)
  | 3, 1 => accept (arg == 0) true (.sbData len)
  | 3, 2 => accept (arg == 0) (len == 0) .sbEnd
  | 3, _ => .error .reservedOp
  | 4, 0 => accept (arg == 0) true (.mcSetkey len)
  | 4, 1 => accept (arg == 0) (len == 0) .mcRmkey
  | 4, 2 => accept (arg == 0) (len == 0) .mcHaskey
  | 4, 3 => accept (arg.extractLsb' 2 6 == 0) (len == 0) (.mcStart (Path.ofBit (arg.getLsbD 0)) (arg.getLsbD 1))
  | 4, 4 => accept (arg == 0) true (.mcData len)
  | 4, 5 => accept (arg == 0) (len == 0) .mcEnd
  | 4, _ => .error .reservedOp
  | _, _ => .error .reservedUnit

/-- The `unit` nibble of a command (R94). -/
def Instr.unit : Instr → BitVec 4
  | .nop | .rdsr _ | .abort _ => 0
  | .fcSetkey _ | .fcRmkey | .fcHaskey | .fcEncblk | .fcDecblk => 1
  | .mpSetiv | .mpRmiv | .mpStart _ _ _ | .mpData _ | .mpEnd => 2
  | .sbStart _ | .sbData _ | .sbEnd => 3
  | .mcSetkey _ | .mcRmkey | .mcHaskey | .mcStart _ _ | .mcData _ | .mcEnd => 4

/-- The `op` nibble of a command (R94). -/
def Instr.op : Instr → BitVec 4
  | .nop | .fcSetkey _ | .mpSetiv | .sbStart _ | .mcSetkey _ => 0
  | .rdsr _ | .fcRmkey | .mpRmiv | .sbData _ | .mcRmkey => 1
  | .abort _ | .fcHaskey | .mpStart _ _ _ | .sbEnd | .mcHaskey => 2
  | .fcEncblk | .mpData _ | .mcStart _ _ => 3
  | .fcDecblk | .mpEnd | .mcData _ => 4
  | .mcEnd => 5

/-- The `arg` byte of a command (R93). -/
def Instr.arg : Instr → BitVec 8
  | .rdsr idx => idx
  | .abort u => u.toArg
  | .mpStart mode dir pad => (0 : BitVec 4) ++ BitVec.ofBool pad.toBit ++ BitVec.ofBool dir.toBit ++ mode.toBits
  | .sbStart n => n
  | .mcStart path quiet => (0 : BitVec 6) ++ BitVec.ofBool quiet ++ BitVec.ofBool path.toBit
  | .nop | .fcSetkey _ | .fcRmkey | .fcHaskey | .fcEncblk | .fcDecblk => 0
  | .mpSetiv | .mpRmiv | .mpData _ | .mpEnd | .sbData _ | .sbEnd => 0
  | .mcSetkey _ | .mcRmkey | .mcHaskey | .mcData _ | .mcEnd => 0

/-- The `len` field of a command: how many payload bytes follow on DIN (R92). -/
def Instr.len : Instr → BitVec 16
  | .fcSetkey len | .mpData len | .sbData len | .mcSetkey len | .mcData len => len
  | .fcEncblk | .fcDecblk | .mpSetiv => 8
  | .nop | .rdsr _ | .abort _ | .fcRmkey | .fcHaskey => 0
  | .mpRmiv | .mpStart _ _ _ | .mpEnd | .sbStart _ | .sbEnd => 0
  | .mcRmkey | .mcHaskey | .mcStart _ _ | .mcEnd => 0

/-- A command word from its four fields (R90). -/
def commandWord (unit op : BitVec 4) (arg : BitVec 8) (len : BitVec 16) : Word :=
  unit ++ op ++ arg ++ len

/-- The command word of a command (R90, R94); for a well-formed command it decodes back to it. -/
def encode (i : Instr) : Word :=
  commandWord i.unit i.op i.arg i.len

/-- A word from its four serialised bytes, the most significant first (R69). -/
def wordOfBytes (b0 b1 b2 b3 : Byte) : Word :=
  b0 ++ b1 ++ b2 ++ b3

/-- The four serialised bytes of a word, the most significant first (R69). -/
def bytesOfWord (w : Word) : List Byte :=
  [w.extractLsb' 24 8, w.extractLsb' 16 8, w.extractLsb' 8 8, w.extractLsb' 0 8]

/-- A serialised command at the head of a byte stream: the command and the rest, which begins with its payload
(R69, R105). -/
def decodeBytes : List Byte → Except DecodeError (Instr × List Byte)
  | b0 :: b1 :: b2 :: b3 :: rest =>
    match decode (wordOfBytes b0 b1 b2 b3) with
    | .ok i => .ok (i, rest)
    | .error e => .error e
  | _ => .error .truncated

/-- The command the decoder reads from the 32-bit word `w` of spec/opcode_table.json; every row has 32 bits, and a
number that is no 32-bit word is none. -/
def decodeTableWord (nbits w : Nat) : Option Instr :=
  if nbits ≤ 32 ∧ w < 2 ^ 32 then (decode (BitVec.ofNat 32 w)).toOption else none

end Sys2Proof
end

