-- ==== Sys2Proof/Machine/BitPerm.lean ====
section
/-! DEFINITION. The Bit Permutation Engine (40_bitperm.md): pure functions in buffer numbering, where index 0 is the most
significant bit (00_scope.md R8). An index outside its buffer or table range has no meaning (R120, 93 U1): the index types
here cannot express one. -/

namespace Sys2Proof.Machine

/-- The buffer whose element at index `k` is `f k`. It is built from a list, so that the kernel evaluates it. -/
def tabulate {α : Type} {n : Nat} (f : Fin n → α) : Vector α n :=
  ⟨(List.ofFn f).toArray, by simp⟩

/-- A buffer index names a byte of the buffer. -/
theorem byteIndex_lt {n : Nat} (i : Fin (8 * n)) : i.val / 8 < n := by
  have := i.isLt
  omega

/-- `bit(b, i)`: bit 0 is the most significant bit of byte 0 (R121). -/
def bit {n : Nat} (b : Vector Byte n) (i : Fin (8 * n)) : Bool :=
  (b[i.val / 8]'(byteIndex_lt i)).getLsbD (7 - i.val % 8)

/-- One byte with its bit `k`, counted from the most significant and at most 7 (log entry 17), set to `x`. -/
def setByteBit (y : Byte) (k : Nat) (x : Bool) : Byte :=
  let mask : Byte := 1#8 <<< (7 - k)
  if x then y ||| mask else y &&& ~~~mask

/-- `setbit(b, i, x)` (R122). -/
def setbit {n : Nat} (b : Vector Byte n) (i : Fin (8 * n)) (x : Bool) : Vector Byte n :=
  b.set (i.val / 8) (setByteBit (b[i.val / 8]'(byteIndex_lt i)) (i.val % 8) x) (byteIndex_lt i)

/-- `bits(b)`: the bit vector of a byte sequence, byte 0 most significant (R10). -/
def bits {n : Nat} (b : Vector Byte n) : BitVec (8 * n) :=
  BitVec.ofNat (8 * n) (b.toList.foldl (fun acc x => 256 * acc + x.toNat) 0)

/-- `bytes(v)`: the inverse of `bits` (R10). -/
def bytes {n : Nat} (v : BitVec (8 * n)) : Vector Byte n :=
  tabulate fun k => v.extractLsb' (8 * (n - 1 - k.val)) 8

/-- `permute(v, t)`: output bit `j` is input bit `t[j]` (R123). -/
def permute {n m : Nat} (v : BitVec n) (t : Vector (Fin n) m) : BitVec m :=
  BitVec.ofNat m (t.toList.foldl (fun acc i => 2 * acc + (v.getMsbD i.val).toNat) 0)

/-- `permute_bytes(b, t)`: the byte-array variant, unused low bits of the last byte 0 (R124). -/
def permuteBytes {n m : Nat} (b : Vector Byte n) (t : Vector (Fin (8 * n)) m) : Vector Byte ((m + 7) / 8) :=
  tabulate fun k =>
    BitVec.ofNat 8 ((List.range 8).foldl
      (fun acc j => 2 * acc + (if h : 8 * k.val + j < m then (bit b (t[8 * k.val + j]'h)).toNat else 0)) 0)

/-- `rotl(v, k)`: `o<j> = v<(j + k) mod n>` for `n >= 1` (R125). DESIGN CHOICE (safe, log entry 16): the width 0, which the
rule leaves out, gives the empty vector. -/
def rotl {n : Nat} (v : BitVec n) (k : Nat) : BitVec n := v.rotateLeft k

/-- `rotr(v, k)`: `o<j> = v<(j - k) mod n>` for `n >= 1` (R126). DESIGN CHOICE (safe, log entry 16): the width 0 gives the
empty vector. -/
def rotr {n : Nat} (v : BitVec n) (k : Nat) : BitVec n := v.rotateRight k

/-- `shl(v, k)`: toward index 0, zero fill, for `n >= 1` (R127). DESIGN CHOICE (safe, log entry 16): the width 0 gives the
empty vector. -/
def shl {n : Nat} (v : BitVec n) (k : Nat) : BitVec n := v <<< k

/-- `shr(v, k)`: away from index 0, zero fill, for `n >= 1` (R127). DESIGN CHOICE (safe, log entry 16): the width 0 gives the
empty vector. -/
def shr {n : Nat} (v : BitVec n) (k : Nat) : BitVec n := v >>> k

/-- `a xor b` of two byte sequences of one length (R9). -/
def xorBytes {n : Nat} (a b : Vector Byte n) : Vector Byte n :=
  tabulate fun k => a[k.val] ^^^ b[k.val]

end Sys2Proof.Machine
end

