-- ==== Sys2Proof/Machine/FcTables.lean ====
section
/-! DEFINITION. The tables of the cipher as 41_feistel.md prints them, zero-based in buffer numbering (92 D9). The entries
are the spec's own passages from general knowledge (93 GK2 to GK8); an entry out of range cannot be written (R141). -/

namespace Sys2Proof.Machine

/-- Table `IP`, the initial permutation (R142). -/
def tableIP : Vector (Fin 64) 64 :=
  #v[
    57, 49, 41, 33, 25, 17,  9,  1,
    59, 51, 43, 35, 27, 19, 11,  3,
    61, 53, 45, 37, 29, 21, 13,  5,
    63, 55, 47, 39, 31, 23, 15,  7,
    56, 48, 40, 32, 24, 16,  8,  0,
    58, 50, 42, 34, 26, 18, 10,  2,
    60, 52, 44, 36, 28, 20, 12,  4,
    62, 54, 46, 38, 30, 22, 14,  6]

/-- Table `FP`, the final permutation, inverse of `IP` (R143). -/
def tableFP : Vector (Fin 64) 64 :=
  #v[
    39,  7, 47, 15, 55, 23, 63, 31,
    38,  6, 46, 14, 54, 22, 62, 30,
    37,  5, 45, 13, 53, 21, 61, 29,
    36,  4, 44, 12, 52, 20, 60, 28,
    35,  3, 43, 11, 51, 19, 59, 27,
    34,  2, 42, 10, 50, 18, 58, 26,
    33,  1, 41,  9, 49, 17, 57, 25,
    32,  0, 40,  8, 48, 16, 56, 24]

/-- Table `E`, the expansion of the right half (R144). -/
def tableE : Vector (Fin 32) 48 :=
  #v[
    31,  0,  1,  2,  3,  4,
     3,  4,  5,  6,  7,  8,
     7,  8,  9, 10, 11, 12,
    11, 12, 13, 14, 15, 16,
    15, 16, 17, 18, 19, 20,
    19, 20, 21, 22, 23, 24,
    23, 24, 25, 26, 27, 28,
    27, 28, 29, 30, 31,  0]

/-- Table `P`, the permutation of the substituted bits (R145). -/
def tableP : Vector (Fin 32) 32 :=
  #v[
    15,  6, 19, 20, 28, 11, 27, 16,
     0, 14, 22, 25,  4, 17, 30,  9,
     1,  7, 23, 13, 31, 26,  2,  8,
    18, 12, 29,  5, 21, 10,  3, 24]

/-- Table `PC1`, the key permutation (R146). -/
def tablePC1 : Vector (Fin 64) 56 :=
  #v[
    56, 48, 40, 32, 24, 16,  8,
     0, 57, 49, 41, 33, 25, 17,
     9,  1, 58, 50, 42, 34, 26,
    18, 10,  2, 59, 51, 43, 35,
    62, 54, 46, 38, 30, 22, 14,
     6, 61, 53, 45, 37, 29, 21,
    13,  5, 60, 52, 44, 36, 28,
    20, 12,  4, 27, 19, 11,  3]

/-- Table `PC2`, the compression of `C ++ D` (R147). -/
def tablePC2 : Vector (Fin 56) 48 :=
  #v[
    13, 16, 10, 23,  0,  4,
     2, 27, 14,  5, 20,  9,
    22, 18, 11,  3, 25,  7,
    15,  6, 26, 19, 12,  1,
    40, 51, 30, 36, 46, 54,
    29, 39, 50, 44, 32, 47,
    43, 48, 38, 55, 33, 52,
    45, 41, 49, 35, 28, 31]

/-- `ROT[1..16]`, the rotation schedule, round `r` at index `r - 1` (R147). -/
def tableROT : Vector Nat 16 :=
  #v[
     1,  1,  2,  2,  2,  2,  2,  2,  1,  2,  2,  2,  2,  2,  2,  1]

/-- Substitution table `S[1]`, indexed by the value of the six-bit group (R148). -/
def tableS1 : Vector (BitVec 4) 64 :=
  #v[
    14,  0,  4, 15, 13,  7,  1,  4,  2, 14, 15,  2, 11, 13,  8,  1,
     3, 10, 10,  6,  6, 12, 12, 11,  5,  9,  9,  5,  0,  3,  7,  8,
     4, 15,  1, 12, 14,  8,  8,  2, 13,  4,  6,  9,  2,  1, 11,  7,
    15,  5, 12, 11,  9,  3,  7, 14,  3, 10, 10,  0,  5,  6,  0, 13]

/-- Substitution table `S[2]`, indexed by the value of the six-bit group (R148). -/
def tableS2 : Vector (BitVec 4) 64 :=
  #v[
    15,  3,  1, 13,  8,  4, 14,  7,  6, 15, 11,  2,  3,  8,  4, 14,
     9, 12,  7,  0,  2,  1, 13, 10, 12,  6,  0,  9,  5, 11, 10,  5,
     0, 13, 14,  8,  7, 10, 11,  1, 10,  3,  4, 15, 13,  4,  1,  2,
     5, 11,  8,  6, 12,  7,  6, 12,  9,  0,  3,  5,  2, 14, 15,  9]

/-- Substitution table `S[3]`, indexed by the value of the six-bit group (R148). -/
def tableS3 : Vector (BitVec 4) 64 :=
  #v[
    10, 13,  0,  7,  9,  0, 14,  9,  6,  3,  3,  4, 15,  6,  5, 10,
     1,  2, 13,  8, 12,  5,  7, 14, 11, 12,  4, 11,  2, 15,  8,  1,
    13,  1,  6, 10,  4, 13,  9,  0,  8,  6, 15,  9,  3,  8,  0,  7,
    11,  4,  1, 15,  2, 14, 12,  3,  5, 11, 10,  5, 14,  2,  7, 12]

/-- Substitution table `S[4]`, indexed by the value of the six-bit group (R148). -/
def tableS4 : Vector (BitVec 4) 64 :=
  #v[
     7, 13, 13,  8, 14, 11,  3,  5,  0,  6,  6, 15,  9,  0, 10,  3,
     1,  4,  2,  7,  8,  2,  5, 12, 11,  1, 12, 10,  4, 14, 15,  9,
    10,  3,  6, 15,  9,  0,  0,  6, 12, 10, 11,  1,  7, 13, 13,  8,
    15,  9,  1,  4,  3,  5, 14, 11,  5, 12,  2,  7,  8,  2,  4, 14]

/-- Substitution table `S[5]`, indexed by the value of the six-bit group (R148). -/
def tableS5 : Vector (BitVec 4) 64 :=
  #v[
     2, 14, 12, 11,  4,  2,  1, 12,  7,  4, 10,  7, 11, 13,  6,  1,
     8,  5,  5,  0,  3, 15, 15, 10, 13,  3,  0,  9, 14,  8,  9,  6,
     4, 11,  2,  8,  1, 12, 11,  7, 10,  1, 13, 14,  7,  2,  8, 13,
    15,  6,  9, 15, 12,  0,  5,  9,  6, 10,  3,  4,  0,  5, 14,  3]

/-- Substitution table `S[6]`, indexed by the value of the six-bit group (R148). -/
def tableS6 : Vector (BitVec 4) 64 :=
  #v[
    12, 10,  1, 15, 10,  4, 15,  2,  9,  7,  2, 12,  6,  9,  8,  5,
     0,  6, 13,  1,  3, 13,  4, 14, 14,  0,  7, 11,  5,  3, 11,  8,
     9,  4, 14,  3, 15,  2,  5, 12,  2,  9,  8,  5, 12, 15,  3, 10,
     7, 11,  0, 14,  4,  1, 10,  7,  1,  6, 13,  0, 11,  8,  6, 13]

/-- Substitution table `S[7]`, indexed by the value of the six-bit group (R148). -/
def tableS7 : Vector (BitVec 4) 64 :=
  #v[
     4, 13, 11,  0,  2, 11, 14,  7, 15,  4,  0,  9,  8,  1, 13, 10,
     3, 14, 12,  3,  9,  5,  7, 12,  5,  2, 10, 15,  6,  8,  1,  6,
     1,  6,  4, 11, 11, 13, 13,  8, 12,  1,  3,  4,  7, 10, 14,  7,
    10,  9, 15,  5,  6,  0,  8, 15,  0, 14,  5,  2,  9,  3,  2, 12]

/-- Substitution table `S[8]`, indexed by the value of the six-bit group (R148). -/
def tableS8 : Vector (BitVec 4) 64 :=
  #v[
    13,  1,  2, 15,  8, 13,  4,  8,  6, 10, 15,  3, 11,  7,  1,  4,
    10, 12,  9,  5,  3,  6, 14, 11,  5,  0,  0, 14, 12,  9,  7,  2,
     7,  2, 11,  1,  4, 14,  1,  7,  9,  4, 12, 10, 14,  8,  2, 13,
     0, 15,  6, 12, 10,  9, 13,  0, 15,  3,  3,  5,  5,  6,  8, 11]

/-- `S[i][g]` for the group value `g` (R148). -/
def substitute (table : Vector (BitVec 4) 64) (g : BitVec 6) : BitVec 4 :=
  table[g.toNat]'(by have := g.isLt; omega)

end Sys2Proof.Machine
end

