-- ==== Sys2Proof/Machine/State.lean ====
section
/-! DEFINITION. The architectural state of AbarrowCrypto CORE, unit by unit (10_state.md), its ports, and the state after
reset (70_reset_and_hazards.md R330). Every element of the spec's tables is a field; types that cannot express an impossible
encoding stand where 93_implementation_defined.md U5 asks for them. -/

namespace Sys2Proof.Machine

/-- The nine response codes of 30_encoding.md R96; codes 9 to 15 are never produced and have no name (93 U4). -/
inductive Code where
  | ok
  | noKey
  | invalidKeyLength
  | invalidLength
  | invalidPadding
  | insufficientLength
  | macMismatch
  | noIV
  | illegalCommand
deriving DecidableEq, Repr

/-- `mp_phase` (10_state.md section 3). -/
inductive MpPhase where
  | idle | run
deriving DecidableEq, Repr

/-- `sb_phase`: `run` when the host owns the window, `owned` when unit MC does (R41). -/
inductive SbPhase where
  | idle | run | owned
deriving DecidableEq, Repr

/-- `mc_phase` (R46). -/
inductive McPhase where
  | idle | tag | chk
deriving DecidableEq, Repr

/-- Unit FC, the Feistel cipher core (10_state.md section 2). -/
structure Fc where
  /-- `fc_keyed` (R23) -/
  keyed : Bool
  /-- `fc_rk[1..16]`, round key `r` at index `r - 1` -/
  rk : Vector (BitVec 48) 16
  /-- `fc_c` (R25) -/
  c : BitVec 28
  /-- `fc_d` (R25) -/
  d : BitVec 28
  /-- `fc_l` (R25) -/
  l : BitVec 32
  /-- `fc_r` (R25) -/
  r : BitVec 32
deriving DecidableEq, Repr

/-- Unit MP, the mode processor (10_state.md section 3). -/
structure Mp where
  /-- `iv` (R30) -/
  iv : Block
  /-- `iv_valid` (R30) -/
  ivValid : Bool
  /-- `mp_phase` -/
  phase : MpPhase
  /-- `mp_mode` -/
  mode : Mode
  /-- `mp_dir` -/
  dir : Dir
  /-- `mp_pad` -/
  pad : Pad
  /-- `mp_chain` (R32) -/
  chain : Block
  /-- `mp_prev` (R31) -/
  prev : Block
  /-- `mp_prev_valid` (R31) -/
  prevValid : Bool
  /-- `mp_cur` (R31) -/
  cur : Block
  /-- `mp_fill`, 0 to 7 between commands (R22) -/
  fill : Fin 8
deriving DecidableEq, Repr

/-- Unit SB, the suffix lookahead buffer (10_state.md section 4), with the bound `sb_cnt ≤ sb_n ≤ NMAX` of R40 as proof
fields. -/
structure Sb where
  /-- `sb_phase` (R41) -/
  phase : SbPhase
  /-- `sb_n` -/
  n : Nat
  /-- `sb_cnt` -/
  cnt : Nat
  /-- `sb_w`, the oldest byte at index 0 (R40) -/
  w : Vector Byte 64
  n_le : n ≤ 64
  cnt_le : cnt ≤ n
deriving DecidableEq, Repr

/-- Unit MC, the MAC accumulator wrapper (10_state.md section 5). A pad of `Hb` bytes lies at the start of its 128-byte
storage and a digest of `Hd` bytes at the start of its 64-byte storage, the rest zero. -/
structure Mc where
  /-- `mc_keyed` (R45) -/
  keyed : Bool
  /-- `mc_ipad` (R45) -/
  ipad : Vector Byte 128
  /-- `mc_opad` (R45) -/
  opad : Vector Byte 128
  /-- `mc_phase` (R46) -/
  phase : McPhase
  /-- `mc_path` (R58) -/
  path : Path
  /-- `mc_quiet` -/
  quiet : Bool
  /-- `mc_inner` (R46) -/
  inner : Vector Byte 64
  /-- `mc_tag` (R46) -/
  tag : Vector Byte 64
deriving DecidableEq, Repr

/-- The machine: the four units, the system elements, the Hasher's accumulator, and the ports of 20_memory.md R60. The
ports and the reset request are the model's own fields (log entries 1 to 3): R20 makes the command and its payload
parameters of the step function. -/
structure State where
  /-- unit FC -/
  fc : Fc
  /-- unit MP -/
  mp : Mp
  /-- unit SB -/
  sb : Sb
  /-- unit MC -/
  mc : Mc
  /-- `last_code` (R315) -/
  lastCode : Code
  /-- `rxbuf`, the payload of the command in execution; the zeroed buffer is `[]` (R50, log entry 4) -/
  rxbuf : List Byte
  /-- `h_acc`, the Hasher's accumulator (R51, R66) -/
  hAcc : List Byte
  /-- port CMD: the words presented and not yet answered, the head in execution (R61) -/
  cmd : List Word
  /-- port DIN: the payload bytes presented and not yet taken (R62) -/
  din : List Byte
  /-- port DOUT: the output stream so far (R63) -/
  dout : List Byte
  /-- port SFX: the suffix bytes put out so far (R64) -/
  sfx : List Byte
  /-- port RSP: the response words put out so far (R65) -/
  rsp : List Word
  /-- the environment asserts reset before the next command (R330) -/
  rstReq : Bool
deriving DecidableEq, Repr

/-- No command of this hardware stops the machine: every error is a response code (60_exceptions.md R310, R315), and an
encoding of state that never occurs (93 U5) cannot be written. The type is closed and has no constructor; that is safe. -/
inductive Fault where
deriving DecidableEq, Repr

/-- The reasons for which the model could give no meaning. -/
inductive Refusal where
  /-- Raised by an arm of `exec` for a command the model has not reached. No arm raises it: every command has its meaning. Safe. -/
  | notModelled (mnemonic : String)
deriving DecidableEq, Repr

/-- Unit FC after reset: keyless and all zero (R330). -/
def Fc.reset : Fc where
  keyed := false
  rk := Vector.replicate 16 0
  c := 0
  d := 0
  l := 0
  r := 0

/-- Unit MP after reset: `IDLE`, no IV, ECB, encrypt, ZERO, all buffers zero (R330). -/
def Mp.reset : Mp where
  iv := Vector.replicate 8 0
  ivValid := false
  phase := .idle
  mode := .ecb
  dir := .encrypt
  pad := .zero
  chain := Vector.replicate 8 0
  prev := Vector.replicate 8 0
  prevValid := false
  cur := Vector.replicate 8 0
  fill := 0

/-- Unit SB after reset: `IDLE`, the window empty and zero (R330). -/
def Sb.reset : Sb where
  phase := .idle
  n := 0
  cnt := 0
  w := Vector.replicate 64 0
  n_le := by decide
  cnt_le := by decide

/-- Unit MC after reset: keyless, `IDLE`, all buffers zero (R330). -/
def Mc.reset : Mc where
  keyed := false
  ipad := Vector.replicate 128 0
  opad := Vector.replicate 128 0
  phase := .idle
  path := .tag
  quiet := false
  inner := Vector.replicate 64 0
  tag := Vector.replicate 64 0

/-- The machine right after reset: every element zero, the ports holding nothing (R330). -/
def State.reset : State where
  fc := Fc.reset
  mp := Mp.reset
  sb := Sb.reset
  mc := Mc.reset
  lastCode := .ok
  rxbuf := []
  hAcc := []
  cmd := []
  din := []
  dout := []
  sfx := []
  rsp := []
  rstReq := false

end Sys2Proof.Machine
end

