-- ==== Sys2Proof/Machine/Feistel.lean ====
section
/-! DEFINITION. The block cipher of unit FC over its working registers: key schedule, round function, round and block
transform (41_feistel.md R150, R155 to R159). -/

namespace Sys2Proof.Machine

/-- One round of the key schedule: rotate both halves by `ROT[r]` and store the compressed round key (R150). The index
`r` is the rule's `r` less one. -/
def Fc.scheduleRound (u : Fc) (r : Fin 16) : Fc :=
  let c := rotl u.c tableROT[r.val]
  let d := rotl u.d tableROT[r.val]
  { u with c := c, d := d, rk := u.rk.set r.val (permute (c ++ d : BitVec 56) tablePC2) }

/-- The key permutation splits the key into the halves `fc_c` and `fc_d` (R150). -/
def Fc.loadKey (u : Fc) (key : Block) : Fc :=
  let cd : BitVec 56 := permute (n := 64) (bits key) tablePC1
  { u with c := cd.extractLsb' 28 28, d := cd.extractLsb' 0 28 }

/-- The old schedule is zeroed, the new one derived, the working halves zeroed, and the unit keyed (R150). -/
def Fc.installKey (u : Fc) (key : Block) : Fc :=
  let u := { u with rk := Vector.replicate 16 0, c := 0, d := 0, keyed := false }
  let u := (List.finRange 16).foldl Fc.scheduleRound (u.loadKey key)
  { u with c := 0, d := 0, keyed := true }

/-- The schedule and all halves zeroed, the unit keyless (R151). -/
def Fc.removeKey (u : Fc) : Fc :=
  { u with rk := Vector.replicate 16 0, c := 0, d := 0, l := 0, r := 0, keyed := false }

/-- Six-bit group `i` of `x`, `i` from 1 to 8 (log entry 17), the first bits first (R155). -/
def sixBitGroup (x : BitVec 48) (i : Nat) : BitVec 6 := x.extractLsb' (48 - 6 * i) 6

/-- The eight groups through their S-boxes, group 1's output first (R155). -/
def substituteAll (x : BitVec 48) : BitVec 32 :=
  substitute tableS1 (sixBitGroup x 1) ++ substitute tableS2 (sixBitGroup x 2) ++
  substitute tableS3 (sixBitGroup x 3) ++ substitute tableS4 (sixBitGroup x 4) ++
  substitute tableS5 (sixBitGroup x 5) ++ substitute tableS6 (sixBitGroup x 6) ++
  substitute tableS7 (sixBitGroup x 7) ++ substitute tableS8 (sixBitGroup x 8)

/-- The round function `f(R, K)` (R155). -/
def roundFunction (r : BitVec 32) (k : BitVec 48) : BitVec 32 :=
  permute (substituteAll (permute r tableE ^^^ k)) tableP

/-- One Feistel round on `fc_l`, `fc_r`; the last round skips the swap (R156). -/
def Fc.round (u : Fc) (k : BitVec 48) (last : Bool) : Fc :=
  let l := u.l ^^^ roundFunction u.r k
  if last then { u with l := l } else { u with l := u.r, r := l }

/-- The rounds under a sequence of round keys, the last key's round the last (R157). -/
def Fc.rounds (u : Fc) : List (BitVec 48) → Fc
  | [] => u
  | [k] => u.round k true
  | k :: k' :: ks => (u.round k false).rounds (k' :: ks)

/-- The initial permutation loads `fc_l` and `fc_r` with the block's halves (R157). -/
def Fc.loadBlock (u : Fc) (x : Block) : Fc :=
  let v : BitVec 64 := permute (n := 64) (bits x) tableIP
  { u with l := v.extractLsb' 32 32, r := v.extractLsb' 0 32 }

/-- The block that the final permutation reads from `fc_l ++ fc_r` (R157). -/
def Fc.unloadBlock (u : Fc) : Block :=
  bytes (n := 8) (permute (u.l ++ u.r : BitVec 64) tableFP)

/-- The block transform under a sequence of round keys: the transformed block and the unit with `fc_l`, `fc_r` zero again
(R157). -/
def Fc.crypt (u : Fc) (ks : List (BitVec 48)) (x : Block) : Block × Fc :=
  let u := (u.loadBlock x).rounds ks
  (u.unloadBlock, { u with l := 0, r := 0 })

/-- `E_K(X)`: the round keys in schedule order (R158). The rule defines it for a keyed unit; the function is total (log
entry 17). -/
def Fc.encrypt (u : Fc) (x : Block) : Block := (u.crypt u.rk.toList x).1

/-- `D_K(X)`: the round keys in reverse order (R159). The rule defines it for a keyed unit; the function is total (log
entry 17). -/
def Fc.decrypt (u : Fc) (x : Block) : Block := (u.crypt u.rk.toList.reverse x).1

end Sys2Proof.Machine
end

