-- ==== Sys2Proof/Machine/Flags.lean ====
section
/-! DEFINITION. The flags and codes as a host reads them: response codes (30_encoding.md R96), the response word (R95), the
phase codes, and the six status registers (10_state.md R55 to R59). There are no condition codes (10 section 8). -/

namespace Sys2Proof.Machine

/-- The number of a response code (R96). -/
def Code.bits : Code → BitVec 4
  | .ok => 0
  | .noKey => 1
  | .invalidKeyLength => 2
  | .invalidLength => 3
  | .invalidPadding => 4
  | .insufficientLength => 5
  | .macMismatch => 6
  | .noIV => 7
  | .illegalCommand => 8

/-- The response word: `q[3:0]` code, `q[15:4]` zero, `q[31:16]` aux (R95). -/
def responseWord (c : Code) (aux : BitVec 16) : Word :=
  aux ++ (0 : BitVec 12) ++ c.bits

/-- The code of `mp_phase` (10_state.md section 3). -/
def MpPhase.bits : MpPhase → BitVec 2
  | .idle => 0
  | .run => 1

/-- The code of `sb_phase` (10_state.md section 4). -/
def SbPhase.bits : SbPhase → BitVec 2
  | .idle => 0
  | .run => 1
  | .owned => 2

/-- The code of `mc_phase` (10_state.md section 5). -/
def McPhase.bits : McPhase → BitVec 2
  | .idle => 0
  | .tag => 1
  | .chk => 2

/-- `SR0 STATUS` (R55). -/
def sr0 (s : State) : BitVec 16 :=
  s.lastCode.bits ++ (0 : BitVec 2) ++ s.mc.phase.bits ++ s.sb.phase.bits ++ s.mp.phase.bits ++ (0 : BitVec 1) ++
    BitVec.ofBool s.mc.keyed ++ BitVec.ofBool s.mp.ivValid ++ BitVec.ofBool s.fc.keyed

/-- `SR1 MPCFG` (R56). -/
def sr1 (s : State) : BitVec 16 :=
  (0 : BitVec 7) ++ BitVec.ofBool s.mp.prevValid ++ BitVec.ofNat 4 s.mp.fill.val ++ BitVec.ofBool s.mp.pad.toBit ++
    BitVec.ofBool s.mp.dir.toBit ++ s.mp.mode.toBits

/-- `SR2 SBCFG` (R57). -/
def sr2 (s : State) : BitVec 16 :=
  BitVec.ofNat 8 s.sb.cnt ++ BitVec.ofNat 8 s.sb.n

/-- `SR3 MCCFG` (R58). -/
def sr3 (s : State) : BitVec 16 :=
  (0 : BitVec 14) ++ BitVec.ofBool s.mc.quiet ++ BitVec.ofBool s.mc.path.toBit

/-- `SR4 PARAM0`: `B` and `NMAX` (R59). -/
def sr4 : BitVec 16 :=
  BitVec.ofNat 8 Config.nmax ++ BitVec.ofNat 8 Config.blockBytes

/-- `SR5 PARAM1`: what the Hasher port reports (R59). -/
def sr5 (h : Hasher) : BitVec 16 :=
  BitVec.ofNat 8 h.hb ++ BitVec.ofNat 8 h.hd

/-- `SR[idx]`; an index 6 to 255 is reserved and names no register (R59, R93). -/
def statusRegister (h : Hasher) (s : State) (idx : BitVec 8) : Option (BitVec 16) :=
  match idx.toNat with
  | 0 => some (sr0 s)
  | 1 => some (sr1 s)
  | 2 => some (sr2 s)
  | 3 => some (sr3 s)
  | 4 => some sr4
  | 5 => some (sr5 h)
  | _ => none

end Sys2Proof.Machine
end

