-- ==== Sys2Proof/Machine/Operands.lean ====
section
/-! DEFINITION. Operand forms: how a payload or another byte sequence is taken into a buffer of fixed size, and how a buffer
that is only partly in use is read (30_encoding.md R92; 00_scope.md R9; the storage notes of 10_state.md sections 3 to 5). -/

namespace Sys2Proof.Machine

/-- A byte sequence in a storage of `n` bytes: its first `n` bytes from index 0, zero bytes above them. That a longer
sequence is cut is log entry 17; no command gives one. -/
def fit (n : Nat) (l : List Byte) : Vector Byte n :=
  tabulate fun k => l.getD k.val 0

/-- `zeros(n)` as a buffer (R9). -/
def zeroBytes (n : Nat) : Vector Byte n := Vector.replicate n 0

/-- `b[0 .. k)` of a buffer (R9). -/
def firstBytes {n : Nat} (b : Vector Byte n) (k : Nat) : List Byte := b.toList.take k

/-- `l xor rep(v, |l|)` (R9). -/
def xorEach (v : Byte) (l : List Byte) : List Byte := l.map (· ^^^ v)

/-- `rep(v, n)` (R9). -/
def rep (v : Byte) (n : Nat) : List Byte := List.replicate n v

end Sys2Proof.Machine
end

