-- ==== Sys2Proof/Machine/Ops.lean ====
section
/-! DEFINITION. The named operations every meaning is written with: the ports DIN, DOUT, SFX and RSP (20_memory.md R62 to
R65), the Hasher port (R66), and the error exit (60_exceptions.md R310). There is no addressable memory (R60), no exception
entry and no return from one (R315): the error exit `State.fail` is all that an exception of this hardware is. -/

namespace Sys2Proof.Machine

/-- The outcome type of a meaning. -/
abbrev Result := Host.Outcome State Fault Refusal

/-- `In(n)` and what the command does with it: the payload moves from DIN into `rxbuf` and the command runs (R62, R50).
While DIN holds fewer than `n` bytes the core waits inside the command and nothing is taken (R350(c), 93 U6, log entry 2). -/
def State.withPayload (s : State) (n : Nat) (run : State → State) : State :=
  if s.din.length < n then s
  else run { s with rxbuf := s.din.take n, din := s.din.drop n }

/-- `zero(rxbuf)` (R50). -/
def State.zeroRx (s : State) : State := { s with rxbuf := [] }

/-- `Out(b)` (R63). -/
def State.out (s : State) (b : List Byte) : State := { s with dout := s.dout ++ b }

/-- `Sfx(b)` (R64). -/
def State.sfxOut (s : State) (b : List Byte) : State := { s with sfx := s.sfx ++ b }

/-- The response word goes on RSP and the command in execution ends: its word leaves CMD (R61, R65). `NOP` and `RDSR` end
so, leaving `last_code` as it is (R95). -/
def State.answer (s : State) (c : Code) (aux : BitVec 16) : State :=
  { s with rsp := s.rsp ++ [responseWord c aux], cmd := s.cmd.tail }

/-- `respond(code, aux)` of every command but `NOP` and `RDSR` (R95). -/
def State.respond (s : State) (c : Code) (aux : BitVec 16) : State :=
  { s with lastCode := c }.answer c aux

/-- `fail <Error>`, the error exit: `rxbuf` zeroed, then the response with `aux` 0 (R310). The refusals of R301 and R102
leave by it too, with `IllegalCommand`. What else an error zeroes its command names. -/
def State.fail (s : State) (c : Code) : State := s.zeroRx.respond c 0

/-- The end of a command that took a payload and succeeded: `zero(rxbuf); respond(OK, 0)` (R50, R95). -/
def State.finish (s : State) : State := s.zeroRx.respond .ok 0

/-- `Hreset()` (R66). -/
def State.hReset (s : State) : State := { s with hAcc := [] }

/-- `Hadd(b)` (R66). -/
def State.hAdd (s : State) (b : List Byte) : State := { s with hAcc := s.hAcc ++ b }

/-- The digest `Hfinal()` returns (R66). -/
def State.hDigest (h : Hasher) (s : State) : List Byte := h.digest s.hAcc

/-- `Hfinal()`: the digest of the accumulated bytes, the Hasher left reset (R66). -/
def State.hFinal (h : Hasher) (s : State) : List Byte × State := (s.hDigest h, s.hReset)

end Sys2Proof.Machine
end

