-- ==== Sys2Proof/Machine/Fc.lean ====
section
/-! DEFINITION. The five commands of unit FC (41_feistel.md R149 to R152, R160, R161). -/

namespace Sys2Proof.Machine

/-- `FC.SETKEY : key`: phase first, then the key length, then the new schedule (R149, R150). -/
def execFcSetkey (len : BitVec 16) (s : State) : Result :=
  .next (s.withPayload len.toNat fun s =>
    if s.mp.phase = .run then s.fail .illegalCommand
    else if len.toNat ∉ Config.fcKeyLens then s.fail .invalidKeyLength
    else { s with fc := s.fc.installKey (fit 8 s.rxbuf) }.finish)

/-- `FC.RMKEY` (R149, R151). -/
def execFcRmkey (s : State) : Result :=
  .next (if s.mp.phase = .run then s.fail .illegalCommand
    else { s with fc := s.fc.removeKey }.respond .ok 0)

/-- `FC.HASKEY`: `aux` is `fc_keyed` (R152). -/
def execFcHaskey (s : State) : Result :=
  .next (s.respond .ok (if s.fc.keyed then 1 else 0))

/-- A block operation of unit FC under a sequence of round keys: `NoKey` when keyless, else the transformed block on DOUT
and `fc_l`, `fc_r` zero again (R157, R160, R161). -/
def State.blockCommand (s : State) (ks : List (BitVec 48)) : State :=
  if s.fc.keyed then
    let (y, fc) := s.fc.crypt ks (fit 8 s.rxbuf)
    ({ s with fc := fc }.out y.toList).finish
  else s.fail .noKey

/-- `FC.ENCBLK : block` (R158, R160). -/
def execFcEncblk (s : State) : Result :=
  .next (s.withPayload Config.blockBytes fun s => s.blockCommand s.fc.rk.toList)

/-- `FC.DECBLK : block` (R159, R161). -/
def execFcDecblk (s : State) : Result :=
  .next (s.withPayload Config.blockBytes fun s => s.blockCommand s.fc.rk.toList.reverse)

end Sys2Proof.Machine
end

