-- ==== Sys2Proof/Machine/Window.lean ====
section
/-! DEFINITION. The suffix window's shared operations, used by units SB and MC (44_suffix.md R230, R235). -/

namespace Sys2Proof.Machine

/-- The window not yet full takes one more byte (R230). -/
def Sb.hold (u : Sb) (b : Byte) (h : u.cnt < u.n) : Sb :=
  { u with
    w := u.w.set u.cnt b (by have := u.n_le; omega)
    cnt := u.cnt + 1
    cnt_le := h }

/-- The full window loses its oldest byte and takes `b` as its newest (R230). -/
def Sb.shift (u : Sb) (b : Byte) : Sb :=
  { u with
    w := tabulate fun k : Fin 64 =>
      if h : k.val + 1 < u.n then u.w[k.val + 1]'(by have := u.n_le; omega)
      else if k.val + 1 = u.n then b
      else u.w[k.val] }

/-- `sb_byte(b)`: the byte that leaves the window, if one does, and the unit after it (R230). -/
def Sb.byteStep (u : Sb) (b : Byte) : Option Byte × Sb :=
  if h : u.cnt < u.n then (none, u.hold b h)
  else if u.n = 0 then (some b, u)
  else (some u.w[0], u.shift b)

/-- The bytes of a chunk through `sb_byte`, in order, and the bytes that left (R233). -/
def Sb.feed (u : Sb) : List Byte → List Byte × Sb
  | [] => ([], u)
  | b :: bs =>
    let (o, u1) := u.byteStep b
    let (os, u2) := u1.feed bs
    (o.toList ++ os, u2)

/-- The window begins a stream with retained length `n` under the owner `phase` (R232, R255). -/
def Sb.begin (u : Sb) (n : Nat) (h : n ≤ 64) (phase : SbPhase) : Sb :=
  { u with phase := phase, n := n, cnt := 0, w := zeroBytes 64, n_le := h, cnt_le := Nat.zero_le n }

/-- `sb_clear()`: `sb_n` keeps its value (R235). -/
def Sb.clear (u : Sb) : Sb :=
  { u with w := zeroBytes 64, cnt := 0, phase := .idle, cnt_le := Nat.zero_le u.n }

/-- The suffix, `sb_w[0 .. sb_n)` (R234, R262). -/
def Sb.suffix (u : Sb) : List Byte := firstBytes u.w u.n

end Sys2Proof.Machine
end

