-- ==== Sys2Proof/Machine/Mac.lean ====
section
/-! DEFINITION. The MAC wrapper's shared operations over a Hasher that is an argument: pad derivation, the body step, the
two-pass finalisation and the comparison (45_mac.md R252, R256, R257, R261 to R264). -/

namespace Sys2Proof.Machine

/-- `k0`: the key zero-extended to `Hb` bytes, hashed first when it is longer (R252). `k` has at most `Hb`
bytes (log entry 17). -/
def macKeyBlock (h : Hasher) (k : List Byte) : List Byte := k ++ rep 0 (h.hb - k.length)

/-- The pads stored and the unit keyed, the old pads zeroed first (R252). -/
def Mc.installKey (m : Mc) (k0 : List Byte) : Mc :=
  let m := { m with ipad := zeroBytes 128, opad := zeroBytes 128, keyed := false }
  { m with ipad := fit 128 (xorEach 0x36 k0), opad := fit 128 (xorEach 0x5c k0), keyed := true }

/-- The pads zeroed, the unit keyless (R253). -/
def Mc.removeKey (m : Mc) : Mc :=
  { m with ipad := zeroBytes 128, opad := zeroBytes 128, keyed := false }

/-- `mc_clear()` (R264). -/
def Mc.clear (m : Mc) : Mc :=
  { m with inner := zeroBytes 64, tag := zeroBytes 64, phase := .idle }

/-- The `Hb` bytes of `mc_ipad` (10_state.md section 5). -/
def Mc.ipadBytes (h : Hasher) (m : Mc) : List Byte := firstBytes m.ipad h.hb

/-- The `Hb` bytes of `mc_opad` (10_state.md section 5). -/
def Mc.opadBytes (h : Hasher) (m : Mc) : List Byte := firstBytes m.opad h.hb

/-- `mac(ipad, opad, m)`, the function computed (R250). -/
def mac (h : Hasher) (ipad opad m : List Byte) : List Byte :=
  h.digest (opad ++ h.digest (ipad ++ m))

/-- `mc_body(b)`: one byte classified as body (R256). -/
def State.mcBody (s : State) (b : Byte) : State :=
  if s.mc.quiet then s.hAdd [b] else (s.hAdd [b]).out [b]

/-- One byte of a chunk on the path in progress (R257). -/
def State.mcByte (s : State) (b : Byte) : State :=
  match s.mc.phase with
  | .idle => s
  | .tag => s.mcBody b
  | .chk =>
    let (o, sb) := s.sb.byteStep b
    match o with
    | none => { s with sb := sb }
    | some x => { s with sb := sb }.mcBody x

/-- The bytes of a chunk, in order (R257). -/
def State.mcFeed (s : State) : List Byte → State
  | [] => s
  | b :: bs => (s.mcByte b).mcFeed bs

/-- `mc_finish()`: the inner digest, then the outer one, which it leaves in `mc_tag`; `mc_inner` zero again and the Hasher
reset (R261). -/
def State.mcFinish (h : Hasher) (s : State) : State :=
  let (d, s) := s.hFinal h
  let s := { s with mc := { s.mc with inner := fit 64 d } }
  let s := (s.hAdd (s.mc.opadBytes h)).hAdd (firstBytes s.mc.inner h.hd)
  let (t, s) := s.hFinal h
  { s with mc := { s.mc with tag := fit 64 t, inner := zeroBytes 64 } }

/-- The tag `mc_finish()` returns: the `Hd` bytes of `mc_tag` (R261). -/
def Mc.tagBytes (h : Hasher) (m : Mc) : List Byte := firstBytes m.tag h.hd

/-- The comparison: the or of the xors of all byte pairs of two sequences of one length (R262, R263, log entry 17). -/
def tagDifference (t w : List Byte) : Byte :=
  (List.zipWith (· ^^^ ·) t w).foldl (· ||| ·) 0

end Sys2Proof.Machine
end

