-- ==== Sys2Proof/Machine/Mc.lean ====
section
/-! DEFINITION. The six commands of unit MC (45_mac.md R251 to R264). Each that calls the Hasher is written over a Hasher
that is an argument, and the command uses the instance's own, `Config.hasher` (00_scope.md R7). -/

namespace Sys2Proof.Machine

/-- A key longer than `Hb` goes through the Hasher, any other is used as it stands (R252). -/
def State.macHashKey (h : Hasher) (s : State) : List Byte × State :=
  if h.hb < s.rxbuf.length then (s.hReset.hAdd s.rxbuf).hFinal h else (s.rxbuf, s)

/-- `MC.SETKEY : key` after its payload is in `rxbuf` (R251, R252). -/
def State.macSetkey (h : Hasher) (len : Nat) (s : State) : State :=
  if s.mc.phase ≠ .idle then s.fail .illegalCommand
  else if len < Config.mcKeyMin ∨ Config.mcKeyMax < len then s.fail .invalidKeyLength
  else
    let (k, s) := s.macHashKey h
    { s with mc := s.mc.installKey (macKeyBlock h k) }.finish

/-- `MC.SETKEY : key` (R252). -/
def execMcSetkey (len : BitVec 16) (s : State) : Result :=
  .next (s.withPayload len.toNat (State.macSetkey Config.hasher len.toNat))

/-- `MC.RMKEY` (R251, R253). -/
def execMcRmkey (s : State) : Result :=
  .next (if s.mc.phase ≠ .idle then s.fail .illegalCommand
    else { s with mc := s.mc.removeKey }.respond .ok 0)

/-- `MC.HASKEY`: `aux` is `mc_keyed` (R254). -/
def execMcHaskey (s : State) : Result :=
  .next (s.respond .ok (if s.mc.keyed then 1 else 0))

/-- `MC.START path quiet`: phase and window ownership, then `NoKey`, then the inner pad goes to the Hasher and the check
path takes the window (R255). -/
def State.macStart (h : Hasher) (path : Path) (quiet : Bool) (s : State) : State :=
  if s.mc.phase ≠ .idle then s.fail .illegalCommand
  else if path = .check ∧ s.sb.phase ≠ .idle then s.fail .illegalCommand
  else if s.mc.keyed = false then s.fail .noKey
  else
    let s := { s with mc := { s.mc with path := path, quiet := quiet } }
    let s := s.hReset.hAdd (s.mc.ipadBytes h)
    match path with
    | .check =>
      { s with
        sb := s.sb.begin h.hd h.hd_le .owned
        mc := { s.mc with phase := .chk } }.respond .ok 0
    | .tag => { s with mc := { s.mc with phase := .tag } }.respond .ok 0

/-- `MC.START path quiet` (R255). -/
def execMcStart (path : Path) (quiet : Bool) (s : State) : Result :=
  .next (s.macStart Config.hasher path quiet)

/-- `MC.DATA : chunk` (R257). -/
def execMcData (len : BitVec 16) (s : State) : Result :=
  .next (s.withPayload len.toNat fun s =>
    if s.mc.phase = .idle then s.fail .illegalCommand
    else (s.mcFeed s.rxbuf).finish)

/-- `MC.END` on the tag path: the tag goes out (R260). -/
def State.macEndTag (h : Hasher) (s : State) : State :=
  let s := s.mcFinish h
  let s := s.out (s.mc.tagBytes h)
  { s with mc := s.mc.clear }.respond .ok 0

/-- `MC.END` on the check path: the stream too short, or the tag compared with the window over all `Hd` bytes (R262,
R263). -/
def State.macEndCheck (h : Hasher) (s : State) : State :=
  if s.sb.cnt < s.sb.n then
    let s := s.hReset
    { s with sb := s.sb.clear, mc := s.mc.clear }.fail .insufficientLength
  else
    let s := s.mcFinish h
    let d := tagDifference (s.mc.tagBytes h) (firstBytes s.sb.w h.hd)
    let s := { s with sb := s.sb.clear, mc := s.mc.clear }
    if d ≠ 0 then s.fail .macMismatch else s.respond .ok 0

/-- `MC.END` on the path in progress (R260, R262). -/
def State.macEnd (h : Hasher) (s : State) : State :=
  match s.mc.phase with
  | .idle => s.fail .illegalCommand
  | .tag => s.macEndTag h
  | .chk => s.macEndCheck h

/-- `MC.END` (R260, R262). -/
def execMcEnd (s : State) : Result := .next (s.macEnd Config.hasher)

end Sys2Proof.Machine
end

