-- ==== Sys2Proof/Machine/Padding.lean ====
section
/-! DEFINITION. The two padding schemes of the mode processor (42_padding.md R180 to R184). -/

namespace Sys2Proof.Machine

/-- `pad_ZERO(tail)`: an empty tail gets nothing (R181). A tail has at most 7 bytes (log entry 17). -/
def padZero (tail : List Byte) : List Byte :=
  tail ++ rep 0 ((8 - tail.length) % 8)

/-- `unpad_ZERO(blk)`: the filler is not removed (R182). -/
def unpadZero (blk : List Byte) : Option (List Byte) := some blk

/-- `pad_LEN(tail)`: `n = 8 - |tail|` bytes of value `n` (R183). A tail has at most 7 bytes (log entry 17). -/
def padLen (tail : List Byte) : List Byte :=
  tail ++ rep (BitVec.ofNat 8 (8 - tail.length)) (8 - tail.length)

/-- `unpad_LEN(blk)`; `none` is `InvalidPadding` (R184). `blk` is empty or has 8 bytes (log entry 17). -/
def unpadLen (blk : List Byte) : Option (List Byte) :=
  if blk.length = 0 then none
  else
    let v := blk.getD 7 0
    if v.toNat < 1 ∨ 8 < v.toNat then none
    else if (blk.drop (8 - v.toNat)).any (· != v) then none
    else some (blk.take (8 - v.toNat))

/-- `pad(tail)` under the scheme `mp_pad` (R180, R209). -/
def padTail : Pad → List Byte → List Byte
  | .zero, tail => padZero tail
  | .len, tail => padLen tail

/-- `unpad(blk)` under the scheme `mp_pad` (R180, R210). -/
def unpadBlock : Pad → List Byte → Option (List Byte)
  | .zero, blk => unpadZero blk
  | .len, blk => unpadLen blk

end Sys2Proof.Machine
end

