-- ==== Sys2Proof/Machine/ModeProc.lean ====
section
/-! DEFINITION. The mode processor's shared operations: block finalisation, the byte step with its held-back block, and the
three ways a stream ends (43_mode.md R202 to R212). They read unit FC and write only unit MP (R222). -/

namespace Sys2Proof.Machine

/-- The CTR counter plus 1 modulo `2^64`, the block read as one integer, first byte most significant (R205). -/
def counterNext (c : Block) : Block :=
  bytes (n := 8) ((bits c : BitVec 64) + 1)

/-- `finalise(X)`: the block that leaves and the unit with its new chain value (R203 ECB, R204 CBC, R205 CTR). -/
def Mp.finalise (u : Fc) (m : Mp) (x : Block) : Block × Mp :=
  match m.mode, m.dir with
  | .ecb, .encrypt => (u.encrypt x, m)
  | .ecb, .decrypt => (u.decrypt x, m)
  | .cbc, .encrypt =>
    let y := u.encrypt (xorBytes x m.chain)
    (y, { m with chain := y })
  | .cbc, .decrypt => (xorBytes (u.decrypt x) m.chain, { m with chain := x })
  | .ctr, _ => (xorBytes x (u.encrypt m.chain), { m with chain := counterNext m.chain })

/-- The held-back block, if there is one, is finalised and put out (R202, R209, R211). -/
def Mp.flushPrev (u : Fc) (m : Mp) : List Byte × Mp :=
  if m.prevValid then ((m.finalise u m.prev).1.toList, (m.finalise u m.prev).2) else ([], m)

/-- A full block becomes the held-back one (R202). -/
def Mp.holdBlock (m : Mp) (x : Block) : Mp :=
  { m with prev := x, prevValid := true, cur := zeroBytes 8, fill := 0 }

/-- `mp_byte(b)`: what it puts out and the unit after it (R202). -/
def Mp.byteStep (u : Fc) (m : Mp) (b : Byte) : List Byte × Mp :=
  let cur := m.cur.set m.fill.val b m.fill.isLt
  if h : m.fill.val + 1 < 8 then ([], { m with cur := cur, fill := ⟨m.fill.val + 1, h⟩ })
  else
    let (o, m1) := m.flushPrev u
    (o, m1.holdBlock cur)

/-- The bytes of a chunk through `mp_byte`, in order (R201). -/
def Mp.feed (u : Fc) (m : Mp) : List Byte → List Byte × Mp
  | [] => ([], m)
  | b :: bs =>
    let (o, m1) := m.byteStep u b
    let (os, m2) := m1.feed u bs
    (o ++ os, m2)

/-- `mp_clear()` (R212). -/
def Mp.clear (m : Mp) : Mp :=
  { m with prev := zeroBytes 8, prevValid := false, cur := zeroBytes 8, fill := 0, chain := zeroBytes 8, phase := .idle }

/-- The bytes of the block in assembly, `mp_cur[0 .. mp_fill)` (R209, R211). -/
def Mp.tail (m : Mp) : List Byte := firstBytes m.cur m.fill.val

/-- What the end of an ECB or CBC encrypt stream puts out (R209). -/
def Mp.endEncrypt (u : Fc) (m : Mp) : List Byte :=
  let (o, m1) := m.flushPrev u
  let p := padTail m.pad m.tail
  if p.length = 8 then o ++ (m1.finalise u (fit 8 p)).1.toList else o

/-- What the end of an ECB or CBC decrypt stream of whole blocks releases; `none` is `InvalidPadding` (R210). -/
def Mp.endDecrypt (u : Fc) (m : Mp) : Option (List Byte) :=
  unpadBlock m.pad (m.flushPrev u).1

/-- What the end of a CTR stream puts out (R211). -/
def Mp.endCtr (u : Fc) (m : Mp) : List Byte :=
  let (o, m1) := m.flushPrev u
  o ++ firstBytes (xorBytes m.cur (u.encrypt m1.chain)) m.fill.val

/-- The unit at the start of a stream (R200). -/
def Mp.begin (m : Mp) (mode : Mode) (dir : Dir) (pad : Pad) : Mp :=
  { m with
    mode := mode, dir := dir, pad := pad
    chain := if mode = .ecb then zeroBytes 8 else m.iv
    prev := zeroBytes 8, prevValid := false, cur := zeroBytes 8, fill := 0, phase := .run }

end Sys2Proof.Machine
end

