-- ==== Sys2Proof/Machine/Mp.lean ====
section
/-! DEFINITION. The five commands of unit MP (43_mode.md R190, R191, R200, R201, R208). -/

namespace Sys2Proof.Machine

/-- `MP.SETIV : iv`, accepted in every phase (R190). -/
def execMpSetiv (s : State) : Result :=
  .next (s.withPayload Config.blockBytes fun s =>
    { s with mp := { s.mp with iv := fit 8 s.rxbuf, ivValid := true } }.finish)

/-- `MP.RMIV`, accepted in every phase (R191). -/
def execMpRmiv (s : State) : Result :=
  .next ({ s with mp := { s.mp with iv := zeroBytes 8, ivValid := false } }.respond .ok 0)

/-- `MP.START mode dir pad`: phase, `NoKey`, `NoIV` in this order, then the stream begins (R200). In ECB the IV is not
looked at (`ECB_IV_POLICY` is `ignore`, R6). -/
def execMpStart (mode : Mode) (dir : Dir) (pad : Pad) (s : State) : Result :=
  .next (if s.mp.phase = .run then s.fail .illegalCommand
    else if s.fc.keyed = false then s.fail .noKey
    else if mode ≠ .ecb ∧ s.mp.ivValid = false then s.fail .noIV
    else { s with mp := s.mp.begin mode dir pad }.respond .ok 0)

/-- `MP.DATA : chunk` (R201). -/
def execMpData (len : BitVec 16) (s : State) : Result :=
  .next (s.withPayload len.toNat fun s =>
    if s.mp.phase ≠ .run then s.fail .illegalCommand
    else
      let (o, mp) := s.mp.feed s.fc s.rxbuf
      ({ s with mp := mp }.out o).finish)

/-- `MP.END` of an ECB or CBC decrypt stream: the length test first, then unpadding (R210). -/
def State.mpEndDecrypt (s : State) : State :=
  if s.mp.fill ≠ 0 then { s with mp := s.mp.clear }.fail .invalidLength
  else
    match s.mp.endDecrypt s.fc with
    | none => { s with mp := s.mp.clear }.fail .invalidPadding
    | some o => ({ s with mp := s.mp.clear }.out o).respond .ok 0

/-- `MP.END`: the stream ends by its mode and direction and the unit is clear and `IDLE` on every path (R208 to R212). -/
def execMpEnd (s : State) : Result :=
  .next (if s.mp.phase ≠ .run then s.fail .illegalCommand
    else
      match s.mp.mode, s.mp.dir with
      | .ctr, _ => ({ s with mp := s.mp.clear }.out (s.mp.endCtr s.fc)).respond .ok 0
      | _, .encrypt => ({ s with mp := s.mp.clear }.out (s.mp.endEncrypt s.fc)).respond .ok 0
      | _, .decrypt => s.mpEndDecrypt)

end Sys2Proof.Machine
end

