-- ==== Sys2Proof/Machine/Sb.lean ====
section
/-! DEFINITION. The three commands of unit SB (44_suffix.md R231 to R234). -/

namespace Sys2Proof.Machine

/-- `SB.START n` (R232); a length above `NMAX` has only a reserved word, which is refused (R102, R104). -/
def execSbStart (n : BitVec 8) (s : State) : Result :=
  .next (if h : n.toNat ≤ 64 then
      (if s.sb.phase ≠ .idle then s.fail .illegalCommand
        else { s with sb := s.sb.begin n.toNat h .run }.respond .ok 0)
    else s.fail .illegalCommand)

/-- `SB.DATA : chunk` (R231, R233). -/
def execSbData (len : BitVec 16) (s : State) : Result :=
  .next (s.withPayload len.toNat fun s =>
    if s.sb.phase ≠ .run then s.fail .illegalCommand
    else
      let (o, sb) := s.sb.feed s.rxbuf
      ({ s with sb := sb }.out o).finish)

/-- `SB.END`: the suffix on SFX, or `InsufficientLength` (R231, R234). -/
def execSbEnd (s : State) : Result :=
  .next (if s.sb.phase ≠ .run then s.fail .illegalCommand
    else if s.sb.cnt < s.sb.n then { s with sb := s.sb.clear }.fail .insufficientLength
    else ({ s with sb := s.sb.clear }.sfxOut s.sb.suffix).respond .ok 0)

end Sys2Proof.Machine
end

