-- ==== Sys2Proof/Machine/Sys.lean ====
section
/-! DEFINITION. The system commands `NOP`, `RDSR`, `ABORT` (46_system.md R280 to R282), a reserved word (30_encoding.md
R102), and the reset event (70_reset_and_hazards.md R330). -/

namespace Sys2Proof.Machine

/-- `NOP` (R280). -/
def execNop (s : State) : Result := .next (s.answer .ok 0)

/-- `RDSR idx` on a given Hasher (R281); an index 6 to 255 has only a reserved word, which is refused (R102, R104). -/
def State.readStatus (h : Hasher) (s : State) (idx : BitVec 8) : State :=
  match statusRegister h s idx with
  | some v => s.answer .ok v
  | none => s.fail .illegalCommand

/-- `RDSR idx` (R281). -/
def execRdsr (idx : BitVec 8) (s : State) : Result := .next (s.readStatus Config.hasher idx)

/-- The part of `ABORT` that ends a stream of unit MP (R282). -/
def State.abortMp (s : State) : State := { s with mp := s.mp.clear }

/-- The part of `ABORT` that ends an operation of unit MC and releases the window it owns (R282, R264). -/
def State.abortMc (s : State) : State :=
  let s := if s.mc.phase = .chk then { s with sb := s.sb.clear } else s
  let s := if s.mc.phase ≠ .idle then s.hReset else s
  { s with mc := s.mc.clear }

/-- The part of `ABORT` that ends a host stream of unit SB (R282). -/
def State.abortSb (s : State) : State :=
  if s.sb.phase = .run then { s with sb := s.sb.clear } else s

/-- `ABORT u` (R282). -/
def execAbort (u : AbortUnit) (s : State) : Result :=
  .next (match u with
    | .all => s.abortMp.abortMc.abortSb.respond .ok 0
    | .mp => s.abortMp.respond .ok 0
    | .mc => s.abortMc.respond .ok 0
    | .sb => if s.sb.phase = .owned then s.fail .illegalCommand else s.abortSb.respond .ok 0)

/-- A reserved word: its own `len` payload bytes are taken and discarded, and the answer is `IllegalCommand` (R102). -/
def execReserved (w : Word) (s : State) : Result :=
  .next (s.withPayload (lenField w).toNat fun s => s.fail .illegalCommand)

/-- The reset event: every element takes its reset value and the ports hold nothing; the output streams already with the
host stay where they are (R330, log entry 3). -/
def State.resetEvent (s : State) : State :=
  { State.reset with dout := s.dout, sfx := s.sfx, rsp := s.rsp }

end Sys2Proof.Machine
end

