-- ==== Sys2Proof/Machine/Dispatch.lean ====
section
/-! DEFINITION. One arm per command, each a direct call of its meaning. -/

namespace Sys2Proof.Machine

def exec (i : Instr) (s : State) : Host.Outcome State Fault Refusal :=
  match i with
  | .nop => Sys2Proof.Machine.execNop s
  | .rdsr idx => Sys2Proof.Machine.execRdsr idx s
  | .abort u => Sys2Proof.Machine.execAbort u s
  | .fcSetkey len => Sys2Proof.Machine.execFcSetkey len s
  | .fcRmkey => Sys2Proof.Machine.execFcRmkey s
  | .fcHaskey => Sys2Proof.Machine.execFcHaskey s
  | .fcEncblk => Sys2Proof.Machine.execFcEncblk s
  | .fcDecblk => Sys2Proof.Machine.execFcDecblk s
  | .mpSetiv => Sys2Proof.Machine.execMpSetiv s
  | .mpRmiv => Sys2Proof.Machine.execMpRmiv s
  | .mpStart mode dir pad => Sys2Proof.Machine.execMpStart mode dir pad s
  | .mpData len => Sys2Proof.Machine.execMpData len s
  | .mpEnd => Sys2Proof.Machine.execMpEnd s
  | .sbStart n => Sys2Proof.Machine.execSbStart n s
  | .sbData len => Sys2Proof.Machine.execSbData len s
  | .sbEnd => Sys2Proof.Machine.execSbEnd s
  | .mcSetkey len => Sys2Proof.Machine.execMcSetkey len s
  | .mcRmkey => Sys2Proof.Machine.execMcRmkey s
  | .mcHaskey => Sys2Proof.Machine.execMcHaskey s
  | .mcStart path quiet => Sys2Proof.Machine.execMcStart path quiet s
  | .mcData len => Sys2Proof.Machine.execMcData len s
  | .mcEnd => Sys2Proof.Machine.execMcEnd s

end Sys2Proof.Machine
end

