-- ==== Sys2Proof/Machine/Step.lean ====
section
/-! DEFINITION. One step of the machine: the reset event, or one whole command (70_reset_and_hazards.md R342, R350). -/

namespace Sys2Proof.Machine

/-- One step. An asserted reset comes first (R330). Else the word at the head of CMD is decoded and executed, a reserved
word as R102 says; with no word the core waits (R325). -/
def step (s : State) : Host.Outcome State Fault Refusal :=
  if s.rstReq then .next s.resetEvent
  else
    match s.cmd with
    | [] => .next s
    | w :: _ =>
      match decode w with
      | .ok i => exec i s
      | .error _ => execReserved w s

/-- `s` with the command word `w` and as many zero payload bytes as its `len` field announces presented next, ahead of
whatever the ports hold, and no reset asserted (log entry 7). -/
def State.withFetchWord (s : State) (_nbits w : Nat) : State :=
  let word : Word := BitVec.ofNat 32 w
  { s with
    cmd := word :: s.cmd
    din := List.replicate (lenField word).toNat 0 ++ s.din
    rstReq := false }

end Sys2Proof.Machine
end

