-- ==== Sys2Proof/Machine/HostSeq.lean ====
section
/-! DEFINITION. The pseudo-instructions: host sequences of commands with no encoding of their own (30_encoding.md R107;
46_system.md R290, R291). They act on the machine only by presenting commands and taking steps. -/

namespace Sys2Proof.Machine

/-- A command as a host issues it: the command and its payload (R106). -/
structure HostCmd where
  instr : Instr
  payload : List Byte
deriving DecidableEq, Repr

/-- The host presents a command: its word on CMD and its payload on DIN (R61, R62). -/
def State.present (s : State) (c : HostCmd) : State :=
  { s with cmd := s.cmd ++ [encode c.instr], din := s.din ++ c.payload }

/-- The host issues one command and takes its response: one step (R342, R350). -/
def issue (c : HostCmd) (s : State) : Result := step (s.present c)

/-- A command sequence, executed top to bottom (R106). -/
def runSeq : List HostCmd → State → Result
  | [], s => .next s
  | c :: cs, s =>
    match issue c s with
    | .next t => runSeq cs t
    | .fault e => .fault e
    | .refused e => .refused e

/-- A payload cut into pieces of at most `n` bytes (R107); `fuel` bounds the number of pieces. -/
def splitChunks (n : Nat) : Nat → List Byte → List (List Byte)
  | 0, l => [l]
  | fuel + 1, l => if l.length ≤ n then [l] else l.take n :: splitChunks n fuel (l.drop n)

/-- A payload cut into payloads of at most `CHUNK_MAX` bytes (R107). -/
def payloads (l : List Byte) : List (List Byte) := splitChunks Config.chunkMax l.length l

/-- The length operand of a payload (R106). -/
def payloadLen (l : List Byte) : BitVec 16 := BitVec.ofNat 16 l.length

/-- A stream through unit MP in the given chunks (R107, R220). -/
def mpStream (mode : Mode) (dir : Dir) (pad : Pad) (chunks : List (List Byte)) : List HostCmd :=
  ⟨.mpStart mode dir pad, []⟩ :: (chunks.map fun c => ⟨.mpData (payloadLen c), c⟩) ++ [⟨.mpEnd, []⟩]

/-- `MP.ONESHOT mode dir pad : data` (R107). -/
def mpOneshot (mode : Mode) (dir : Dir) (pad : Pad) (data : List Byte) : List HostCmd :=
  mpStream mode dir pad (payloads data)

/-- A stream through unit SB in the given chunks (R240). -/
def sbStream (n : BitVec 8) (chunks : List (List Byte)) : List HostCmd :=
  ⟨.sbStart n, []⟩ :: (chunks.map fun c => ⟨.sbData (payloadLen c), c⟩) ++ [⟨.sbEnd, []⟩]

/-- A MAC operation in the given chunks (R107, R271). -/
def mcStream (path : Path) (quiet : Bool) (chunks : List (List Byte)) : List HostCmd :=
  ⟨.mcStart path quiet, []⟩ :: (chunks.map fun c => ⟨.mcData (payloadLen c), c⟩) ++ [⟨.mcEnd, []⟩]

/-- `MC.ONESHOT path quiet : data` (R107). -/
def mcOneshot (path : Path) (quiet : Bool) (data : List Byte) : List HostCmd :=
  mcStream path quiet (payloads data)

/-- The host issues a command and goes on only when it is answered `OK`, with the bytes the command put on DOUT. -/
def issueOk (c : HostCmd) (s : State) : Option (List Byte × State) :=
  match issue c s with
  | .next t => if t.lastCode = .ok then some (t.dout.drop s.dout.length, t) else none
  | .fault _ => none
  | .refused _ => none

/-- The commands of a list one after the other while each is answered `OK`, with the bytes they put on DOUT. -/
def issueAllOk : List HostCmd → State → Option (List Byte × State)
  | [], s => some ([], s)
  | c :: cs, s => do
    let (o, s) ← issueOk c s
    let (os, s) ← issueAllOk cs s
    some (o ++ os, s)

/-- `MC.DATA : data`, split into payloads of at most `CHUNK_MAX` bytes (R107, R290). -/
def mcData (data : List Byte) : List HostCmd :=
  (payloads data).map fun c => ⟨.mcData (payloadLen c), c⟩

/-- `MP.DATA : data`, split into payloads of at most `CHUNK_MAX` bytes (R107, R291). -/
def mpData (data : List Byte) : List HostCmd :=
  (payloads data).map fun c => ⟨.mpData (payloadLen c), c⟩

/-- The body of `AENC`: every byte unit MP puts out is carried into unit MC (R290). -/
def aencFeed : List (List Byte) → State → Option (List Byte × State)
  | [], s => some ([], s)
  | p :: ps, s => do
    let (c, s) ← issueAllOk (mpData p) s
    let (o, s) ← issueAllOk (mcData c) s
    let (os, s) ← aencFeed ps s
    some (o ++ os, s)

/-- `AENC : plaintext`, encrypt then tag: what unit MC put on DOUT, `ciphertext ++ tag` (R290). -/
def aenc (mode : Mode) (pad : Pad) (chunks : List (List Byte)) (s : State) : Option (List Byte × State) := do
  let (_, s) ← issueOk ⟨.mpStart mode .encrypt pad, []⟩ s
  let (_, s) ← issueOk ⟨.mcStart .tag false, []⟩ s
  let (body, s) ← aencFeed chunks s
  let (c, s) ← issueOk ⟨.mpEnd, []⟩ s
  let (last, s) ← issueAllOk (mcData c) s
  let (tag, s) ← issueOk ⟨.mcEnd, []⟩ s
  some (body ++ last ++ tag, s)

/-- `ADEC : tagged` in two passes: check quietly first, then decrypt the stream without its last `Hd` bytes (R291 (a)). -/
def adecTwoPass (mode : Mode) (pad : Pad) (tagged : List Byte) (s : State) : Option (List Byte × State) := do
  let (_, s) ← issueAllOk (mcOneshot .check true tagged) s
  issueAllOk (mpOneshot mode .decrypt pad (tagged.take (tagged.length - Config.hasher.hd))) s

/-- The body of `ADEC` in one pass: the body bytes unit MC forwards go to unit MP and the host holds back what it puts out
(R291 (b)). -/
def adecFeed : List (List Byte) → State → Option (List Byte × State)
  | [], s => some ([], s)
  | t :: ts, s => do
    let (c, s) ← issueAllOk (mcData t) s
    let (p, s) ← issueAllOk (mpData c) s
    let (ps, s) ← adecFeed ts s
    some (p ++ ps, s)

/-- `ADEC : tagged` in one pass: the plaintext held back is released only when `MC.END` answers `OK`; on any other answer
unit MP is aborted and nothing is released (R291 (b), R344). -/
def adecOnePass (mode : Mode) (pad : Pad) (chunks : List (List Byte)) (s : State) : Option (List Byte × State) := do
  let (_, s) ← issueOk ⟨.mcStart .check false, []⟩ s
  let (_, s) ← issueOk ⟨.mpStart mode .decrypt pad, []⟩ s
  let (held, s) ← adecFeed chunks s
  match issue ⟨.mcEnd, []⟩ s with
  | .next t =>
    if t.lastCode = .ok then do
      let (last, u) ← issueOk ⟨.mpEnd, []⟩ t
      some (held ++ last, u)
    else do
      let (_, u) ← issueOk ⟨.abort .mp, []⟩ t
      some ([], u)
  | .fault _ => none
  | .refused _ => none

end Sys2Proof.Machine
end

