-- ==== Sys2Proof/Safety.lean ====
section
/-! DEFINITION. What claims call a safe state and a safe run: the invariants the spec gives between commands (10_state.md
R33, R40, R41, R45, R46; 70_reset_and_hazards.md R340, R345), the part of the state that is no key or data byte (R351), and
the key material a host never reads (10 R21). -/

namespace Sys2Proof.Safety

open Sys2Proof.Machine

/-- R345: whenever the core waits for a command, working values are zero, an idle unit's transient state is zero, and a
missing key or IV leaves nothing behind. -/
structure Zeroed (s : State) : Prop where
  rxbuf : s.rxbuf = []
  fcC : s.fc.c = 0
  fcD : s.fc.d = 0
  fcL : s.fc.l = 0
  fcR : s.fc.r = 0
  mcInner : s.mc.inner = zeroBytes 64
  mcTag : s.mc.tag = zeroBytes 64
  mpPrev : s.mp.phase = .idle → s.mp.prev = zeroBytes 8
  mpCur : s.mp.phase = .idle → s.mp.cur = zeroBytes 8
  mpChain : s.mp.phase = .idle → s.mp.chain = zeroBytes 8
  sbW : s.sb.phase = .idle → s.sb.w = zeroBytes 64
  fcRk : s.fc.keyed = false → s.fc.rk = Vector.replicate 16 0
  mcIpad : s.mc.keyed = false → s.mc.ipad = zeroBytes 128
  mcOpad : s.mc.keyed = false → s.mc.opad = zeroBytes 128
  iv : s.mp.ivValid = false → s.mp.iv = zeroBytes 8

/-- R33, R40, R41 and the storage notes: a buffer is zero at and above its fill count, and an idle unit holds nothing. -/
structure Buffers (h : Hasher) (s : State) : Prop where
  curAbove : ∀ k : Fin 8, s.mp.fill ≤ k → s.mp.cur[k.val] = 0
  windowAbove : ∀ k : Fin 64, s.sb.cnt ≤ k.val → s.sb.w[k.val] = 0
  mpIdleFill : s.mp.phase = .idle → s.mp.fill = 0
  mpIdlePrev : s.mp.phase = .idle → s.mp.prevValid = false
  sbIdleCnt : s.sb.phase = .idle → s.sb.cnt = 0
  ipadAbove : ∀ k : Fin 128, h.hb ≤ k.val → s.mc.ipad[k.val] = 0
  opadAbove : ∀ k : Fin 128, h.hb ≤ k.val → s.mc.opad[k.val] = 0

/-- R46, R340: a stream or a MAC operation in progress has its key, and unit MC owns the window exactly while it checks. -/
structure Phases (h : Hasher) (s : State) : Prop where
  runKeyed : s.mp.phase = .run → s.fc.keyed = true
  opKeyed : s.mc.phase ≠ .idle → s.mc.keyed = true
  chkOwned : s.mc.phase = .chk ↔ s.sb.phase = .owned
  chkLength : s.mc.phase = .chk → s.sb.n = h.hd
  chkPath : s.mc.phase = .chk → s.mc.path = .check
  tagPath : s.mc.phase = .tag → s.mc.path = .tag

/-- The control part of the state: everything that is not a key byte, a data byte or a value computed from one, together
with how much each port has carried (R351). -/
structure Shape where
  fcKeyed : Bool
  ivValid : Bool
  mpPhase : MpPhase
  mode : Mode
  dir : Dir
  pad : Pad
  prevValid : Bool
  fill : Fin 8
  sbPhase : SbPhase
  sbN : Nat
  sbCnt : Nat
  mcKeyed : Bool
  mcPhase : McPhase
  path : Path
  quiet : Bool
  lastCode : Code
  cmd : List Word
  dinLength : Nat
  doutLength : Nat
  sfxLength : Nat
  rsp : List Word
  rstReq : Bool
deriving DecidableEq, Repr

/-- The control part of a state (R351). -/
def shape (s : State) : Shape where
  fcKeyed := s.fc.keyed
  ivValid := s.mp.ivValid
  mpPhase := s.mp.phase
  mode := s.mp.mode
  dir := s.mp.dir
  pad := s.mp.pad
  prevValid := s.mp.prevValid
  fill := s.mp.fill
  sbPhase := s.sb.phase
  sbN := s.sb.n
  sbCnt := s.sb.cnt
  mcKeyed := s.mc.keyed
  mcPhase := s.mc.phase
  path := s.mc.path
  quiet := s.mc.quiet
  lastCode := s.lastCode
  cmd := s.cmd
  dinLength := s.din.length
  doutLength := s.dout.length
  sfxLength := s.sfx.length
  rsp := s.rsp
  rstReq := s.rstReq

/-- The two commands whose documented result may depend on key or data bytes: `MC.END` on the check path and `MP.END` of an
ECB or CBC decrypt stream under `LEN` (R351). -/
def dataDependentEnd (i : Instr) (s : State) : Bool :=
  match i with
  | .mcEnd => s.mc.phase == .chk
  | .mpEnd => s.mp.phase == .run && s.mp.mode != .ctr && s.mp.dir == .decrypt && s.mp.pad == .len
  | _ => false

/-- The core waits for a command and the ports hold nothing that is not yet taken: where a host sequence begins (R61, R342). -/
structure Ready (s : State) : Prop where
  cmd : s.cmd = []
  din : s.din = []
  rstReq : s.rstReq = false

/-- A chunk that one command can carry (R6, `CHUNK_MAX`). -/
def Chunks (cs : List (List Byte)) : Prop := ∀ c ∈ cs, c.length ≤ Config.chunkMax

end Sys2Proof.Safety
end

