-- ==== Sys2Proof/Certificates/Slice0/Obligations.lean ====
section
/-! DEFINITION. The statements made about the model, each from a numbered rule of the spec or derived from its sections
(OBLIGATIONS.json names them). The hardware has no addressable memory (20_memory.md R60), so no frame speaks of any: what a
command leaves unchanged is every other field of the state, which the record updates below say in full. -/

namespace Sys2Proof.Claims

open Sys2Proof.Machine Sys2Proof.Safety

/-- The end of a command with a payload of `n` bytes: payload consumed and zeroed, `last_code` and the response written
(R50, R62, R95); every other field as in `s`. -/
def ended (s : State) (n : Nat) (c : Code) (q : Word) : State :=
  { s with din := s.din.drop n, rxbuf := [], lastCode := c, rsp := s.rsp ++ [q], cmd := s.cmd.tail }

/-- The end of a command with no payload that succeeds (R95); every other field as in `s`. -/
def done (s : State) (q : Word) : State :=
  { s with lastCode := .ok, rsp := s.rsp ++ [q], cmd := s.cmd.tail }

/-- The payload of the next command is on DIN: its first `n` bytes (R62). -/
def payload (s : State) (n : Nat) : List Byte := s.din.take n

/-- The 8-byte payload of the next command as a block (R62, R68). -/
def blockPayload (s : State) : Block := fit 8 (s.din.take 8)

/-- A stream's bytes cut into blocks, a short tail padded with zeros (used only on whole blocks). -/
def blocksOf : Nat → List Byte → List Block
  | 0, _ => []
  | n + 1, l => fit 8 l :: blocksOf n (l.drop 8)

/-- The bytes of a list of blocks in order (R68). -/
def joinBlocks (bs : List Block) : List Byte := (bs.map Vector.toList).flatten

/-- CBC encryption of a list of blocks under a chain value (R204). -/
def cbcBlocks (u : Fc) : Block → List Block → List Block
  | _, [] => []
  | c, x :: xs => u.encrypt (xorBytes x c) :: cbcBlocks u (u.encrypt (xorBytes x c)) xs

/-- The padded message of an ECB or CBC encrypt stream: the whole message with `pad` of its short tail (R209). -/
def paddedMessage (pad : Pad) (m : List Byte) : List Byte :=
  m.take (8 * (m.length / 8)) ++ padTail pad (m.drop (8 * (m.length / 8)))

/-- Byte `k` of the CTR keystream from the initial counter `iv`: byte `k mod 8` of `E_K(iv + k div 8)`, the counter one
64-bit integer (R205). -/
def keystreamByte (u : Fc) (iv : Block) (k : Nat) : Byte :=
  (u.encrypt (bytes (n := 8) ((bits iv : BitVec 64) + BitVec.ofNat 64 (k / 8))))[k % 8]'(Nat.mod_lt _ (by decide))

/-- The sum of the rotation amounts of rounds 1 to `r + 1` (R147). -/
def rotationsThrough (r : Fin 16) : Nat := (tableROT.toList.take (r.val + 1)).sum

/-- `k0` of `MC.SETKEY` under the instance's Hasher, byte `k` (R252). -/
def k0Byte (key : List Byte) (k : Nat) : Byte :=
  (if Config.hasher.hb < key.length then Config.hasher.digest key else key).getD k 0

/-- The tag of a message under the pads that unit MC holds (R250). -/
def tagOf (m : Mc) (msg : List Byte) : List Byte :=
  mac Config.hasher (m.ipadBytes Config.hasher) (m.opadBytes Config.hasher) msg

/-- A stream of unit MP can start: the unit idle, a key and, for a chaining mode, an IV installed (R200, R335). -/
structure CanStart (s : State) (mode : Mode) : Prop where
  idle : s.mp.phase = .idle
  keyed : s.fc.keyed = true
  iv : mode ≠ .ecb → s.mp.ivValid = true

end Sys2Proof.Claims

open Sys2Proof Sys2Proof.Machine Sys2Proof.Safety Sys2Proof.Claims

/-! ### Encoding -/

/-- Decode undoes encode on every well-formed command. -/
def Obligations.DecodeEncodeRoundTrip : Prop :=
  ∀ i : Instr, i.wellFormed = true → decode (encode i) = .ok i

/-- A word that decodes to a command is that command's only word, and the command is well formed: each word has at most one
meaning and no bit of it is dropped. -/
def Obligations.EncodeDecodeRoundTrip : Prop :=
  ∀ (w : Word) (i : Instr), decode w = .ok i → i.wellFormed = true ∧ encode i = w

/-- R100: a word is reserved exactly when its `unit`, its `op`, its `arg` or its `len` is outside the tables. -/
def Obligations.ReservedWordsExactly : Prop :=
  ∀ w : Word,
    let u := (unitField w).toNat
    let o := (opField w).toNat
    let a := (argField w).toNat
    let l := (lenField w).toNat
    (∃ e, decode w = .error e) ↔
      (5 ≤ u ∨
       (u = 0 ∧ 3 ≤ o) ∨ (u = 1 ∧ 5 ≤ o) ∨ (u = 2 ∧ 5 ≤ o) ∨ (u = 3 ∧ 3 ≤ o) ∨ (u = 4 ∧ 6 ≤ o) ∨
       (u = 0 ∧ o = 1 ∧ 6 ≤ a) ∨
       (u = 0 ∧ o = 2 ∧ a ≠ 0 ∧ a ≠ 2 ∧ a ≠ 3 ∧ a ≠ 4) ∨
       (u = 2 ∧ o = 2 ∧ (a % 4 = 3 ∨ 16 ≤ a)) ∨
       (u = 3 ∧ o = 0 ∧ 64 < a) ∨
       (u = 4 ∧ o = 3 ∧ 4 ≤ a) ∨
       ((u, o) ∉ [(0, 1), (0, 2), (2, 2), (3, 0), (4, 3)] ∧ a ≠ 0) ∨
       ((u, o) ∈ [(1, 3), (1, 4), (2, 0)] ∧ l ≠ 8) ∨
       ((u, o) ∉ [(1, 3), (1, 4), (2, 0), (1, 0), (2, 3), (3, 1), (4, 0), (4, 4)] ∧ l ≠ 0))

/-- The words that 95_test_vectors.md section 7 writes out, one or more of every unit, decode to their commands. -/
def Obligations.WrittenOutWordsDecode : Prop :=
  decode 0x00000000 = .ok .nop ∧ decode 0x01050000 = .ok (.rdsr 5) ∧ decode 0x02030000 = .ok (.abort .sb) ∧
  decode 0x10000008 = .ok (.fcSetkey 8) ∧ decode 0x14000008 = .ok .fcDecblk ∧
  decode 0x220d0000 = .ok (.mpStart .cbc .decrypt .len) ∧ decode 0x2300000a = .ok (.mpData 10) ∧
  decode 0x30400000 = .ok (.sbStart 64) ∧ decode 0x43010000 = .ok (.mcStart .check false) ∧
  decode 0x43020000 = .ok (.mcStart .tag true) ∧ decode 0x4400ffff = .ok (.mcData 65535)

/-! ### The step, responses and errors -/

/-- A step runs the decoded command: with no reset asserted and a word on CMD that decodes to `i`, the step is `exec i`. -/
def Obligations.StepRunsDecodedCommand : Prop :=
  ∀ (s : State) (w : Word) (rest : List Word) (i : Instr),
    s.rstReq = false → s.cmd = w :: rest → decode w = .ok i → step s = exec i s

/-- R102: a reserved word has its own `len` payload bytes taken and discarded, changes nothing else but `last_code`, and is
answered `IllegalCommand`. -/
def Obligations.ReservedWordAnswersIllegalCommand : Prop :=
  ∀ (s : State) (w : Word) (rest : List Word) (e : DecodeError),
    s.rstReq = false → s.cmd = w :: rest → decode w = .error e → (lenField w).toNat ≤ s.din.length →
    step s = .next (ended s (lenField w).toNat .illegalCommand 0x00000008)

/-- The core waits, changing nothing, while there is no command or the head command's payload is not all there. That a
waiting step leaves the state as it is is the model's choice (log entry 2, for R350(c) and U6). -/
def Obligations.CoreWaitsForInput : Prop :=
  (∀ s : State, s.rstReq = false → s.cmd = [] → step s = .next s) ∧
  (∀ (s : State) (w : Word) (rest : List Word), s.rstReq = false → s.cmd = w :: rest →
    s.din.length < (lenField w).toNat → step s = .next s)

/-- R95: every command ends with exactly one response word: code in bits 3 to 0, bits 15 to 4 zero, `aux` in bits 31 to 16;
`last_code` takes the code unless the command is `NOP` or `RDSR`; `aux` is 0 except for the two `HASKEY` commands (0 or 1)
and `RDSR` (the register's value). -/
def Obligations.EveryCommandAnswersOnce : Prop :=
  ∀ (i : Instr) (s : State), i.wellFormed = true → i.len.toNat ≤ s.din.length →
    ∃ t q, exec i s = .next t ∧ t.rsp = s.rsp ++ [q] ∧ t.cmd = s.cmd.tail ∧
      q.extractLsb' 4 12 = 0 ∧ (q.extractLsb' 0 4).toNat ≤ 8 ∧
      (match i with
        | .nop => t.lastCode = s.lastCode ∧ q.extractLsb' 16 16 = 0
        | .rdsr idx => t.lastCode = s.lastCode ∧ statusRegister Config.hasher s idx = some (q.extractLsb' 16 16)
        | .fcHaskey => q.extractLsb' 0 4 = t.lastCode.bits ∧ q.extractLsb' 16 16 = if s.fc.keyed then 1 else 0
        | .mcHaskey => q.extractLsb' 0 4 = t.lastCode.bits ∧ q.extractLsb' 16 16 = if s.mc.keyed then 1 else 0
        | _ => q.extractLsb' 0 4 = t.lastCode.bits ∧ q.extractLsb' 16 16 = 0)

/-- R50: every command consumes exactly its announced payload and leaves `rxbuf` zero, whatever its outcome. -/
def Obligations.PayloadConsumedAndZeroed : Prop :=
  ∀ (i : Instr) (s : State), i.len.toNat ≤ s.din.length → s.rxbuf = [] →
    ∃ t, exec i s = .next t ∧ t.rxbuf = [] ∧ t.din = s.din.drop i.len.toNat

/-- R312: a command answered with an error puts no byte on DOUT or SFX, removes no key and no IV, and changes no other unit,
but that the check path of unit MC releases the window it owned. -/
def Obligations.ErrorsReleaseNothing : Prop :=
  ∀ (i : Instr) (s : State), i.wellFormed = true → i.len.toNat ≤ s.din.length →
    ∃ t q, exec i s = .next t ∧ t.rsp = s.rsp ++ [q] ∧
      (q.extractLsb' 0 4 ≠ 0 →
        t.dout = s.dout ∧ t.sfx = s.sfx ∧ t.fc = s.fc ∧
        t.mp.iv = s.mp.iv ∧ t.mp.ivValid = s.mp.ivValid ∧
        t.mc.keyed = s.mc.keyed ∧ t.mc.ipad = s.mc.ipad ∧ t.mc.opad = s.mc.opad ∧
        (i.unit ≠ 2 → t.mp = s.mp) ∧ (i.unit ≠ 4 → t.mc = s.mc) ∧
        (i.unit ≠ 3 → ¬ (i = .mcEnd ∧ s.mc.phase = .chk) → t.sb = s.sb))

/-- R311: an error found before or outside an operation leaves every state element but `last_code` as it was; an error found
at the end of a stream leaves the unit `IDLE` with its transient state zero, keys and IV kept, and released bytes released. -/
def Obligations.ErrorsArePrecise : Prop :=
  ∀ (i : Instr) (s : State), i.wellFormed = true → i.len.toNat ≤ s.din.length → s.rxbuf = [] →
    ∃ t q, exec i s = .next t ∧ t.rsp = s.rsp ++ [q] ∧
      ((q.extractLsb' 0 4).toNat ∈ [1, 2, 7, 8] →
        t = { s with lastCode := t.lastCode, rsp := t.rsp, cmd := t.cmd, din := t.din }) ∧
      ((q.extractLsb' 0 4).toNat ∈ [3, 4] →
        t.mp = { s.mp with
          phase := .idle, prev := Vector.replicate 8 0, prevValid := false
          cur := Vector.replicate 8 0, fill := 0, chain := Vector.replicate 8 0 } ∧
        t.fc = s.fc ∧ t.sb = s.sb ∧ t.mc = s.mc ∧ t.hAcc = s.hAcc ∧ t.dout = s.dout ∧ t.sfx = s.sfx) ∧
      ((q.extractLsb' 0 4).toNat ∈ [5, 6] →
        t.sb.phase = .idle ∧ t.sb.cnt = 0 ∧ t.sb.n = s.sb.n ∧ t.sb.w = Vector.replicate 64 0 ∧
        (i = .mcEnd → t.hAcc = [] ∧
          t.mc = { s.mc with
            phase := .idle, inner := Vector.replicate 64 0, tag := Vector.replicate 64 0 }) ∧
        (i ≠ .mcEnd → t.mc = s.mc ∧ t.hAcc = s.hAcc) ∧
        t.fc = s.fc ∧ t.mp = s.mp ∧ t.dout = s.dout ∧ t.sfx = s.sfx)

/-! ### System commands and status registers -/

/-- `NOP` and `RDSR` change nothing but the response; `RDSR` of a register 0 to 5 answers its value (46_system.md section 1).
That a term `RDSR` of an index 6 to 255, which no word decodes to, is answered as its reserved word is, is the model's choice
(log entry 10, DESIGN CHOICE). -/
def Obligations.NopAndRdsrOnlyAnswer : Prop :=
  ∀ s : State,
    exec .nop s = .next { s with rsp := s.rsp ++ [0x00000000], cmd := s.cmd.tail } ∧
    (∀ idx : BitVec 8, idx.toNat ≤ 5 → ∃ v, statusRegister Config.hasher s idx = some v ∧
      exec (.rdsr idx) s = .next { s with rsp := s.rsp ++ [v ++ (0 : BitVec 16)], cmd := s.cmd.tail }) ∧
    (∀ idx : BitVec 8, 5 < idx.toNat → exec (.rdsr idx) s = .next (ended s 0 .illegalCommand 0x00000008))

/-- R55 to R59, R331: what each bit of each status register shows, the bits not listed reading 0, what the registers read
after reset, and that an index above 5 names none. -/
def Obligations.StatusRegisterFields : Prop :=
  (∀ s : State, ∃ v0 v1 v2 v3 v5,
    statusRegister Config.hasher s 0 = some v0 ∧ statusRegister Config.hasher s 1 = some v1 ∧
    statusRegister Config.hasher s 2 = some v2 ∧ statusRegister Config.hasher s 3 = some v3 ∧
    statusRegister Config.hasher s 4 = some 0x4008 ∧ statusRegister Config.hasher s 5 = some v5 ∧
    (v0.getLsbD 0 = s.fc.keyed ∧ v0.getLsbD 1 = s.mp.ivValid ∧ v0.getLsbD 2 = s.mc.keyed ∧ v0.getLsbD 3 = false ∧
      v0.extractLsb' 4 2 = s.mp.phase.bits ∧ v0.extractLsb' 6 2 = s.sb.phase.bits ∧
      v0.extractLsb' 8 2 = s.mc.phase.bits ∧ v0.extractLsb' 10 2 = 0 ∧ v0.extractLsb' 12 4 = s.lastCode.bits) ∧
    (v1.extractLsb' 0 2 = s.mp.mode.toBits ∧ v1.getLsbD 2 = s.mp.dir.toBit ∧ v1.getLsbD 3 = s.mp.pad.toBit ∧
      (v1.extractLsb' 4 4).toNat = s.mp.fill.val ∧ v1.getLsbD 8 = s.mp.prevValid ∧ v1.extractLsb' 9 7 = 0) ∧
    ((v2.extractLsb' 0 8).toNat = s.sb.n ∧ (v2.extractLsb' 8 8).toNat = s.sb.cnt) ∧
    (v3.getLsbD 0 = s.mc.path.toBit ∧ v3.getLsbD 1 = s.mc.quiet ∧ v3.extractLsb' 2 14 = 0) ∧
    ((v5.extractLsb' 0 8).toNat = Config.hasher.hd ∧ (v5.extractLsb' 8 8).toNat = Config.hasher.hb)) ∧
  statusRegister Config.hasher State.reset 0 = some 0 ∧ statusRegister Config.hasher State.reset 1 = some 0 ∧
  statusRegister Config.hasher State.reset 2 = some 0 ∧ statusRegister Config.hasher State.reset 3 = some 0 ∧
  statusRegister Config.hasher State.reset 4 = some 0x4008 ∧
  (∃ v, statusRegister Config.hasher State.reset 5 = some v ∧ v.toNat = Config.hasher.hb * 256 + Config.hasher.hd) ∧
  (∀ (s : State) (idx : BitVec 8), 5 < idx.toNat → statusRegister Config.hasher s idx = none)

/-- R282: `ABORT` zeroes the transient state of the unit it names, or of all three, keeps keys and IV, puts nothing out, and
is refused only for unit SB while unit MC owns the window. -/
def Obligations.AbortEndsTheOperation : Prop :=
  ∀ s : State,
    let mp' : Mp := { s.mp with
      phase := .idle, prev := Vector.replicate 8 0, prevValid := false
      cur := Vector.replicate 8 0, fill := 0, chain := Vector.replicate 8 0 }
    let mc' : Mc := { s.mc with phase := .idle, inner := Vector.replicate 64 0, tag := Vector.replicate 64 0 }
    let sb' : Sb := { s.sb with
      phase := .idle, cnt := 0, w := Vector.replicate 64 0, cnt_le := Nat.zero_le s.sb.n }
    let h' : List Byte := if s.mc.phase = .idle then s.hAcc else []
    exec (.abort .mp) s = .next (done { s with mp := mp' } 0) ∧
    exec (.abort .mc) s =
      .next (done { s with mc := mc', hAcc := h', sb := if s.mc.phase = .chk then sb' else s.sb } 0) ∧
    (s.sb.phase = .owned → exec (.abort .sb) s = .next (ended s 0 .illegalCommand 0x00000008)) ∧
    (s.sb.phase ≠ .owned →
      exec (.abort .sb) s = .next (done { s with sb := if s.sb.phase = .run then sb' else s.sb } 0)) ∧
    exec (.abort .all) s =
      .next (done { s with
        mp := mp', mc := mc', hAcc := h'
        sb := if s.mc.phase = .chk ∨ s.sb.phase = .run then sb' else s.sb } 0)

/-! ### Unit FC -/

/-- `FC.SETKEY` with 8 bytes while no stream runs installs the schedule of R150, round key `r` the compression of the two key
halves rotated by all the amounts up to round `r`, and leaves the working halves zero; a key of any other length is answered
`InvalidKeyLength` and an installed key stays installed (D12). -/
def Obligations.SetkeyInstallsTheSchedule : Prop :=
  (∀ s : State, s.mp.phase ≠ .run → 8 ≤ s.din.length →
    ∃ rk : Vector (BitVec 48) 16,
      exec (.fcSetkey 8) s =
        .next { (ended s 8 .ok 0) with fc := { s.fc with keyed := true, rk := rk, c := 0, d := 0 } } ∧
      ∀ r : Fin 16,
        let cd : BitVec 56 := permute (n := 64) (bits (blockPayload s)) tablePC1
        rk[r.val] = permute (rotl (cd.extractLsb' 28 28) (rotationsThrough r) ++
          rotl (cd.extractLsb' 0 28) (rotationsThrough r) : BitVec 56) tablePC2) ∧
  (∀ (s : State) (len : BitVec 16), s.mp.phase ≠ .run → len ≠ 8 → len.toNat ≤ s.din.length →
    exec (.fcSetkey len) s = .next (ended s len.toNat .invalidKeyLength 0x00000002))

/-- R149: `FC.SETKEY` and `FC.RMKEY` are refused with no state change while a stream runs; `FC.HASKEY`, `FC.ENCBLK` and
`FC.DECBLK` are accepted in every phase of every unit and write nothing the mode processor reads. -/
def Obligations.KeyCommandsRefusedDuringAStream : Prop :=
  (∀ (s : State) (len : BitVec 16), s.mp.phase = .run → len.toNat ≤ s.din.length →
    exec (.fcSetkey len) s = .next (ended s len.toNat .illegalCommand 0x00000008)) ∧
  (∀ s : State, s.mp.phase = .run → exec .fcRmkey s = .next (ended s 0 .illegalCommand 0x00000008)) ∧
  (∀ (s : State) (i : Instr), i ∈ [.fcHaskey, .fcEncblk, .fcDecblk] → i.len.toNat ≤ s.din.length →
    ∃ t, exec i s = .next t ∧ t.lastCode ≠ .illegalCommand ∧ t.mp = s.mp ∧
      t.fc.keyed = s.fc.keyed ∧ t.fc.rk = s.fc.rk)

/-- R151, R253: `FC.RMKEY` while no stream runs zeroes the schedule and all halves and leaves unit FC keyless; `MC.RMKEY`
while no operation is in progress zeroes both pads and leaves unit MC keyless; else each is refused with no state change. -/
def Obligations.RmkeyZeroesTheKeyMaterial : Prop :=
  ∀ s : State,
    (s.mp.phase ≠ .run →
      exec .fcRmkey s = .next (done { s with
        fc := { keyed := false, rk := Vector.replicate 16 0, c := 0, d := 0, l := 0, r := 0 } } 0)) ∧
    (s.mp.phase = .run → exec .fcRmkey s = .next (ended s 0 .illegalCommand 0x00000008)) ∧
    (s.mc.phase = .idle →
      exec .mcRmkey s = .next (done { s with
        mc := { s.mc with keyed := false, ipad := Vector.replicate 128 0, opad := Vector.replicate 128 0 } } 0)) ∧
    (s.mc.phase ≠ .idle → exec .mcRmkey s = .next (ended s 0 .illegalCommand 0x00000008))

/-- R152, R254: the two `HASKEY` commands report the key state and change nothing but the response. -/
def Obligations.HaskeyReportsTheKeyState : Prop :=
  ∀ s : State,
    exec .fcHaskey s = .next (done s (if s.fc.keyed then 0x00010000 else 0)) ∧
    exec .mcHaskey s = .next (done s (if s.mc.keyed then 0x00010000 else 0))

/-- R160, R161: a block command puts the enciphered or deciphered block on DOUT when keyed, in every phase of the other
units, and is answered `NoKey` with nothing on DOUT when keyless. -/
def Obligations.BlockCommandsCipherOneBlock : Prop :=
  ∀ s : State, 8 ≤ s.din.length →
    (s.fc.keyed = true →
      exec .fcEncblk s = .next { (ended s 8 .ok 0) with
        fc := { s.fc with l := 0, r := 0 }, dout := s.dout ++ (s.fc.encrypt (blockPayload s)).toList } ∧
      exec .fcDecblk s = .next { (ended s 8 .ok 0) with
        fc := { s.fc with l := 0, r := 0 }, dout := s.dout ++ (s.fc.decrypt (blockPayload s)).toList }) ∧
    (s.fc.keyed = false →
      exec .fcEncblk s = .next (ended s 8 .noKey 0x00000001) ∧
      exec .fcDecblk s = .next (ended s 8 .noKey 0x00000001))

/-- R159: `D_K` runs the same rounds under the reversed schedule, and for every schedule and every block decryption and
encryption undo each other. -/
def Obligations.DecryptionInvertsEncryption : Prop :=
  ∀ (u : Fc) (x : Block),
    u.decrypt x = (u.crypt [u.rk[15], u.rk[14], u.rk[13], u.rk[12], u.rk[11], u.rk[10], u.rk[9], u.rk[8],
      u.rk[7], u.rk[6], u.rk[5], u.rk[4], u.rk[3], u.rk[2], u.rk[1], u.rk[0]] x).1 ∧
    u.decrypt (u.encrypt x) = x ∧ u.encrypt (u.decrypt x) = x

/-- R150 corner case (a): two keys that differ only in the last bit of their bytes give the same schedule. -/
def Obligations.ParityBitsAreNeverRead : Prop :=
  ∀ (u : Fc) (key key' : Block), (∀ k : Fin 8, key[k.val] >>> 1 = key'[k.val] >>> 1) →
    u.installKey key = u.installKey key'

/-- R141: the properties of the tables. That an entry lies inside its table's input width its type says. -/
def Obligations.TableProperties : Prop :=
  tableIP.toList.Nodup ∧ tableP.toList.Nodup ∧
  (∀ v : BitVec 64, permute (permute v tableIP) tableFP = v) ∧
  (∀ i ∈ tablePC1.toList, i.val % 8 ≠ 7) ∧
  (∀ i ∈ tablePC2.toList, i.val ∉ [8, 17, 21, 24, 34, 37, 42, 53]) ∧
  (∀ i : Fin 32, i ∈ tableE.toList) ∧
  ((List.finRange 32).filter fun i => tableE.toList.count i = 2).length = 16 ∧
  (∀ i : Fin 32, tableE.toList.count i ≤ 2) ∧
  (∀ a ∈ tableROT.toList, a = 1 ∨ a = 2) ∧ tableROT.toList.sum = 28 ∧
  (∀ v : BitVec 28, tableROT.toList.foldl rotl v = v)

/-- R128: the laws of the bit primitives. -/
def Obligations.BitPrimitiveLaws : Prop :=
  (∀ (n : Nat) (v : BitVec (8 * n)), bits (bytes v) = v) ∧
  (∀ (n : Nat) (b : Vector Byte n), bytes (bits b) = b) ∧
  (∀ (n : Nat) (v : BitVec n) (t u : Vector (Fin n) n),
    (∀ j : Fin n, u[(t[j.val]).val] = j) → permute (permute v t) u = v) ∧
  (∀ (n m : Nat) (a b : BitVec n) (t : Vector (Fin n) m),
    permute (a ^^^ b) t = permute a t ^^^ permute b t) ∧
  (∀ (n : Nat) (v : BitVec n) (a b : Nat), 1 ≤ n → rotl (rotl v a) b = rotl v (a + b)) ∧
  (∀ (n : Nat) (v : BitVec n) (k : Nat) (h : 1 ≤ n),
    rotl v k = permute v (tabulate fun j : Fin n => ⟨(j.val + k) % n, Nat.mod_lt _ h⟩))

/-- R122, R126, R127: `setbit` sets the named bit and no other; `rotr` moves bits by index modulo the width and undoes `rotl`;
the shifts move bits by index and fill with zero. -/
def Obligations.BitPrimitivesByIndex : Prop :=
  (∀ (n : Nat) (b : Vector Byte n) (i : Fin (8 * n)) (x : Bool),
    bit (setbit b i x) i = x ∧ ∀ j : Fin (8 * n), j ≠ i → bit (setbit b i x) j = bit b j) ∧
  (∀ (n : Nat) (v : BitVec n) (k j : Nat), 1 ≤ n → j < n →
    rotr (rotl v k) k = v ∧
    (rotr v k).getMsbD j = v.getMsbD ((j + n - k % n) % n) ∧
    (shl v k).getMsbD j = (if j + k < n then v.getMsbD (j + k) else false) ∧
    (shr v k).getMsbD j = (if k ≤ j then v.getMsbD (j - k) else false))

/-! ### Padding -/

/-- R184, R186: under `LEN` unpadding undoes padding, accepts exactly the blocks that end in `n` bytes of value `n`, 1 to 8,
and rejects the empty sequence; under `ZERO` it is the identity on the padded tail, which is the tail only when that is
empty. -/
def Obligations.PaddingRoundTrip : Prop :=
  (∀ t : List Byte, t.length ≤ 7 →
    unpadLen (padLen t) = some t ∧
    unpadZero (padZero t) = some (padZero t) ∧ (padZero t = t ↔ t = [])) ∧
  unpadLen [] = none ∧
  (∀ blk u : List Byte, blk.length = 8 →
    (unpadLen blk = some u ↔
      ∃ n : Nat, 1 ≤ n ∧ n ≤ 8 ∧ blk = u ++ List.replicate n (BitVec.ofNat 8 n)))

/-! ### Unit MP -/

/-- R190, R191, R32: `MP.SETIV` and `MP.RMIV` install and remove the IV in every phase and touch nothing of the stream in
progress; `mp_chain` takes the IV at the start of a CBC or CTR stream, and no command but those of the stream itself and
`ABORT` writes it. -/
def Obligations.IvIsLatchedAtStart : Prop :=
  (∀ s : State, 8 ≤ s.din.length →
    exec .mpSetiv s = .next { (ended s 8 .ok 0) with mp := { s.mp with iv := blockPayload s, ivValid := true } }) ∧
  (∀ s : State, exec .mpRmiv s =
    .next (done { s with mp := { s.mp with iv := Vector.replicate 8 0, ivValid := false } } 0)) ∧
  (∀ (s : State) (mode : Mode) (dir : Dir) (pad : Pad), CanStart s mode → mode ≠ .ecb →
    ∃ t, exec (.mpStart mode dir pad) s = .next t ∧ t.mp.chain = s.mp.iv) ∧
  (∀ (i : Instr) (s : State), i ∉ [.mpEnd, .abort .mp, .abort .all] → (∀ mode dir pad, i ≠ .mpStart mode dir pad) →
    (∀ len, i ≠ .mpData len) → ∃ t, exec i s = .next t ∧ t.mp.chain = s.mp.chain)

/-- R200: `MP.START` begins a stream when the unit is idle, a key is installed and, for CBC and CTR, an IV; else it is
answered with the first of `IllegalCommand`, `NoKey`, `NoIV` and changes nothing. -/
def Obligations.MpStartBeginsAStream : Prop :=
  ∀ (s : State) (mode : Mode) (dir : Dir) (pad : Pad),
    (CanStart s mode →
      exec (.mpStart mode dir pad) s = .next (done { s with
        mp := { iv := s.mp.iv, ivValid := s.mp.ivValid, phase := .run, mode := mode, dir := dir, pad := pad
                chain := if mode = .ecb then Vector.replicate 8 0 else s.mp.iv
                prev := Vector.replicate 8 0, prevValid := false, cur := Vector.replicate 8 0, fill := 0 } } 0)) ∧
    (s.mp.phase = .run → exec (.mpStart mode dir pad) s = .next (ended s 0 .illegalCommand 0x00000008)) ∧
    (s.mp.phase ≠ .run → s.fc.keyed = false →
      exec (.mpStart mode dir pad) s = .next (ended s 0 .noKey 0x00000001)) ∧
    (s.mp.phase ≠ .run → s.fc.keyed = true → mode ≠ .ecb → s.mp.ivValid = false →
      exec (.mpStart mode dir pad) s = .next (ended s 0 .noIV 0x00000007))

/-- R201: `MP.DATA` puts the bytes of its chunk through the byte step of R202 in order, whatever it holds, and is refused
when no stream is in progress. -/
def Obligations.MpDataFeedsTheChunk : Prop :=
  ∀ (s : State) (len : BitVec 16), len.toNat ≤ s.din.length →
    (s.mp.phase = .run →
      exec (.mpData len) s = .next { (ended s len.toNat .ok 0) with
        mp := (payload s len.toNat).foldl (fun m b => (m.byteStep s.fc b).2) s.mp
        dout := s.dout ++ (s.mp.feed s.fc (payload s len.toNat)).1 }) ∧
    (s.mp.phase ≠ .run → exec (.mpData len) s = .next (ended s len.toNat .illegalCommand 0x00000008))

/-- R202: the byte step: a byte that does not fill the block is only stored; a byte that does releases the finalisation of
the held-back block, if there is one, and the new block is held back instead. -/
def Obligations.MpByteStepHoldsOneBlockBack : Prop :=
  ∀ (u : Fc) (m : Mp) (b : Byte),
    let cur := m.cur.set m.fill.val b m.fill.isLt
    (∀ h : m.fill.val + 1 < 8,
      m.byteStep u b = ([], { m with cur := cur, fill := ⟨m.fill.val + 1, h⟩ })) ∧
    (m.fill.val = 7 → m.prevValid = false →
      m.byteStep u b = ([], { m with
        prev := cur, prevValid := true, cur := Vector.replicate 8 0, fill := 0 })) ∧
    (m.fill.val = 7 → m.prevValid = true →
      m.byteStep u b = ((m.finalise u m.prev).1.toList, { m with
        chain := (m.finalise u m.prev).2.chain
        prev := cur, prevValid := true, cur := Vector.replicate 8 0, fill := 0 }))

/-- R203, R204, R205: what `finalise` returns and writes in each mode; in CTR the next counter is the block as one integer,
first byte most significant, plus 1 modulo `2^64`. -/
def Obligations.FinaliseByMode : Prop :=
  ∀ (u : Fc) (m : Mp) (x : Block),
    (m.mode = .ecb → m.dir = .encrypt → m.finalise u x = (u.encrypt x, m)) ∧
    (m.mode = .ecb → m.dir = .decrypt → m.finalise u x = (u.decrypt x, m)) ∧
    (m.mode = .cbc → m.dir = .encrypt →
      m.finalise u x = (u.encrypt (xorBytes x m.chain), { m with chain := u.encrypt (xorBytes x m.chain) })) ∧
    (m.mode = .cbc → m.dir = .decrypt →
      m.finalise u x = (xorBytes (u.decrypt x) m.chain, { m with chain := x })) ∧
    (m.mode = .ctr → ∃ c : Block,
      m.finalise u x = (xorBytes x (u.encrypt m.chain), { m with chain := c }) ∧
      (bits c).toNat = ((bits m.chain).toNat + 1) % 2 ^ 64)

/-- R206: after `MP.START` and the chunks of a stream of `n = 8 q + r` bytes the unit holds `r` bytes, holds a block back
exactly when `q ≥ 1`, and has released `8 * max(q - 1, 0)` bytes. -/
def Obligations.ReleasedSoFar : Prop :=
  ∀ (s : State) (mode : Mode) (dir : Dir) (pad : Pad) (cs : List (List Byte)),
    Ready s → CanStart s mode → Chunks cs →
    ∃ t, runSeq (⟨.mpStart mode dir pad, []⟩ :: cs.map fun c => ⟨.mpData (payloadLen c), c⟩) s = .next t ∧
      t.mp.phase = .run ∧ t.mp.fill.val = cs.flatten.length % 8 ∧
      (t.mp.prevValid = true ↔ 1 ≤ cs.flatten.length / 8) ∧
      t.dout.length = s.dout.length + 8 * (cs.flatten.length / 8 - 1)

/-- R208 to R212: `MP.END` of a running stream releases what its mode and direction give, leaves the unit `IDLE` with its
transient state zero on success and failure alike, and touches nothing else; with no stream it is refused. -/
def Obligations.MpEndEndsTheStream : Prop :=
  ∀ s : State,
    let mp' : Mp := { s.mp with
      phase := .idle, prev := Vector.replicate 8 0, prevValid := false
      cur := Vector.replicate 8 0, fill := 0, chain := Vector.replicate 8 0 }
    let tail := s.mp.cur.toList.take s.mp.fill.val
    let held := if s.mp.prevValid then (s.mp.finalise s.fc s.mp.prev).1.toList else []
    let m1 := if s.mp.prevValid then (s.mp.finalise s.fc s.mp.prev).2 else s.mp
    (s.mp.phase ≠ .run → exec .mpEnd s = .next (ended s 0 .illegalCommand 0x00000008)) ∧
    (s.mp.phase = .run → s.mp.mode ≠ .ctr → s.mp.dir = .encrypt →
      (s.mp.pad = .zero → tail = [] →
        exec .mpEnd s = .next (done { s with mp := mp', dout := s.dout ++ held } 0)) ∧
      (s.mp.pad = .len ∨ tail ≠ [] →
        exec .mpEnd s = .next (done { s with
          mp := mp'
          dout := s.dout ++ held ++ (m1.finalise s.fc (fit 8 (padTail s.mp.pad tail))).1.toList } 0))) ∧
    (s.mp.phase = .run → s.mp.mode ≠ .ctr → s.mp.dir = .decrypt →
      (s.mp.fill ≠ 0 → exec .mpEnd s = .next (ended { s with mp := mp' } 0 .invalidLength 0x00000003)) ∧
      (s.mp.fill = 0 → ∀ o, unpadBlock s.mp.pad held = some o →
        exec .mpEnd s = .next (done { s with mp := mp', dout := s.dout ++ o } 0)) ∧
      (s.mp.fill = 0 → unpadBlock s.mp.pad held = none →
        exec .mpEnd s = .next (ended { s with mp := mp' } 0 .invalidPadding 0x00000004))) ∧
    (s.mp.phase = .run → s.mp.mode = .ctr →
      exec .mpEnd s = .next (done { s with
        mp := mp'
        dout := s.dout ++ held ++ List.zipWith (· ^^^ ·) tail (s.fc.encrypt m1.chain).toList } 0))

/-- R220: what a stream puts on DOUT and its final response depend only on the concatenation of its chunks. -/
def Obligations.MpChunkIndependence : Prop :=
  ∀ (s : State) (mode : Mode) (dir : Dir) (pad : Pad) (cs cs' : List (List Byte)),
    Ready s → Chunks cs → Chunks cs' → cs.flatten = cs'.flatten →
    ∃ t t', runSeq (mpStream mode dir pad cs) s = .next t ∧ runSeq (mpStream mode dir pad cs') s = .next t' ∧
      t.dout = t'.dout ∧ t.rsp.getLast? = t'.rsp.getLast? ∧ t.mp = t'.mp

/-- An encrypt stream in any chunks puts out, in ECB, the encryption of each block of the padded message (R203, R209), and in
CBC the chained encryption of these blocks, the first chained with the IV (R204, R209). -/
def Obligations.EncryptStreamIsBlockwise : Prop :=
  ∀ (s : State) (pad : Pad) (cs : List (List Byte)), Ready s → Chunks cs →
    let blocks := blocksOf ((paddedMessage pad cs.flatten).length / 8) (paddedMessage pad cs.flatten)
    (CanStart s .ecb →
      ∃ t, runSeq (mpStream .ecb .encrypt pad cs) s = .next t ∧ t.lastCode = .ok ∧
        t.dout = s.dout ++ joinBlocks (blocks.map s.fc.encrypt)) ∧
    (CanStart s .cbc →
      ∃ t, runSeq (mpStream .cbc .encrypt pad cs) s = .next t ∧ t.lastCode = .ok ∧
        t.dout = s.dout ++ joinBlocks (cbcBlocks s.fc s.mp.iv blocks))

/-- A CTR stream in any chunks, either direction and either scheme, puts out its bytes XORed with the keystream of the
counters `IV`, `IV + 1`, ... (R205, R211). -/
def Obligations.CtrStreamIsKeystreamXor : Prop :=
  ∀ (s : State) (dir : Dir) (pad : Pad) (cs : List (List Byte)), Ready s → CanStart s .ctr → Chunks cs →
    ∃ t, runSeq (mpStream .ctr dir pad cs) s = .next t ∧ t.lastCode = .ok ∧
      t.dout = s.dout ++ cs.flatten.mapIdx fun k b => b ^^^ keystreamByte s.fc s.mp.iv k

/-- R221: decrypting the output of an encrypt stream, in any chunks, under the same key, IV, mode and scheme, ends `OK` and
gives the message back: exactly in CTR and under `LEN`, with its zero padding under `ZERO`. -/
def Obligations.MpStreamRoundTrip : Prop :=
  ∀ (s : State) (mode : Mode) (pad : Pad) (cs cs' : List (List Byte)),
    Ready s → CanStart s mode → Chunks cs → Chunks cs' →
    ∃ t, runSeq (mpStream mode .encrypt pad cs) s = .next t ∧ t.lastCode = .ok ∧
      (cs'.flatten = t.dout.drop s.dout.length →
        ∃ t', runSeq (mpStream mode .decrypt pad cs') t = .next t' ∧ t'.lastCode = .ok ∧
          t'.dout = t.dout ++
            (if mode ≠ .ctr ∧ pad = .zero
              then cs.flatten ++ List.replicate ((8 - cs.flatten.length % 8) % 8) 0
              else cs.flatten))

/-! ### Unit SB -/

/-- `SB.START n` with `n` at most 64 begins a stream on an idle unit and is refused on a busy or owned one (44_suffix.md
section 2). That a term `SB.START` of a length above 64, which no word decodes to, is answered as its reserved word is, is
the model's choice (log entry 10, DESIGN CHOICE). -/
def Obligations.SbStartBeginsAStream : Prop :=
  ∀ (s : State) (n : BitVec 8),
    (∀ h : n.toNat ≤ 64, s.sb.phase = .idle →
      exec (.sbStart n) s = .next (done { s with
        sb := { phase := .run, n := n.toNat, cnt := 0, w := Vector.replicate 64 0, n_le := h, cnt_le := Nat.zero_le _ } } 0)) ∧
    (s.sb.phase ≠ .idle → exec (.sbStart n) s = .next (ended s 0 .illegalCommand 0x00000008)) ∧
    (64 < n.toNat → exec (.sbStart n) s = .next (ended s 0 .illegalCommand 0x00000008))

/-- R230: the byte step of the window, held, passed or shifted; and after `t` bytes the window holds the last `min(t, N)` of
them in arrival order, and the first `max(t - N, 0)` have left in arrival order. -/
def Obligations.WindowHoldsTheLastBytes : Prop :=
  (∀ (u : Sb) (b : Byte),
    (∀ h : u.cnt < u.n, u.byteStep b = (none, { u with
      w := u.w.set u.cnt b (by have := u.n_le; omega), cnt := u.cnt + 1, cnt_le := h })) ∧
    (u.cnt = u.n → u.n = 0 → u.byteStep b = (some b, u)) ∧
    (u.cnt = u.n → 0 < u.n →
      (u.byteStep b).1 = some u.w[0] ∧ (u.byteStep b).2.phase = u.phase ∧
      (u.byteStep b).2.n = u.n ∧ (u.byteStep b).2.cnt = u.cnt ∧
      ∀ k : Fin 64, (u.byteStep b).2.w[k.val] =
        if h : k.val + 1 < u.n then u.w[k.val + 1]'(by have := u.n_le; omega)
        else if k.val + 1 = u.n then b else u.w[k.val])) ∧
  (∀ (u : Sb) (l : List Byte), u.cnt = 0 →
    (u.feed l).1 = l.take (l.length - u.n) ∧
    (u.feed l).2.n = u.n ∧ (u.feed l).2.phase = u.phase ∧
    (u.feed l).2.cnt = min l.length u.n ∧
    (u.feed l).2.w.toList.take (u.feed l).2.cnt = l.drop (l.length - u.n))

/-- R233: `SB.DATA` on a running stream puts the bytes that leave the window on DOUT and changes only the unit; else it is
refused. -/
def Obligations.SbDataPassesBytesThrough : Prop :=
  ∀ (s : State) (len : BitVec 16), len.toNat ≤ s.din.length →
    (s.sb.phase = .run →
      exec (.sbData len) s = .next { (ended s len.toNat .ok 0) with
        sb := (payload s len.toNat).foldl (fun u b => (u.byteStep b).2) s.sb
        dout := s.dout ++ ((s.sb.w.toList.take s.sb.cnt ++ payload s len.toNat).take (s.sb.cnt + len.toNat - s.sb.n)) }) ∧
    (s.sb.phase ≠ .run → exec (.sbData len) s = .next (ended s len.toNat .illegalCommand 0x00000008))

/-- R234: `SB.END` exposes exactly the held-back bytes on SFX, or reports `InsufficientLength` with nothing on SFX; the
window is zeroed and idle on both paths; with no stream it is refused. -/
def Obligations.SbEndExposesTheSuffix : Prop :=
  ∀ s : State,
    let sb' : Sb := { s.sb with
      phase := .idle, cnt := 0, w := Vector.replicate 64 0, cnt_le := Nat.zero_le s.sb.n }
    (s.sb.phase = .run → s.sb.cnt = s.sb.n →
      exec .sbEnd s = .next (done { s with sb := sb', sfx := s.sfx ++ s.sb.w.toList.take s.sb.n } 0)) ∧
    (s.sb.phase = .run → s.sb.cnt < s.sb.n →
      exec .sbEnd s = .next (ended { s with sb := sb' } 0 .insufficientLength 0x00000005)) ∧
    (s.sb.phase ≠ .run → exec .sbEnd s = .next (ended s 0 .illegalCommand 0x00000008))

/-- R240: the split of a stream into body and suffix depends only on its bytes, in whatever chunks they come. -/
def Obligations.SuffixSplitIndependence : Prop :=
  ∀ (s : State) (n : BitVec 8) (cs : List (List Byte)),
    Ready s → s.sb.phase = .idle → n.toNat ≤ 64 → Chunks cs →
    ∃ t, runSeq (sbStream n cs) s = .next t ∧ t.sb.phase = .idle ∧
      (n.toNat ≤ cs.flatten.length →
        t.lastCode = .ok ∧ t.dout = s.dout ++ cs.flatten.take (cs.flatten.length - n.toNat) ∧
        t.sfx = s.sfx ++ cs.flatten.drop (cs.flatten.length - n.toNat)) ∧
      (cs.flatten.length < n.toNat → t.lastCode = .insufficientLength ∧ t.dout = s.dout ∧ t.sfx = s.sfx)

/-! ### Unit MC -/

/-- `MC.SETKEY` on an idle unit stores the two pads derived from the key, or from its digest when it is longer than a block,
in the first `Hb` bytes of their storage; an empty key and a busy unit are refused (45_mac.md section 2). That the storage is
zero at and above `Hb` is the model's reading of 10_state.md section 5 (log entry 9, DEDUCED). -/
def Obligations.McSetkeyStoresThePads : Prop :=
  ∀ (s : State) (len : BitVec 16), len.toNat ≤ s.din.length →
    (s.mc.phase = .idle → len ≠ 0 →
      ∃ ipad opad : Vector Byte 128,
        exec (.mcSetkey len) s = .next { (ended s len.toNat .ok 0) with
          hAcc := if Config.hasher.hb < len.toNat then [] else s.hAcc
          mc := { s.mc with keyed := true, ipad := ipad, opad := opad } } ∧
        ∀ k : Fin 128,
          (k.val < Config.hasher.hb →
            ipad[k.val] = k0Byte (payload s len.toNat) k.val ^^^ 0x36 ∧
            opad[k.val] = k0Byte (payload s len.toNat) k.val ^^^ 0x5c) ∧
          (Config.hasher.hb ≤ k.val → ipad[k.val] = 0 ∧ opad[k.val] = 0)) ∧
    (s.mc.phase ≠ .idle → exec (.mcSetkey len) s = .next (ended s len.toNat .illegalCommand 0x00000008)) ∧
    (s.mc.phase = .idle → len = 0 → exec (.mcSetkey len) s = .next (ended s 0 .invalidKeyLength 0x00000002))

/-- R255: `MC.START` on a keyed idle unit gives the Hasher the inner pad alone and, on the check path, takes an idle window
with `N = Hd`; else it is refused, or answered `NoKey`, with no other change. -/
def Obligations.McStartBeginsAnOperation : Prop :=
  ∀ (s : State) (quiet : Bool),
    (s.mc.phase = .idle → s.mc.keyed = true →
      exec (.mcStart .tag quiet) s = .next (done { s with
        hAcc := s.mc.ipad.toList.take Config.hasher.hb
        mc := { s.mc with path := .tag, quiet := quiet, phase := .tag } } 0)) ∧
    (s.mc.phase = .idle → s.sb.phase = .idle → s.mc.keyed = true →
      exec (.mcStart .check quiet) s = .next (done { s with
        hAcc := s.mc.ipad.toList.take Config.hasher.hb
        sb := { phase := .owned, n := Config.hasher.hd, cnt := 0, w := Vector.replicate 64 0
                n_le := Config.hasher.hd_le, cnt_le := Nat.zero_le _ }
        mc := { s.mc with path := .check, quiet := quiet, phase := .chk } } 0)) ∧
    (s.mc.phase ≠ .idle → ∀ path, exec (.mcStart path quiet) s = .next (ended s 0 .illegalCommand 0x00000008)) ∧
    (s.sb.phase ≠ .idle → exec (.mcStart .check quiet) s = .next (ended s 0 .illegalCommand 0x00000008)) ∧
    (s.mc.phase = .idle → s.mc.keyed = false →
      exec (.mcStart .tag quiet) s = .next (ended s 0 .noKey 0x00000001) ∧
      (s.sb.phase = .idle → exec (.mcStart .check quiet) s = .next (ended s 0 .noKey 0x00000001)))

/-- R256, R257: `MC.DATA` gives the Hasher every byte classified as body and forwards it unless quiet: every byte on the tag
path, on the check path the bytes that leave the window; with no operation it is refused. -/
def Obligations.McDataAccumulatesTheBody : Prop :=
  ∀ (s : State) (len : BitVec 16), len.toNat ≤ s.din.length →
    (s.mc.phase = .tag →
      exec (.mcData len) s = .next { (ended s len.toNat .ok 0) with
        hAcc := s.hAcc ++ payload s len.toNat
        dout := s.dout ++ (if s.mc.quiet then [] else payload s len.toNat) }) ∧
    (s.mc.phase = .chk →
      let body := (s.sb.w.toList.take s.sb.cnt ++ payload s len.toNat).take (s.sb.cnt + len.toNat - s.sb.n)
      exec (.mcData len) s = .next { (ended s len.toNat .ok 0) with
        hAcc := s.hAcc ++ body
        dout := s.dout ++ (if s.mc.quiet then [] else body)
        sb := (payload s len.toNat).foldl (fun u b => (u.byteStep b).2) s.sb }) ∧
    (s.mc.phase = .idle → exec (.mcData len) s = .next (ended s len.toNat .illegalCommand 0x00000008))

/-- R260, R261: `MC.END` on the tag path puts the outer digest over the outer pad and the inner digest on DOUT, leaves the
Hasher reset and the unit idle with its digests zero, and keeps the key. -/
def Obligations.McEndAppendsTheTag : Prop :=
  ∀ s : State,
    (s.mc.phase = .tag →
      exec .mcEnd s = .next (done { s with
        hAcc := []
        dout := s.dout ++
          Config.hasher.digest (s.mc.opad.toList.take Config.hasher.hb ++ Config.hasher.digest s.hAcc)
        mc := { s.mc with phase := .idle, inner := Vector.replicate 64 0, tag := Vector.replicate 64 0 } } 0)) ∧
    (s.mc.phase = .idle → exec .mcEnd s = .next (ended s 0 .illegalCommand 0x00000008))

/-- R262: `MC.END` on the check path: too short a stream is `InsufficientLength`; else the answer is `OK` exactly when the
first `Hd` bytes of the window are the computed tag and `MacMismatch` otherwise; on every path nothing goes out, the window
is released and zero, the Hasher reset and the unit idle. -/
def Obligations.McEndComparesTheTag : Prop :=
  ∀ s : State, s.mc.phase = .chk →
    let t : State := { s with
      hAcc := []
      sb := { s.sb with phase := .idle, cnt := 0, w := Vector.replicate 64 0, cnt_le := Nat.zero_le s.sb.n }
      mc := { s.mc with phase := .idle, inner := Vector.replicate 64 0, tag := Vector.replicate 64 0 } }
    let tag := Config.hasher.digest (s.mc.opad.toList.take Config.hasher.hb ++ Config.hasher.digest s.hAcc)
    (s.sb.cnt < s.sb.n → exec .mcEnd s = .next (ended t 0 .insufficientLength 0x00000005)) ∧
    (s.sb.cnt = s.sb.n → s.sb.w.toList.take Config.hasher.hd = tag → exec .mcEnd s = .next (done t 0)) ∧
    (s.sb.cnt = s.sb.n → s.sb.w.toList.take Config.hasher.hd ≠ tag →
      exec .mcEnd s = .next (ended t 0 .macMismatch 0x00000006))

/-- R263: nothing after `MC.END` depends on which bytes of the suffix differed, only on whether any did: two windows that
both differ from the tag lead to one and the same state. -/
def Obligations.MismatchRevealsNoPosition : Prop :=
  ∀ (s : State) (w w' : Vector Byte 64), s.mc.phase = .chk → s.sb.cnt = s.sb.n →
    w.toList.take Config.hasher.hd ≠
      Config.hasher.digest (s.mc.opad.toList.take Config.hasher.hb ++ Config.hasher.digest s.hAcc) →
    w'.toList.take Config.hasher.hd ≠
      Config.hasher.digest (s.mc.opad.toList.take Config.hasher.hb ++ Config.hasher.digest s.hAcc) →
    ∃ t, exec .mcEnd { s with sb := { s.sb with w := w } } = .next t ∧
      exec .mcEnd { s with sb := { s.sb with w := w' } } = .next t

/-- R250, R260: a tag operation in any chunks puts out the message, unless quiet, and then `mac(ipad, opad, m)`. -/
def Obligations.TagStreamIsMac : Prop :=
  ∀ (s : State) (quiet : Bool) (cs : List (List Byte)),
    Ready s → s.mc.phase = .idle → s.mc.keyed = true → Chunks cs →
    ∃ t, runSeq (mcStream .tag quiet cs) s = .next t ∧ t.lastCode = .ok ∧ t.mc.phase = .idle ∧ t.sb = s.sb ∧
      t.dout = s.dout ++ (if quiet then [] else cs.flatten) ++ tagOf s.mc cs.flatten

/-- R262, R271, R273: the verdict of a check operation in any chunks: with at least `Hd` bytes it is `OK` exactly when the
last `Hd` bytes are the tag of those before, and else `MacMismatch`; the body is forwarded unless quiet. -/
def Obligations.CheckStreamVerdict : Prop :=
  ∀ (s : State) (quiet : Bool) (cs : List (List Byte)),
    Ready s → s.mc.phase = .idle → s.sb.phase = .idle → s.mc.keyed = true → Chunks cs →
    Config.hasher.hd ≤ cs.flatten.length →
    let body := cs.flatten.take (cs.flatten.length - Config.hasher.hd)
    let suffix := cs.flatten.drop (cs.flatten.length - Config.hasher.hd)
    ∃ t, runSeq (mcStream .check quiet cs) s = .next t ∧ t.sfx = s.sfx ∧
      t.dout = s.dout ++ (if quiet then [] else body) ∧
      t.lastCode = (if suffix = tagOf s.mc body then .ok else .macMismatch)

/-- R270: checking a tagged stream, in any chunks, gives exactly the message back and ends `OK`, for every `H`. -/
def Obligations.MacRoundTrip : Prop :=
  ∀ (s : State) (cs cs' : List (List Byte)),
    Ready s → s.mc.phase = .idle → s.sb.phase = .idle → s.mc.keyed = true → Chunks cs → Chunks cs' →
    ∃ t, runSeq (mcStream .tag false cs) s = .next t ∧ t.lastCode = .ok ∧
      t.dout = s.dout ++ cs.flatten ++ tagOf s.mc cs.flatten ∧
      (cs'.flatten = t.dout.drop s.dout.length →
        ∃ t', runSeq (mcStream .check false cs') t = .next t' ∧ t'.lastCode = .ok ∧
          t'.dout = t.dout ++ cs.flatten)

/-- R272: a check over fewer than `Hd` bytes ends `InsufficientLength` with nothing put out; a check over exactly `Hd` bytes
verifies them as the tag of the empty message. -/
def Obligations.ShortStreamsNeverMatch : Prop :=
  ∀ (s : State) (quiet : Bool) (cs : List (List Byte)),
    Ready s → s.mc.phase = .idle → s.sb.phase = .idle → s.mc.keyed = true → Chunks cs →
    ∃ t, runSeq (mcStream .check quiet cs) s = .next t ∧
      (cs.flatten.length < Config.hasher.hd → t.lastCode = .insufficientLength ∧ t.dout = s.dout ∧ t.sfx = s.sfx) ∧
      (cs.flatten.length = Config.hasher.hd →
        t.dout = s.dout ∧ t.lastCode = (if cs.flatten = tagOf s.mc [] then .ok else .macMismatch))

/-! ### Reset, invariants and whole-machine rules -/

/-- R330: the reset event gives every state element zero and leaves nothing on CMD or DIN; bytes already put out stay with
the host. That reset is taken between commands is the model's choice (log entry 3, allowed by U9). -/
def Obligations.ResetEventZeroesEverything : Prop :=
  ∀ s : State, s.rstReq = true →
    ∃ t, step s = .next t ∧
      t.fc = { keyed := false, rk := Vector.replicate 16 0, c := 0, d := 0, l := 0, r := 0 } ∧
      t.mp = { iv := Vector.replicate 8 0, ivValid := false, phase := .idle, mode := .ecb, dir := .encrypt, pad := .zero
               chain := Vector.replicate 8 0, prev := Vector.replicate 8 0, prevValid := false
               cur := Vector.replicate 8 0, fill := 0 } ∧
      t.sb = { phase := .idle, n := 0, cnt := 0, w := Vector.replicate 64 0
               n_le := Nat.zero_le 64, cnt_le := Nat.le_refl 0 } ∧
      t.mc = { keyed := false, ipad := Vector.replicate 128 0, opad := Vector.replicate 128 0, phase := .idle
               path := .tag, quiet := false, inner := Vector.replicate 64 0, tag := Vector.replicate 64 0 } ∧
      t.lastCode = .ok ∧ t.rxbuf = [] ∧ t.hAcc = [] ∧ t.cmd = [] ∧ t.din = [] ∧ t.rstReq = false ∧
      t.dout = s.dout ∧ t.sfx = s.sfx ∧ t.rsp = s.rsp

/-- The three invariants hold of the state after reset (R330). -/
def Obligations.InvariantsHoldAtReset : Prop :=
  Zeroed State.reset ∧ Buffers Config.hasher State.reset ∧ Phases Config.hasher State.reset

/-- R345: zeroing is unconditional: a step from any state with nothing left behind leaves nothing behind. The premise `Phases`
rules out states no run reaches, in which unit MC checks through a window it does not own; `StepKeepsPhases` keeps it. -/
def Obligations.StepKeepsZeroed : Prop :=
  ∀ s t : State, Phases Config.hasher s → Zeroed s → step s = .next t → Zeroed t

/-- R33, R40, R41: the buffers stay zero above their fill counts and an idle unit holds nothing, after every step.
That the pads are zero from `Hb` on is the model's reading (log entry 9, DEDUCED). The premise `Phases` is the one of `StepKeepsZeroed`. -/
def Obligations.StepKeepsBuffers : Prop :=
  ∀ s t : State, Phases Config.hasher s → Buffers Config.hasher s → step s = .next t → Buffers Config.hasher t

/-- R46, R340: after every step a running stream and a MAC operation in progress have their keys, and unit MC owns the window
exactly while it checks, with `N = Hd`. -/
def Obligations.StepKeepsPhases : Prop :=
  ∀ s t : State, Phases Config.hasher s → step s = .next t → Phases Config.hasher t

/-- R340: while a stream runs no step changes the round keys but reset, and while a MAC operation is in progress no step
changes the pads but reset. -/
def Obligations.KeysAreConstantDuringOperations : Prop :=
  ∀ s t : State, s.rstReq = false → step s = .next t →
    (s.mp.phase = .run → t.fc.rk = s.fc.rk ∧ t.fc.keyed = s.fc.keyed) ∧
    (s.mc.phase ≠ .idle → t.mc.ipad = s.mc.ipad ∧ t.mc.opad = s.mc.opad ∧ t.mc.keyed = s.mc.keyed)

/-- R351, R21: no command's port events depend on the values of key or data bytes: two states with one control part end in
states with one control part (the same counts on every port, the same response words), but for the two documented ends. -/
def Obligations.PortEventsAreDataIndependent : Prop :=
  ∀ (i : Instr) (s s' : State), shape s = shape s' → dataDependentEnd i s = false →
    ∃ t t', exec i s = .next t ∧ exec i s' = .next t' ∧ shape t = shape t'

/-- R341: a command of one unit changes no element of another, but for the window under unit MC's ownership. -/
def Obligations.UnitsShareNothing : Prop :=
  ∀ (i : Instr) (s : State), ∃ t, exec i s = .next t ∧
    (i.unit = 1 → t.mp = s.mp ∧ t.sb = s.sb ∧ t.mc = s.mc ∧ t.hAcc = s.hAcc ∧ t.sfx = s.sfx) ∧
    (i.unit = 2 → t.fc = s.fc ∧ t.sb = s.sb ∧ t.mc = s.mc ∧ t.hAcc = s.hAcc ∧ t.sfx = s.sfx) ∧
    (i.unit = 3 → t.fc = s.fc ∧ t.mp = s.mp ∧ t.mc = s.mc ∧ t.hAcc = s.hAcc) ∧
    (i.unit = 4 → t.fc = s.fc ∧ t.mp = s.mp ∧ t.sfx = s.sfx ∧
      (s.mc.phase ≠ .chk → (∀ quiet, i ≠ .mcStart .check quiet) → t.sb = s.sb))

/-- R293: `ADEC` undoes `AENC` under the same keys, IV, mode and scheme, in one pass or in two and in any chunks: it releases
the plaintext in CTR and under `LEN`, and the zero-padded plaintext under `ZERO` in ECB and CBC. A chunk of more than 65535
bytes is split as R107 says, into the pieces of log entry 14; what is released does not depend on them. -/
def Obligations.AuthenticatedRoundTrip : Prop :=
  ∀ (s : State) (mode : Mode) (pad : Pad) (cs cs' : List (List Byte)),
    Ready s → CanStart s mode → s.mc.phase = .idle → s.mc.keyed = true → s.sb.phase = .idle →
    let expected :=
      if mode ≠ .ctr ∧ pad = .zero
        then cs.flatten ++ List.replicate ((8 - cs.flatten.length % 8) % 8) 0
        else cs.flatten
    ∃ tagged t, aenc mode pad cs s = some (tagged, t) ∧
      (∃ u, adecTwoPass mode pad tagged t = some (expected, u)) ∧
      (cs'.flatten = tagged → ∃ u, adecOnePass mode pad cs' t = some (expected, u))
end

