-- ==== Sys2Proof/Laws/BitPerm.lean ====
section
/-! SUPPORT. What the bit primitives and the operand forms do, index by index (40_bitperm.md R121, R123, R125; 00_scope.md
R8 to R10). Later proofs cite these and do not unfold the folds. -/

namespace Sys2Proof.Machine

/-- Appending a bit below a number: bit 0 is the new bit, the others move up by one. -/
theorem testBit_two_mul_add_toNat (acc : Nat) (b : Bool) (k : Nat) :
    (2 * acc + b.toNat).testBit k = if k = 0 then b else acc.testBit (k - 1) := by
  rw [show 2 * acc + b.toNat = Nat.bit b acc by cases b <;> simp [Nat.bit]]
  cases k with
  | zero => simp
  | succ k => simp [Nat.testBit_bit_succ]

/-- The number a list of bits spells, first bit most significant, over the bits already in `acc`. -/
theorem testBit_foldl_bits {α : Type} (f : α → Bool) (l : List α) (acc k : Nat) :
    (l.foldl (fun a i => 2 * a + (f i).toNat) acc).testBit k =
      if h : k < l.length then f (l[l.length - 1 - k]'(by omega)) else acc.testBit (k - l.length) := by
  induction l generalizing acc with
  | nil => simp
  | cons x xs ih =>
    rw [List.foldl_cons, ih]
    by_cases h : k < xs.length
    · have h' : k < (x :: xs).length := by simp; omega
      have e : (x :: xs).length - 1 - k = (xs.length - 1 - k) + 1 := by simp; omega
      rw [dif_pos h, dif_pos h']
      simp only [e, List.getElem_cons_succ]
    · rw [dif_neg h, testBit_two_mul_add_toNat]
      by_cases hk : k = xs.length
      · subst hk
        simp
      · have h' : ¬ k < (x :: xs).length := by simp; omega
        rw [dif_neg h', if_neg (by omega)]
        congr 1

/-- `permute`: output bit `j` is input bit `t[j]` (R123). -/
theorem getMsbD_permute {n m : Nat} (v : BitVec n) (t : Vector (Fin n) m) (j : Nat) (hj : j < m) :
    (permute v t).getMsbD j = v.getMsbD (t[j]).val := by
  have hlen : t.toList.length = m := by simp
  rw [BitVec.getMsbD, permute, BitVec.getLsbD_ofNat, testBit_foldl_bits (fun i : Fin n => v.getMsbD i.val)]
  have h1 : m - 1 - j < m := by omega
  have h2 : t.toList.length - 1 - (m - 1 - j) = j := by omega
  rw [dif_pos (by omega)]
  simp only [h2, hj, h1, decide_true, Bool.true_and, Vector.getElem_toList]

/-- `rotl`: output bit `j` is input bit `(j + k) mod n` (R125). -/
theorem getMsbD_rotl {n : Nat} (v : BitVec n) (k j : Nat) (hj : j < n) :
    (rotl v k).getMsbD j = v.getMsbD ((j + k) % n) := by
  rw [rotl, BitVec.getMsbD_rotateLeft]
  simp only [hj, decide_true, Bool.true_and, Nat.add_comm]

/-- Two bit vectors agree when they agree bit by bit in buffer numbering (R8). -/
theorem eq_of_getMsbD {n : Nat} {a b : BitVec n} (h : ∀ j, j < n → a.getMsbD j = b.getMsbD j) : a = b :=
  BitVec.eq_of_getMsbD_eq fun i hi => h i hi

/-- Element `k` of a tabulated buffer. -/
@[simp] theorem getElem_tabulate {α : Type} {n : Nat} (f : Fin n → α) (k : Nat) (hk : k < n) :
    (tabulate f)[k] = f ⟨k, hk⟩ := by
  simp [tabulate]

/-- Byte `k` of the exclusive or (R9). -/
@[simp] theorem getElem_xorBytes {n : Nat} (a b : Vector Byte n) (k : Nat) (hk : k < n) :
    (xorBytes a b)[k] = a[k] ^^^ b[k] := by
  simp [xorBytes]

/-- Xor is its own inverse (R9). -/
@[simp] theorem xorBytes_xorBytes {n : Nat} (a b : Vector Byte n) : xorBytes (xorBytes a b) b = a := by
  ext k hk
  simp

/-- The number a list of bytes spells, first byte most significant, over the bits already in `acc`. -/
theorem testBit_foldl_bytes (l : List Byte) (acc k : Nat) :
    (l.foldl (fun a x => 256 * a + x.toNat) acc).testBit k =
      if k < 8 * l.length then (l.getD (l.length - 1 - k / 8) 0).getLsbD (k % 8) else acc.testBit (k - 8 * l.length) := by
  induction l generalizing acc with
  | nil => simp
  | cons x xs ih =>
    rw [List.foldl_cons, ih]
    by_cases h : k < 8 * xs.length
    · have e : (x :: xs).length - 1 - k / 8 = (xs.length - 1 - k / 8) + 1 := by simp; omega
      rw [if_pos h, if_pos (by simp; omega), e, List.getD_cons_succ]
    · have hx : (256 * acc + x.toNat).testBit (k - 8 * xs.length) =
          if k - 8 * xs.length < 8 then x.toNat.testBit (k - 8 * xs.length) else acc.testBit (k - 8 * xs.length - 8) :=
        Nat.testBit_two_pow_mul_add acc (i := 8) x.isLt _
      rw [if_neg h, hx]
      by_cases hk : k < 8 * (xs.length + 1)
      · have e : xs.length - k / 8 = 0 := by omega
        have e' : k - 8 * xs.length = k % 8 := by omega
        rw [if_pos (by omega), if_pos (by simpa using hk)]
        simp [e, e', BitVec.getLsbD]
      · rw [if_neg (by omega), if_neg (by simpa using hk)]
        congr 1

/-- `bits`: bit `i` of the vector is bit `i` of the buffer (R10). -/
theorem getMsbD_bits {n : Nat} (b : Vector Byte n) (i : Fin (8 * n)) : (bits b).getMsbD i.val = bit b i := by
  have hi := i.isLt
  have hlen : b.toList.length = n := by simp
  rw [BitVec.getMsbD, bits, BitVec.getLsbD_ofNat, testBit_foldl_bytes, hlen, if_pos (by omega), bit]
  have e1 : n - 1 - (8 * n - 1 - i.val) / 8 = i.val / 8 := by omega
  have e2 : (8 * n - 1 - i.val) % 8 = 7 - i.val % 8 := by omega
  have e3 : 8 * n - 1 - i.val < 8 * n := by omega
  have e4 : i.val / 8 < n := by omega
  simp [e1, e2, e3, e4, hi, List.getD_eq_getElem?_getD]

/-- `bytes`: byte `k` is the eight bits from bit `8 k` (R10). -/
@[simp] theorem getElem_bytes {n : Nat} (v : BitVec (8 * n)) (k : Nat) (hk : k < n) :
    (bytes v)[k] = v.extractLsb' (8 * (n - 1 - k)) 8 := by
  simp [bytes]

/-- Byte `k` of a byte sequence in a storage of `n` bytes. -/
@[simp] theorem getElem_fit (n : Nat) (l : List Byte) (k : Nat) (hk : k < n) : (fit n l)[k] = l.getD k 0 := by
  simp [fit]

/-- Byte `k` of a zero buffer. -/
@[simp] theorem getElem_zeroBytes (n k : Nat) (hk : k < n) : (zeroBytes n)[k] = 0 := by
  simp [zeroBytes]

/-- The used part of a storage is the byte sequence put into it. -/
theorem firstBytes_fit {n : Nat} {l : List Byte} (h : l.length ≤ n) : firstBytes (fit n l) l.length = l := by
  apply List.ext_getElem
  · simp [firstBytes, h]
  · intro k h1 h2
    simp only [firstBytes, List.getElem_take, Vector.getElem_toList, getElem_fit]
    simp [List.getD_eq_getElem?_getD, h2]

/-- A payload of exactly the buffer's length is the buffer's content. -/
theorem toList_fit {n : Nat} {l : List Byte} (h : l.length = n) : (fit n l).toList = l := by
  subst h
  have h := firstBytes_fit (le_refl l.length)
  rwa [firstBytes, List.take_of_length_le (by simp)] at h

/-- A buffer read out and stored again is the buffer. -/
@[simp] theorem fit_toList {n : Nat} (b : Vector Byte n) : fit n b.toList = b := by
  ext k hk
  simp [hk]

end Sys2Proof.Machine
end

