-- ==== Sys2Proof/Laws/Feistel.lean ====
section
/-! SUPPORT. Which registers of unit FC the cipher's operations write (41_feistel.md R150, R156, R157). -/

namespace Sys2Proof.Machine

/-- A round writes only `fc_l` and `fc_r` (R156). -/
theorem Fc.round_keeps (u : Fc) (k : BitVec 48) (last : Bool) :
    u.round k last = { u with l := (u.round k last).l, r := (u.round k last).r } := by
  unfold Fc.round
  cases last <;> rfl

/-- What a round does to the halves (R156). -/
theorem Fc.round_halves (u : Fc) (k : BitVec 48) :
    (u.round k false).l = u.r ∧ (u.round k false).r = u.l ^^^ roundFunction u.r k ∧
      (u.round k true).l = u.l ^^^ roundFunction u.r k ∧ (u.round k true).r = u.r := ⟨rfl, rfl, rfl, rfl⟩

/-- The rounds write only `fc_l` and `fc_r` (R157). -/
theorem Fc.rounds_keeps (u : Fc) (ks : List (BitVec 48)) :
    u.rounds ks = { u with l := (u.rounds ks).l, r := (u.rounds ks).r } := by
  induction ks generalizing u with
  | nil => rfl
  | cons k ks ih =>
    cases ks with
    | nil => exact Fc.round_keeps u k true
    | cons k' ks => exact ih (u.round k false)

/-- The block transform leaves the unit as it found it but for `fc_l` and `fc_r`, which are zero (R157). -/
theorem Fc.crypt_snd (u : Fc) (ks : List (BitVec 48)) (x : Block) : (u.crypt ks x).2 = { u with l := 0, r := 0 } := by
  unfold Fc.crypt
  dsimp only
  rw [Fc.rounds_keeps]
  rfl

/-- A round of the key schedule writes the halves and its own round key (R150). -/
theorem Fc.scheduleRound_keeps (u : Fc) (r : Fin 16) :
    (u.scheduleRound r).keyed = u.keyed ∧ (u.scheduleRound r).l = u.l ∧ (u.scheduleRound r).r = u.r := ⟨rfl, rfl, rfl⟩

/-- Deriving a schedule leaves `fc_l` and `fc_r` alone (R150). -/
theorem Fc.installKey_keeps (u : Fc) (key : Block) :
    (u.installKey key).l = u.l ∧ (u.installKey key).r = u.r := by
  have h (rs : List (Fin 16)) (v : Fc) : (rs.foldl Fc.scheduleRound v).l = v.l ∧ (rs.foldl Fc.scheduleRound v).r = v.r := by
    induction rs generalizing v with
    | nil => exact ⟨rfl, rfl⟩
    | cons r rs ih => exact ih (v.scheduleRound r)
  unfold Fc.installKey
  dsimp only
  rw [(h _ _).1, (h _ _).2]
  exact ⟨rfl, rfl⟩

end Sys2Proof.Machine
end

