-- ==== Sys2Proof/Laws/State.lean ====
section
/-! SUPPORT. One lemma per field per state update, each true by unfolding the update, so that no later proof unfolds one. -/

namespace Sys2Proof.Machine

variable (s : State)

/-! ### State.zeroRx -/

@[simp] theorem State.zeroRx_fc : (s.zeroRx).fc = s.fc := rfl
@[simp] theorem State.zeroRx_mp : (s.zeroRx).mp = s.mp := rfl
@[simp] theorem State.zeroRx_sb : (s.zeroRx).sb = s.sb := rfl
@[simp] theorem State.zeroRx_mc : (s.zeroRx).mc = s.mc := rfl
@[simp] theorem State.zeroRx_lastCode : (s.zeroRx).lastCode = s.lastCode := rfl
@[simp] theorem State.zeroRx_rxbuf : (s.zeroRx).rxbuf = [] := rfl
@[simp] theorem State.zeroRx_hAcc : (s.zeroRx).hAcc = s.hAcc := rfl
@[simp] theorem State.zeroRx_cmd : (s.zeroRx).cmd = s.cmd := rfl
@[simp] theorem State.zeroRx_din : (s.zeroRx).din = s.din := rfl
@[simp] theorem State.zeroRx_dout : (s.zeroRx).dout = s.dout := rfl
@[simp] theorem State.zeroRx_sfx : (s.zeroRx).sfx = s.sfx := rfl
@[simp] theorem State.zeroRx_rsp : (s.zeroRx).rsp = s.rsp := rfl
@[simp] theorem State.zeroRx_rstReq : (s.zeroRx).rstReq = s.rstReq := rfl

/-! ### State.out -/

@[simp] theorem State.out_fc (b : List Byte) : (s.out b).fc = s.fc := rfl
@[simp] theorem State.out_mp (b : List Byte) : (s.out b).mp = s.mp := rfl
@[simp] theorem State.out_sb (b : List Byte) : (s.out b).sb = s.sb := rfl
@[simp] theorem State.out_mc (b : List Byte) : (s.out b).mc = s.mc := rfl
@[simp] theorem State.out_lastCode (b : List Byte) : (s.out b).lastCode = s.lastCode := rfl
@[simp] theorem State.out_rxbuf (b : List Byte) : (s.out b).rxbuf = s.rxbuf := rfl
@[simp] theorem State.out_hAcc (b : List Byte) : (s.out b).hAcc = s.hAcc := rfl
@[simp] theorem State.out_cmd (b : List Byte) : (s.out b).cmd = s.cmd := rfl
@[simp] theorem State.out_din (b : List Byte) : (s.out b).din = s.din := rfl
@[simp] theorem State.out_dout (b : List Byte) : (s.out b).dout = s.dout ++ b := rfl
@[simp] theorem State.out_sfx (b : List Byte) : (s.out b).sfx = s.sfx := rfl
@[simp] theorem State.out_rsp (b : List Byte) : (s.out b).rsp = s.rsp := rfl
@[simp] theorem State.out_rstReq (b : List Byte) : (s.out b).rstReq = s.rstReq := rfl

/-! ### State.sfxOut -/

@[simp] theorem State.sfxOut_fc (b : List Byte) : (s.sfxOut b).fc = s.fc := rfl
@[simp] theorem State.sfxOut_mp (b : List Byte) : (s.sfxOut b).mp = s.mp := rfl
@[simp] theorem State.sfxOut_sb (b : List Byte) : (s.sfxOut b).sb = s.sb := rfl
@[simp] theorem State.sfxOut_mc (b : List Byte) : (s.sfxOut b).mc = s.mc := rfl
@[simp] theorem State.sfxOut_lastCode (b : List Byte) : (s.sfxOut b).lastCode = s.lastCode := rfl
@[simp] theorem State.sfxOut_rxbuf (b : List Byte) : (s.sfxOut b).rxbuf = s.rxbuf := rfl
@[simp] theorem State.sfxOut_hAcc (b : List Byte) : (s.sfxOut b).hAcc = s.hAcc := rfl
@[simp] theorem State.sfxOut_cmd (b : List Byte) : (s.sfxOut b).cmd = s.cmd := rfl
@[simp] theorem State.sfxOut_din (b : List Byte) : (s.sfxOut b).din = s.din := rfl
@[simp] theorem State.sfxOut_dout (b : List Byte) : (s.sfxOut b).dout = s.dout := rfl
@[simp] theorem State.sfxOut_sfx (b : List Byte) : (s.sfxOut b).sfx = s.sfx ++ b := rfl
@[simp] theorem State.sfxOut_rsp (b : List Byte) : (s.sfxOut b).rsp = s.rsp := rfl
@[simp] theorem State.sfxOut_rstReq (b : List Byte) : (s.sfxOut b).rstReq = s.rstReq := rfl

/-! ### State.answer -/

@[simp] theorem State.answer_fc (c : Code) (aux : BitVec 16) : (s.answer c aux).fc = s.fc := rfl
@[simp] theorem State.answer_mp (c : Code) (aux : BitVec 16) : (s.answer c aux).mp = s.mp := rfl
@[simp] theorem State.answer_sb (c : Code) (aux : BitVec 16) : (s.answer c aux).sb = s.sb := rfl
@[simp] theorem State.answer_mc (c : Code) (aux : BitVec 16) : (s.answer c aux).mc = s.mc := rfl
@[simp] theorem State.answer_lastCode (c : Code) (aux : BitVec 16) : (s.answer c aux).lastCode = s.lastCode := rfl
@[simp] theorem State.answer_rxbuf (c : Code) (aux : BitVec 16) : (s.answer c aux).rxbuf = s.rxbuf := rfl
@[simp] theorem State.answer_hAcc (c : Code) (aux : BitVec 16) : (s.answer c aux).hAcc = s.hAcc := rfl
@[simp] theorem State.answer_cmd (c : Code) (aux : BitVec 16) : (s.answer c aux).cmd = s.cmd.tail := rfl
@[simp] theorem State.answer_din (c : Code) (aux : BitVec 16) : (s.answer c aux).din = s.din := rfl
@[simp] theorem State.answer_dout (c : Code) (aux : BitVec 16) : (s.answer c aux).dout = s.dout := rfl
@[simp] theorem State.answer_sfx (c : Code) (aux : BitVec 16) : (s.answer c aux).sfx = s.sfx := rfl
@[simp] theorem State.answer_rsp (c : Code) (aux : BitVec 16) : (s.answer c aux).rsp = s.rsp ++ [responseWord c aux] := rfl
@[simp] theorem State.answer_rstReq (c : Code) (aux : BitVec 16) : (s.answer c aux).rstReq = s.rstReq := rfl

/-! ### State.respond -/

@[simp] theorem State.respond_fc (c : Code) (aux : BitVec 16) : (s.respond c aux).fc = s.fc := rfl
@[simp] theorem State.respond_mp (c : Code) (aux : BitVec 16) : (s.respond c aux).mp = s.mp := rfl
@[simp] theorem State.respond_sb (c : Code) (aux : BitVec 16) : (s.respond c aux).sb = s.sb := rfl
@[simp] theorem State.respond_mc (c : Code) (aux : BitVec 16) : (s.respond c aux).mc = s.mc := rfl
@[simp] theorem State.respond_lastCode (c : Code) (aux : BitVec 16) : (s.respond c aux).lastCode = c := rfl
@[simp] theorem State.respond_rxbuf (c : Code) (aux : BitVec 16) : (s.respond c aux).rxbuf = s.rxbuf := rfl
@[simp] theorem State.respond_hAcc (c : Code) (aux : BitVec 16) : (s.respond c aux).hAcc = s.hAcc := rfl
@[simp] theorem State.respond_cmd (c : Code) (aux : BitVec 16) : (s.respond c aux).cmd = s.cmd.tail := rfl
@[simp] theorem State.respond_din (c : Code) (aux : BitVec 16) : (s.respond c aux).din = s.din := rfl
@[simp] theorem State.respond_dout (c : Code) (aux : BitVec 16) : (s.respond c aux).dout = s.dout := rfl
@[simp] theorem State.respond_sfx (c : Code) (aux : BitVec 16) : (s.respond c aux).sfx = s.sfx := rfl
@[simp] theorem State.respond_rsp (c : Code) (aux : BitVec 16) : (s.respond c aux).rsp = s.rsp ++ [responseWord c aux] := rfl
@[simp] theorem State.respond_rstReq (c : Code) (aux : BitVec 16) : (s.respond c aux).rstReq = s.rstReq := rfl

/-! ### State.fail -/

@[simp] theorem State.fail_fc (c : Code) : (s.fail c).fc = s.fc := rfl
@[simp] theorem State.fail_mp (c : Code) : (s.fail c).mp = s.mp := rfl
@[simp] theorem State.fail_sb (c : Code) : (s.fail c).sb = s.sb := rfl
@[simp] theorem State.fail_mc (c : Code) : (s.fail c).mc = s.mc := rfl
@[simp] theorem State.fail_lastCode (c : Code) : (s.fail c).lastCode = c := rfl
@[simp] theorem State.fail_rxbuf (c : Code) : (s.fail c).rxbuf = [] := rfl
@[simp] theorem State.fail_hAcc (c : Code) : (s.fail c).hAcc = s.hAcc := rfl
@[simp] theorem State.fail_cmd (c : Code) : (s.fail c).cmd = s.cmd.tail := rfl
@[simp] theorem State.fail_din (c : Code) : (s.fail c).din = s.din := rfl
@[simp] theorem State.fail_dout (c : Code) : (s.fail c).dout = s.dout := rfl
@[simp] theorem State.fail_sfx (c : Code) : (s.fail c).sfx = s.sfx := rfl
@[simp] theorem State.fail_rsp (c : Code) : (s.fail c).rsp = s.rsp ++ [responseWord c 0] := rfl
@[simp] theorem State.fail_rstReq (c : Code) : (s.fail c).rstReq = s.rstReq := rfl

/-! ### State.finish -/

@[simp] theorem State.finish_fc : (s.finish).fc = s.fc := rfl
@[simp] theorem State.finish_mp : (s.finish).mp = s.mp := rfl
@[simp] theorem State.finish_sb : (s.finish).sb = s.sb := rfl
@[simp] theorem State.finish_mc : (s.finish).mc = s.mc := rfl
@[simp] theorem State.finish_lastCode : (s.finish).lastCode = .ok := rfl
@[simp] theorem State.finish_rxbuf : (s.finish).rxbuf = [] := rfl
@[simp] theorem State.finish_hAcc : (s.finish).hAcc = s.hAcc := rfl
@[simp] theorem State.finish_cmd : (s.finish).cmd = s.cmd.tail := rfl
@[simp] theorem State.finish_din : (s.finish).din = s.din := rfl
@[simp] theorem State.finish_dout : (s.finish).dout = s.dout := rfl
@[simp] theorem State.finish_sfx : (s.finish).sfx = s.sfx := rfl
@[simp] theorem State.finish_rsp : (s.finish).rsp = s.rsp ++ [responseWord .ok 0] := rfl
@[simp] theorem State.finish_rstReq : (s.finish).rstReq = s.rstReq := rfl

/-! ### State.hReset -/

@[simp] theorem State.hReset_fc : (s.hReset).fc = s.fc := rfl
@[simp] theorem State.hReset_mp : (s.hReset).mp = s.mp := rfl
@[simp] theorem State.hReset_sb : (s.hReset).sb = s.sb := rfl
@[simp] theorem State.hReset_mc : (s.hReset).mc = s.mc := rfl
@[simp] theorem State.hReset_lastCode : (s.hReset).lastCode = s.lastCode := rfl
@[simp] theorem State.hReset_rxbuf : (s.hReset).rxbuf = s.rxbuf := rfl
@[simp] theorem State.hReset_hAcc : (s.hReset).hAcc = [] := rfl
@[simp] theorem State.hReset_cmd : (s.hReset).cmd = s.cmd := rfl
@[simp] theorem State.hReset_din : (s.hReset).din = s.din := rfl
@[simp] theorem State.hReset_dout : (s.hReset).dout = s.dout := rfl
@[simp] theorem State.hReset_sfx : (s.hReset).sfx = s.sfx := rfl
@[simp] theorem State.hReset_rsp : (s.hReset).rsp = s.rsp := rfl
@[simp] theorem State.hReset_rstReq : (s.hReset).rstReq = s.rstReq := rfl

/-! ### State.hAdd -/

@[simp] theorem State.hAdd_fc (b : List Byte) : (s.hAdd b).fc = s.fc := rfl
@[simp] theorem State.hAdd_mp (b : List Byte) : (s.hAdd b).mp = s.mp := rfl
@[simp] theorem State.hAdd_sb (b : List Byte) : (s.hAdd b).sb = s.sb := rfl
@[simp] theorem State.hAdd_mc (b : List Byte) : (s.hAdd b).mc = s.mc := rfl
@[simp] theorem State.hAdd_lastCode (b : List Byte) : (s.hAdd b).lastCode = s.lastCode := rfl
@[simp] theorem State.hAdd_rxbuf (b : List Byte) : (s.hAdd b).rxbuf = s.rxbuf := rfl
@[simp] theorem State.hAdd_hAcc (b : List Byte) : (s.hAdd b).hAcc = s.hAcc ++ b := rfl
@[simp] theorem State.hAdd_cmd (b : List Byte) : (s.hAdd b).cmd = s.cmd := rfl
@[simp] theorem State.hAdd_din (b : List Byte) : (s.hAdd b).din = s.din := rfl
@[simp] theorem State.hAdd_dout (b : List Byte) : (s.hAdd b).dout = s.dout := rfl
@[simp] theorem State.hAdd_sfx (b : List Byte) : (s.hAdd b).sfx = s.sfx := rfl
@[simp] theorem State.hAdd_rsp (b : List Byte) : (s.hAdd b).rsp = s.rsp := rfl
@[simp] theorem State.hAdd_rstReq (b : List Byte) : (s.hAdd b).rstReq = s.rstReq := rfl

/-! ### State.abortMp -/

@[simp] theorem State.abortMp_fc : (s.abortMp).fc = s.fc := rfl
@[simp] theorem State.abortMp_mp : (s.abortMp).mp = s.mp.clear := rfl
@[simp] theorem State.abortMp_sb : (s.abortMp).sb = s.sb := rfl
@[simp] theorem State.abortMp_mc : (s.abortMp).mc = s.mc := rfl
@[simp] theorem State.abortMp_lastCode : (s.abortMp).lastCode = s.lastCode := rfl
@[simp] theorem State.abortMp_rxbuf : (s.abortMp).rxbuf = s.rxbuf := rfl
@[simp] theorem State.abortMp_hAcc : (s.abortMp).hAcc = s.hAcc := rfl
@[simp] theorem State.abortMp_cmd : (s.abortMp).cmd = s.cmd := rfl
@[simp] theorem State.abortMp_din : (s.abortMp).din = s.din := rfl
@[simp] theorem State.abortMp_dout : (s.abortMp).dout = s.dout := rfl
@[simp] theorem State.abortMp_sfx : (s.abortMp).sfx = s.sfx := rfl
@[simp] theorem State.abortMp_rsp : (s.abortMp).rsp = s.rsp := rfl
@[simp] theorem State.abortMp_rstReq : (s.abortMp).rstReq = s.rstReq := rfl

/-! ### State.resetEvent -/

@[simp] theorem State.resetEvent_fc : (s.resetEvent).fc = Fc.reset := rfl
@[simp] theorem State.resetEvent_mp : (s.resetEvent).mp = Mp.reset := rfl
@[simp] theorem State.resetEvent_sb : (s.resetEvent).sb = Sb.reset := rfl
@[simp] theorem State.resetEvent_mc : (s.resetEvent).mc = Mc.reset := rfl
@[simp] theorem State.resetEvent_lastCode : (s.resetEvent).lastCode = .ok := rfl
@[simp] theorem State.resetEvent_rxbuf : (s.resetEvent).rxbuf = [] := rfl
@[simp] theorem State.resetEvent_hAcc : (s.resetEvent).hAcc = [] := rfl
@[simp] theorem State.resetEvent_cmd : (s.resetEvent).cmd = [] := rfl
@[simp] theorem State.resetEvent_din : (s.resetEvent).din = [] := rfl
@[simp] theorem State.resetEvent_dout : (s.resetEvent).dout = s.dout := rfl
@[simp] theorem State.resetEvent_sfx : (s.resetEvent).sfx = s.sfx := rfl
@[simp] theorem State.resetEvent_rsp : (s.resetEvent).rsp = s.rsp := rfl
@[simp] theorem State.resetEvent_rstReq : (s.resetEvent).rstReq = false := rfl

/-! ### Mp.clear -/

@[simp] theorem Mp.clear_iv (m : Mp) : (m.clear).iv = m.iv := rfl
@[simp] theorem Mp.clear_ivValid (m : Mp) : (m.clear).ivValid = m.ivValid := rfl
@[simp] theorem Mp.clear_phase (m : Mp) : (m.clear).phase = .idle := rfl
@[simp] theorem Mp.clear_mode (m : Mp) : (m.clear).mode = m.mode := rfl
@[simp] theorem Mp.clear_dir (m : Mp) : (m.clear).dir = m.dir := rfl
@[simp] theorem Mp.clear_pad (m : Mp) : (m.clear).pad = m.pad := rfl
@[simp] theorem Mp.clear_chain (m : Mp) : (m.clear).chain = zeroBytes 8 := rfl
@[simp] theorem Mp.clear_prev (m : Mp) : (m.clear).prev = zeroBytes 8 := rfl
@[simp] theorem Mp.clear_prevValid (m : Mp) : (m.clear).prevValid = false := rfl
@[simp] theorem Mp.clear_cur (m : Mp) : (m.clear).cur = zeroBytes 8 := rfl
@[simp] theorem Mp.clear_fill (m : Mp) : (m.clear).fill = 0 := rfl

/-! ### Mp.begin -/

@[simp] theorem Mp.begin_iv (m : Mp) (mode : Mode) (dir : Dir) (pad : Pad) : (m.begin mode dir pad).iv = m.iv := rfl
@[simp] theorem Mp.begin_ivValid (m : Mp) (mode : Mode) (dir : Dir) (pad : Pad) : (m.begin mode dir pad).ivValid = m.ivValid := rfl
@[simp] theorem Mp.begin_phase (m : Mp) (mode : Mode) (dir : Dir) (pad : Pad) : (m.begin mode dir pad).phase = .run := rfl
@[simp] theorem Mp.begin_mode (m : Mp) (mode : Mode) (dir : Dir) (pad : Pad) : (m.begin mode dir pad).mode = mode := rfl
@[simp] theorem Mp.begin_dir (m : Mp) (mode : Mode) (dir : Dir) (pad : Pad) : (m.begin mode dir pad).dir = dir := rfl
@[simp] theorem Mp.begin_pad (m : Mp) (mode : Mode) (dir : Dir) (pad : Pad) : (m.begin mode dir pad).pad = pad := rfl
@[simp] theorem Mp.begin_chain (m : Mp) (mode : Mode) (dir : Dir) (pad : Pad) : (m.begin mode dir pad).chain = if mode = .ecb then zeroBytes 8 else m.iv := rfl
@[simp] theorem Mp.begin_prev (m : Mp) (mode : Mode) (dir : Dir) (pad : Pad) : (m.begin mode dir pad).prev = zeroBytes 8 := rfl
@[simp] theorem Mp.begin_prevValid (m : Mp) (mode : Mode) (dir : Dir) (pad : Pad) : (m.begin mode dir pad).prevValid = false := rfl
@[simp] theorem Mp.begin_cur (m : Mp) (mode : Mode) (dir : Dir) (pad : Pad) : (m.begin mode dir pad).cur = zeroBytes 8 := rfl
@[simp] theorem Mp.begin_fill (m : Mp) (mode : Mode) (dir : Dir) (pad : Pad) : (m.begin mode dir pad).fill = 0 := rfl

/-! ### Mp.holdBlock -/

@[simp] theorem Mp.holdBlock_iv (m : Mp) (x : Block) : (m.holdBlock x).iv = m.iv := rfl
@[simp] theorem Mp.holdBlock_ivValid (m : Mp) (x : Block) : (m.holdBlock x).ivValid = m.ivValid := rfl
@[simp] theorem Mp.holdBlock_phase (m : Mp) (x : Block) : (m.holdBlock x).phase = m.phase := rfl
@[simp] theorem Mp.holdBlock_mode (m : Mp) (x : Block) : (m.holdBlock x).mode = m.mode := rfl
@[simp] theorem Mp.holdBlock_dir (m : Mp) (x : Block) : (m.holdBlock x).dir = m.dir := rfl
@[simp] theorem Mp.holdBlock_pad (m : Mp) (x : Block) : (m.holdBlock x).pad = m.pad := rfl
@[simp] theorem Mp.holdBlock_chain (m : Mp) (x : Block) : (m.holdBlock x).chain = m.chain := rfl
@[simp] theorem Mp.holdBlock_prev (m : Mp) (x : Block) : (m.holdBlock x).prev = x := rfl
@[simp] theorem Mp.holdBlock_prevValid (m : Mp) (x : Block) : (m.holdBlock x).prevValid = true := rfl
@[simp] theorem Mp.holdBlock_cur (m : Mp) (x : Block) : (m.holdBlock x).cur = zeroBytes 8 := rfl
@[simp] theorem Mp.holdBlock_fill (m : Mp) (x : Block) : (m.holdBlock x).fill = 0 := rfl

/-! ### Sb.clear -/

@[simp] theorem Sb.clear_phase (u : Sb) : (u.clear).phase = .idle := rfl
@[simp] theorem Sb.clear_n (u : Sb) : (u.clear).n = u.n := rfl
@[simp] theorem Sb.clear_cnt (u : Sb) : (u.clear).cnt = 0 := rfl
@[simp] theorem Sb.clear_w (u : Sb) : (u.clear).w = zeroBytes 64 := rfl

/-! ### Sb.begin -/

@[simp] theorem Sb.begin_phase (u : Sb) (n : Nat) (h : n ≤ 64) (p : SbPhase) : (u.begin n h p).phase = p := rfl
@[simp] theorem Sb.begin_n (u : Sb) (n : Nat) (h : n ≤ 64) (p : SbPhase) : (u.begin n h p).n = n := rfl
@[simp] theorem Sb.begin_cnt (u : Sb) (n : Nat) (h : n ≤ 64) (p : SbPhase) : (u.begin n h p).cnt = 0 := rfl
@[simp] theorem Sb.begin_w (u : Sb) (n : Nat) (h : n ≤ 64) (p : SbPhase) : (u.begin n h p).w = zeroBytes 64 := rfl

/-! ### Mc.clear -/

@[simp] theorem Mc.clear_keyed (m : Mc) : (m.clear).keyed = m.keyed := rfl
@[simp] theorem Mc.clear_ipad (m : Mc) : (m.clear).ipad = m.ipad := rfl
@[simp] theorem Mc.clear_opad (m : Mc) : (m.clear).opad = m.opad := rfl
@[simp] theorem Mc.clear_phase (m : Mc) : (m.clear).phase = .idle := rfl
@[simp] theorem Mc.clear_path (m : Mc) : (m.clear).path = m.path := rfl
@[simp] theorem Mc.clear_quiet (m : Mc) : (m.clear).quiet = m.quiet := rfl
@[simp] theorem Mc.clear_inner (m : Mc) : (m.clear).inner = zeroBytes 64 := rfl
@[simp] theorem Mc.clear_tag (m : Mc) : (m.clear).tag = zeroBytes 64 := rfl

/-! ### Mc.removeKey -/

@[simp] theorem Mc.removeKey_keyed (m : Mc) : (m.removeKey).keyed = false := rfl
@[simp] theorem Mc.removeKey_ipad (m : Mc) : (m.removeKey).ipad = zeroBytes 128 := rfl
@[simp] theorem Mc.removeKey_opad (m : Mc) : (m.removeKey).opad = zeroBytes 128 := rfl
@[simp] theorem Mc.removeKey_phase (m : Mc) : (m.removeKey).phase = m.phase := rfl
@[simp] theorem Mc.removeKey_path (m : Mc) : (m.removeKey).path = m.path := rfl
@[simp] theorem Mc.removeKey_quiet (m : Mc) : (m.removeKey).quiet = m.quiet := rfl
@[simp] theorem Mc.removeKey_inner (m : Mc) : (m.removeKey).inner = m.inner := rfl
@[simp] theorem Mc.removeKey_tag (m : Mc) : (m.removeKey).tag = m.tag := rfl

/-! ### Mc.installKey -/

@[simp] theorem Mc.installKey_keyed (m : Mc) (k0 : List Byte) : (m.installKey k0).keyed = true := rfl
@[simp] theorem Mc.installKey_ipad (m : Mc) (k0 : List Byte) : (m.installKey k0).ipad = fit 128 (xorEach 0x36 k0) := rfl
@[simp] theorem Mc.installKey_opad (m : Mc) (k0 : List Byte) : (m.installKey k0).opad = fit 128 (xorEach 0x5c k0) := rfl
@[simp] theorem Mc.installKey_phase (m : Mc) (k0 : List Byte) : (m.installKey k0).phase = m.phase := rfl
@[simp] theorem Mc.installKey_path (m : Mc) (k0 : List Byte) : (m.installKey k0).path = m.path := rfl
@[simp] theorem Mc.installKey_quiet (m : Mc) (k0 : List Byte) : (m.installKey k0).quiet = m.quiet := rfl
@[simp] theorem Mc.installKey_inner (m : Mc) (k0 : List Byte) : (m.installKey k0).inner = m.inner := rfl
@[simp] theorem Mc.installKey_tag (m : Mc) (k0 : List Byte) : (m.installKey k0).tag = m.tag := rfl

/-! ### Fc.removeKey -/

@[simp] theorem Fc.removeKey_keyed (u : Fc) : (u.removeKey).keyed = false := rfl
@[simp] theorem Fc.removeKey_rk (u : Fc) : (u.removeKey).rk = Vector.replicate 16 0 := rfl
@[simp] theorem Fc.removeKey_c (u : Fc) : (u.removeKey).c = 0 := rfl
@[simp] theorem Fc.removeKey_d (u : Fc) : (u.removeKey).d = 0 := rfl
@[simp] theorem Fc.removeKey_l (u : Fc) : (u.removeKey).l = 0 := rfl
@[simp] theorem Fc.removeKey_r (u : Fc) : (u.removeKey).r = 0 := rfl

/-! ### Fc.installKey -/

@[simp] theorem Fc.installKey_keyed (u : Fc) (key : Block) : (u.installKey key).keyed = true := rfl
@[simp] theorem Fc.installKey_c (u : Fc) (key : Block) : (u.installKey key).c = 0 := rfl
@[simp] theorem Fc.installKey_d (u : Fc) (key : Block) : (u.installKey key).d = 0 := rfl

end Sys2Proof.Machine
end

