-- ==== Sys2Proof/Laws/Ops.lean ====
section
/-! SUPPORT. What each shared operation over the ports can do, said once (20_memory.md R62 to R66; 60_exceptions.md R310). -/

namespace Sys2Proof.Machine

/-- With its payload on DIN a command takes it and runs (R62). -/
theorem State.withPayload_of_le {s : State} {n : Nat} (run : State → State) (h : n ≤ s.din.length) :
    s.withPayload n run = run { s with rxbuf := s.din.take n, din := s.din.drop n } := by
  simp [State.withPayload, Nat.not_lt.mpr h]

/-- Without it the core waits and the state is as it was (R350(c)). -/
theorem State.withPayload_of_lt {s : State} {n : Nat} (run : State → State) (h : s.din.length < n) :
    s.withPayload n run = s := by
  simp [State.withPayload, h]

/-- The two things a command with a payload can do. -/
theorem State.withPayload_cases (s : State) (n : Nat) (run : State → State) :
    (s.din.length < n ∧ s.withPayload n run = s) ∨
    (n ≤ s.din.length ∧ s.withPayload n run = run { s with rxbuf := s.din.take n, din := s.din.drop n }) := by
  rcases Nat.lt_or_ge s.din.length n with h | h
  · exact .inl ⟨h, s.withPayload_of_lt run h⟩
  · exact .inr ⟨h, s.withPayload_of_le run h⟩

/-- The error exit as one update (R310). -/
theorem State.fail_eq (s : State) (c : Code) :
    s.fail c = { s with rxbuf := [], lastCode := c, rsp := s.rsp ++ [responseWord c 0], cmd := s.cmd.tail } := rfl

/-- The successful end of a payload command as one update (R50, R95). -/
theorem State.finish_eq (s : State) :
    s.finish = { s with rxbuf := [], lastCode := .ok, rsp := s.rsp ++ [responseWord .ok 0], cmd := s.cmd.tail } := rfl

/-- `respond` as one update (R95). -/
theorem State.respond_eq (s : State) (c : Code) (aux : BitVec 16) :
    s.respond c aux = { s with lastCode := c, rsp := s.rsp ++ [responseWord c aux], cmd := s.cmd.tail } := rfl

/-- The code field of a response word (R95). -/
@[simp] theorem responseWord_code (c : Code) (aux : BitVec 16) : (responseWord c aux).extractLsb' 0 4 = c.bits := by
  apply BitVec.eq_of_getLsbD_eq
  intro i hi
  simp only [responseWord, BitVec.getLsbD_extractLsb', BitVec.getLsbD_append, hi, decide_true, Bool.true_and, Nat.zero_add]
  rw [if_pos trivial]

/-- Bits 15 to 4 of a response word are zero (R95). -/
@[simp] theorem responseWord_middle (c : Code) (aux : BitVec 16) : (responseWord c aux).extractLsb' 4 12 = 0 := by
  apply BitVec.eq_of_getLsbD_eq
  intro i hi
  simp only [responseWord, BitVec.getLsbD_extractLsb', BitVec.getLsbD_append, hi, decide_true, Bool.true_and]
  rw [if_neg (by omega), if_pos (by omega)]
  simp

/-- The `aux` field of a response word (R95). -/
@[simp] theorem responseWord_aux (c : Code) (aux : BitVec 16) : (responseWord c aux).extractLsb' 16 16 = aux := by
  apply BitVec.eq_of_getLsbD_eq
  intro i hi
  simp only [responseWord, BitVec.getLsbD_extractLsb', BitVec.getLsbD_append, hi, decide_true, Bool.true_and]
  rw [if_neg (by omega), if_neg (by omega)]
  congr 1
  omega

/-- Code 0 is `OK` alone (R96). -/
theorem Code.bits_eq_zero {c : Code} : c.bits = 0 ↔ c = .ok := by
  cases c <;> decide

/-- No command produces a code above 8 (R96). -/
theorem Code.bits_le (c : Code) : c.bits.toNat ≤ 8 := by
  cases c <;> decide

/-- The number of a code names it (R96). -/
theorem Code.bits_injective {c d : Code} (h : c.bits = d.bits) : c = d := by
  cases c <;> cases d <;> first | rfl | exact absurd h (by decide)

end Sys2Proof.Machine
end

