-- ==== Sys2Proof/Laws/Window.lean ====
section
/-! SUPPORT. The window step's three cases and the feed's composition (44_suffix.md R230). -/

namespace Sys2Proof.Machine

/-- The three things a window step can do: hold the byte, pass it, or let the oldest byte leave (R230). -/
theorem Sb.byteStep_cases (u : Sb) (b : Byte) :
    (∃ h : u.cnt < u.n, u.byteStep b = (none, u.hold b h)) ∨
    (u.cnt = u.n ∧ u.n = 0 ∧ u.byteStep b = (some b, u)) ∨
    (u.cnt = u.n ∧ 0 < u.n ∧ u.byteStep b = (some u.w[0], u.shift b)) := by
  have := u.cnt_le
  unfold Sb.byteStep
  split
  · next h => exact .inl ⟨h, rfl⟩
  · split
    · exact .inr (.inl ⟨by omega, by assumption, rfl⟩)
    · exact .inr (.inr ⟨by omega, by omega, rfl⟩)

/-- The window after one byte more is held (R230). -/
theorem Sb.getElem_hold (u : Sb) (b : Byte) (h : u.cnt < u.n) (k : Nat) (hk : k < 64) :
    (u.hold b h).w[k] = if u.cnt = k then b else u.w[k] := by
  rw [Sb.hold]
  exact Vector.getElem_set (by have := u.n_le; omega) hk

/-- The full window after one byte more: the others moved down by one, the byte the newest (R230). -/
theorem Sb.getElem_shift (u : Sb) (b : Byte) (k : Nat) (hk : k < 64) :
    (u.shift b).w[k] =
      if h : k + 1 < u.n then u.w[k + 1]'(by have := u.n_le; omega) else if k + 1 = u.n then b else u.w[k] := by
  rw [Sb.shift]
  exact getElem_tabulate _ k hk

/-- A window step keeps the length and the owner (R230). -/
@[simp] theorem Sb.byteStep_n (u : Sb) (b : Byte) : (u.byteStep b).2.n = u.n := by
  rcases Sb.byteStep_cases u b with ⟨_, h⟩ | ⟨_, _, h⟩ | ⟨_, _, h⟩ <;> rw [h] <;> rfl

@[simp] theorem Sb.byteStep_phase (u : Sb) (b : Byte) : (u.byteStep b).2.phase = u.phase := by
  rcases Sb.byteStep_cases u b with ⟨_, h⟩ | ⟨_, _, h⟩ | ⟨_, _, h⟩ <;> rw [h] <;> rfl

/-- Feeding nothing. -/
@[simp] theorem Sb.feed_nil (u : Sb) : u.feed [] = ([], u) := rfl

/-- Feeding one byte more (R233). -/
theorem Sb.feed_cons (u : Sb) (b : Byte) (bs : List Byte) :
    u.feed (b :: bs) = ((u.byteStep b).1.toList ++ ((u.byteStep b).2.feed bs).1, ((u.byteStep b).2.feed bs).2) := rfl

/-- Feeding a chunk and then another is feeding their concatenation (R240). -/
theorem Sb.feed_append (u : Sb) (a b : List Byte) :
    u.feed (a ++ b) = ((u.feed a).1 ++ ((u.feed a).2.feed b).1, ((u.feed a).2.feed b).2) := by
  induction a generalizing u with
  | nil => simp
  | cons x xs ih => simp [Sb.feed_cons, ih, List.append_assoc]

@[simp] theorem Sb.feed_n (u : Sb) (l : List Byte) : (u.feed l).2.n = u.n := by
  induction l generalizing u with
  | nil => rfl
  | cons x xs ih => simp [Sb.feed_cons, ih]

@[simp] theorem Sb.feed_phase (u : Sb) (l : List Byte) : (u.feed l).2.phase = u.phase := by
  induction l generalizing u with
  | nil => rfl
  | cons x xs ih => simp [Sb.feed_cons, ih]

end Sys2Proof.Machine
end

