-- ==== Sys2Proof/Laws/Mac.lean ====
section
/-! SUPPORT. What unit MC's shared operations can change (45_mac.md R256, R257, R261, R263). -/

namespace Sys2Proof.Machine

/-- A key no longer than a block is extended to exactly a block (R252). -/
theorem macKeyBlock_length (h : Hasher) {k : List Byte} (hk : k.length ≤ h.hb) : (macKeyBlock h k).length = h.hb := by
  simp [macKeyBlock, rep]
  omega

/-- The body step as one update: the Hasher gets the byte, DOUT too unless quiet (R256). -/
theorem State.mcBody_eq (s : State) (b : Byte) :
    s.mcBody b = { s with hAcc := s.hAcc ++ [b], dout := s.dout ++ (if s.mc.quiet then [] else [b]) } := by
  unfold State.mcBody
  split <;> simp [State.hAdd, State.out]

/-- On the tag path every byte of a chunk is body (R257). -/
theorem State.mcFeed_tag (s : State) (l : List Byte) (h : s.mc.phase = .tag) :
    s.mcFeed l = { s with hAcc := s.hAcc ++ l, dout := s.dout ++ (if s.mc.quiet then [] else l) } := by
  induction l generalizing s with
  | nil => simp [State.mcFeed]
  | cons b bs ih =>
    have hb : s.mcByte b = s.mcBody b := by simp [State.mcByte, h]
    rw [State.mcFeed, hb, State.mcBody_eq, ih]
    · cases s.mc.quiet <;> simp
    · exact h

/-- On the check path the bytes that leave the window are body (R257). -/
theorem State.mcFeed_chk (s : State) (l : List Byte) (h : s.mc.phase = .chk) :
    s.mcFeed l = { s with
      sb := (s.sb.feed l).2, hAcc := s.hAcc ++ (s.sb.feed l).1
      dout := s.dout ++ (if s.mc.quiet then [] else (s.sb.feed l).1) } := by
  induction l generalizing s with
  | nil => simp [State.mcFeed]
  | cons b bs ih =>
    have hb : s.mcByte b = { s with
        sb := (s.sb.byteStep b).2, hAcc := s.hAcc ++ (s.sb.byteStep b).1.toList
        dout := s.dout ++ (if s.mc.quiet then [] else (s.sb.byteStep b).1.toList) } := by
      unfold State.mcByte
      rw [h]
      rcases hs : s.sb.byteStep b with ⟨o, u⟩
      cases o <;> simp [State.mcBody_eq]
    rw [State.mcFeed, hb, ih, Sb.feed_cons]
    · cases s.mc.quiet <;> simp
    · exact h

/-- A digest put in its storage is read back whole (R66). -/
theorem firstBytes_fit_digest (h : Hasher) (m : List Byte) : firstBytes (fit 64 (h.digest m)) h.hd = h.digest m := by
  have hl := h.digest_length m
  rw [← hl]
  exact firstBytes_fit (by have := h.hd_le; omega)

/-- The two-pass finalisation as one update: the tag of what the Hasher holds under the outer pad, the Hasher reset (R261). -/
theorem State.mcFinish_eq (h : Hasher) (s : State) :
    s.mcFinish h = { s with
      hAcc := []
      mc := { s.mc with
        inner := zeroBytes 64
        tag := fit 64 (h.digest (s.mc.opadBytes h ++ h.digest s.hAcc)) } } := by
  simp [State.mcFinish, State.hFinal, State.hDigest, State.hReset, State.hAdd, Mc.opadBytes, firstBytes_fit_digest]

/-- The or of bytes is zero exactly when each is. -/
theorem foldl_or_eq_zero (l : List Byte) (a : Byte) : l.foldl (· ||| ·) a = 0 ↔ a = 0 ∧ ∀ x ∈ l, x = 0 := by
  induction l generalizing a with
  | nil => simp
  | cons x xs ih =>
    rw [List.foldl_cons, ih]
    simp [BitVec.or_eq_zero_iff, and_assoc]

/-- The comparison tells equality and nothing more (R263). -/
theorem tagDifference_eq_zero {t w : List Byte} (h : t.length = w.length) : tagDifference t w = 0 ↔ t = w := by
  unfold tagDifference
  rw [foldl_or_eq_zero]
  induction t generalizing w with
  | nil =>
    cases w with
    | nil => simp
    | cons y ys => simp at h
  | cons x xs ih =>
    cases w with
    | nil => simp at h
    | cons y ys =>
      have := ih (w := ys) (by simpa using h)
      simp only [true_and] at this
      simp only [List.zipWith_cons_cons, List.forall_mem_cons, this, true_and, List.cons.injEq]
      exact and_congr_left fun _ => BitVec.xor_eq_zero_iff

end Sys2Proof.Machine
end

