-- ==== Sys2Proof/Laws/ModeProc.lean ====
section
/-! SUPPORT. What unit MP's shared operations can change (43_mode.md R202 to R212): finalisation writes only the chain, the
feed composes, and the lengths put out. -/

namespace Sys2Proof.Machine

/-- `finalise` writes `mp_chain` and nothing else (R203 to R205). -/
theorem Mp.finalise_snd (u : Fc) (m : Mp) (x : Block) :
    (m.finalise u x).2 = { m with chain := (m.finalise u x).2.chain } := by
  unfold Mp.finalise
  split <;> rfl

/-- Flushing writes `mp_chain` and nothing else. -/
theorem Mp.flushPrev_snd (u : Fc) (m : Mp) :
    (m.flushPrev u).2 = { m with chain := (m.flushPrev u).2.chain } := by
  unfold Mp.flushPrev
  split
  · exact Mp.finalise_snd u m m.prev
  · rfl

/-- Flushing puts out one block when one is held back, else nothing. -/
theorem Mp.flushPrev_length (u : Fc) (m : Mp) :
    (m.flushPrev u).1.length = if m.prevValid then 8 else 0 := by
  unfold Mp.flushPrev
  split <;> simp [*]

/-- The byte step's two cases: the byte is stored, or it completes a block that is held back (R202). -/
theorem Mp.byteStep_cases (u : Fc) (m : Mp) (b : Byte) :
    (∃ h : m.fill.val + 1 < 8,
      m.byteStep u b = ([], { m with cur := m.cur.set m.fill.val b m.fill.isLt, fill := ⟨m.fill.val + 1, h⟩ })) ∨
    (m.fill.val = 7 ∧ m.byteStep u b =
      ((m.flushPrev u).1, (m.flushPrev u).2.holdBlock (m.cur.set m.fill.val b m.fill.isLt))) := by
  have := m.fill.isLt
  unfold Mp.byteStep
  by_cases h : m.fill.val + 1 < 8
  · exact .inl ⟨h, by simp [h]⟩
  · exact .inr ⟨by omega, by simp [h]⟩

/-- Feeding nothing. -/
@[simp] theorem Mp.feed_nil (u : Fc) (m : Mp) : m.feed u [] = ([], m) := rfl

/-- Feeding one byte more (R201). -/
theorem Mp.feed_cons (u : Fc) (m : Mp) (b : Byte) (bs : List Byte) :
    m.feed u (b :: bs) =
      ((m.byteStep u b).1 ++ ((m.byteStep u b).2.feed u bs).1, ((m.byteStep u b).2.feed u bs).2) := rfl

/-- Feeding a chunk and then another is feeding their concatenation (R202). -/
theorem Mp.feed_append (u : Fc) (m : Mp) (a b : List Byte) :
    m.feed u (a ++ b) = ((m.feed u a).1 ++ ((m.feed u a).2.feed u b).1, ((m.feed u a).2.feed u b).2) := by
  induction a generalizing m with
  | nil => simp
  | cons x xs ih => simp [Mp.feed_cons, ih, List.append_assoc]

/-- The byte step keeps the configuration, the IV and the phase. -/
theorem Mp.byteStep_keeps (u : Fc) (m : Mp) (b : Byte) :
    (m.byteStep u b).2.iv = m.iv ∧ (m.byteStep u b).2.ivValid = m.ivValid ∧ (m.byteStep u b).2.phase = m.phase ∧
      (m.byteStep u b).2.mode = m.mode ∧ (m.byteStep u b).2.dir = m.dir ∧ (m.byteStep u b).2.pad = m.pad := by
  rcases Mp.byteStep_cases u m b with ⟨_, h⟩ | ⟨_, h⟩ <;> rw [h]
  · simp
  · rw [Mp.flushPrev_snd]
    simp [Mp.holdBlock]

/-- So does a chunk. -/
theorem Mp.feed_keeps (u : Fc) (m : Mp) (l : List Byte) :
    (m.feed u l).2.iv = m.iv ∧ (m.feed u l).2.ivValid = m.ivValid ∧ (m.feed u l).2.phase = m.phase ∧
      (m.feed u l).2.mode = m.mode ∧ (m.feed u l).2.dir = m.dir ∧ (m.feed u l).2.pad = m.pad := by
  induction l generalizing m with
  | nil => simp
  | cons x xs ih =>
    obtain ⟨h1, h2, h3, h4, h5, h6⟩ := ih (m.byteStep u x).2
    obtain ⟨k1, k2, k3, k4, k5, k6⟩ := Mp.byteStep_keeps u m x
    rw [Mp.feed_cons]
    exact ⟨h1.trans k1, h2.trans k2, h3.trans k3, h4.trans k4, h5.trans k5, h6.trans k6⟩

end Sys2Proof.Machine
end

