-- ==== Sys2Proof/Laws/Padding.lean ====
section
/-! SUPPORT. How long padded tails are (42_padding.md R180, R181, R183). -/

namespace Sys2Proof.Machine

/-- `pad_ZERO` of a short tail gives nothing or one block (R181). -/
theorem padZero_length {t : List Byte} (h : t.length ≤ 7) : (padZero t).length = if t = [] then 0 else 8 := by
  cases t with
  | nil => simp [padZero, rep]
  | cons x xs =>
    simp only [List.length_cons] at h
    simp [padZero, rep]
    omega

/-- `pad_LEN` of a short tail gives one block (R183). -/
theorem padLen_length {t : List Byte} (h : t.length ≤ 7) : (padLen t).length = 8 := by
  simp [padLen, rep]
  omega

/-- A padded tail is empty only under `ZERO` with nothing to pad, else one block (R180). -/
theorem padTail_length (p : Pad) {t : List Byte} (h : t.length ≤ 7) :
    (padTail p t).length = if p = .zero ∧ t = [] then 0 else 8 := by
  cases p
  · simpa [padTail] using padZero_length h
  · simpa [padTail] using padLen_length h

end Sys2Proof.Machine
end

