-- ==== Sys2Proof/Laws/PerInstr.lean ====
section
/-! SUPPORT. The statement made per command: the fields of the encoder's word are the command's own (30_encoding.md R90). -/

namespace Sys2Proof.Laws.EncodeFields

/-- The four fields of a word built from four fields. -/
theorem fields_commandWord (u o : BitVec 4) (a : BitVec 8) (n : BitVec 16) :
    unitField (commandWord u o a n) = u ∧ opField (commandWord u o a n) = o ∧
      argField (commandWord u o a n) = a ∧ lenField (commandWord u o a n) = n := by
  unfold unitField opField argField lenField commandWord
  refine ⟨?_, ?_, ?_, ?_⟩ <;> apply BitVec.eq_of_getLsbD_eq <;> intro i hi <;>
    simp only [BitVec.getLsbD_extractLsb', BitVec.getLsbD_append, hi, decide_true, Bool.true_and]
  · rw [if_neg (by omega), if_neg (by omega), if_neg (by omega)]; congr 1; omega
  · rw [if_neg (by omega), if_neg (by omega), if_pos (by omega)]; congr 1; omega
  · rw [if_neg (by omega), if_pos (by omega)]; congr 1; omega
  · rw [if_pos (by omega)]; congr 1; omega

/-- The fields of the encoder's word are the command's unit, operation, argument and payload length. -/
def Statement (i : Instr) : Prop :=
  unitField (encode i) = i.unit ∧ opField (encode i) = i.op ∧ argField (encode i) = i.arg ∧ lenField (encode i) = i.len

theorem nop : Statement .nop := fields_commandWord _ _ _ _
theorem rdsr (idx : BitVec 8) : Statement (.rdsr idx) := fields_commandWord _ _ _ _
theorem abort (u : AbortUnit) : Statement (.abort u) := fields_commandWord _ _ _ _
theorem fcSetkey (len : BitVec 16) : Statement (.fcSetkey len) := fields_commandWord _ _ _ _
theorem fcRmkey : Statement .fcRmkey := fields_commandWord _ _ _ _
theorem fcHaskey : Statement .fcHaskey := fields_commandWord _ _ _ _
theorem fcEncblk : Statement .fcEncblk := fields_commandWord _ _ _ _
theorem fcDecblk : Statement .fcDecblk := fields_commandWord _ _ _ _
theorem mpSetiv : Statement .mpSetiv := fields_commandWord _ _ _ _
theorem mpRmiv : Statement .mpRmiv := fields_commandWord _ _ _ _
theorem mpStart (mode : Mode) (dir : Dir) (pad : Pad) : Statement (.mpStart mode dir pad) := fields_commandWord _ _ _ _
theorem mpData (len : BitVec 16) : Statement (.mpData len) := fields_commandWord _ _ _ _
theorem mpEnd : Statement .mpEnd := fields_commandWord _ _ _ _
theorem sbStart (n : BitVec 8) : Statement (.sbStart n) := fields_commandWord _ _ _ _
theorem sbData (len : BitVec 16) : Statement (.sbData len) := fields_commandWord _ _ _ _
theorem sbEnd : Statement .sbEnd := fields_commandWord _ _ _ _
theorem mcSetkey (len : BitVec 16) : Statement (.mcSetkey len) := fields_commandWord _ _ _ _
theorem mcRmkey : Statement .mcRmkey := fields_commandWord _ _ _ _
theorem mcHaskey : Statement .mcHaskey := fields_commandWord _ _ _ _
theorem mcStart (path : Path) (quiet : Bool) : Statement (.mcStart path quiet) := fields_commandWord _ _ _ _
theorem mcData (len : BitVec 16) : Statement (.mcData len) := fields_commandWord _ _ _ _
theorem mcEnd : Statement .mcEnd := fields_commandWord _ _ _ _

end Sys2Proof.Laws.EncodeFields
end

