-- ==== Sys2Proof/Laws/Step.lean ====
section
/-! SUPPORT. What a step can do, said once (70_reset_and_hazards.md R330, R342): every invariant is derived from this case
split and from one lemma per command. -/

namespace Sys2Proof.Machine

/-- Every command answers a next state: none faults and none refuses (60_exceptions.md R310). -/
theorem exec_next (i : Instr) (s : State) : ∃ t, exec i s = .next t := by
  cases i <;> exact ⟨_, rfl⟩

/-- The four things a step can be: the reset event, waiting for a command, a decoded command, a reserved word. -/
theorem step_cases {s t : State} (h : step s = .next t) :
    (s.rstReq = true ∧ t = s.resetEvent) ∨
    (s.rstReq = false ∧ s.cmd = [] ∧ t = s) ∨
    (s.rstReq = false ∧ ∃ w rest i, s.cmd = w :: rest ∧ decode w = .ok i ∧ exec i s = .next t) ∨
    (s.rstReq = false ∧ ∃ w rest e, s.cmd = w :: rest ∧ decode w = .error e ∧
      t = s.withPayload (lenField w).toNat fun s => s.fail .illegalCommand) := by
  unfold step at h
  split at h
  · next hr =>
    injection h with h
    exact .inl ⟨hr, h.symm⟩
  · next hr =>
    have hr : s.rstReq = false := by simpa using hr
    split at h
    · next hc =>
      injection h with h
      exact .inr (.inl ⟨hr, hc, h.symm⟩)
    · next w rest hc =>
      split at h
      · next i hd => exact .inr (.inr (.inl ⟨hr, w, rest, i, hc, hd, h⟩))
      · next e hd =>
        unfold execReserved at h
        injection h with h
        exact .inr (.inr (.inr ⟨hr, w, rest, e, hc, hd, h.symm⟩))

end Sys2Proof.Machine
end

