-- ==== Sys2Proof/Tests/Slice0.lean ====
section
/-! SUPPORT. Tests: ill-formed commands refused, every constructor's word, single steps whose expected values are the vectors
of 95_test_vectors.md, and for every obligation with hypotheses a witness that meets them. -/

namespace Sys2Proof.Tests

open Sys2Proof.Machine Sys2Proof.Safety Sys2Proof.Claims

/-! ### Helpers -/

/-- The `n` bytes of a number written in hexadecimal, first byte first. -/
def hex (n w : Nat) : List Byte := (List.range n).map fun k => BitVec.ofNat 8 (w >>> (8 * (n - 1 - k)))

/-- What `f` reads from the next state of a result. -/
def after {α : Type} (r : Result) (f : State → α) : Option α :=
  match r with
  | .next t => some (f t)
  | .fault _ => none
  | .refused _ => none

/-- A read of the next state shows that there is one. -/
theorem next_of_after {α : Type} {r : Result} {f : State → α} {x : α} (h : after r f = some x) : ∃ t, r = .next t ∧ f t = x := by
  cases r with
  | next t => exact ⟨t, rfl, Option.some.inj h⟩
  | fault e => cases h
  | refused e => cases h

/-- The bytes of a sequence as chunks of one byte. -/
def singles (l : List Byte) : List (List Byte) := l.map fun b => [b]

theorem singles_flatten (l : List Byte) : (singles l).flatten = l := by
  induction l with
  | nil => rfl
  | cons b bs ih => simpa [singles] using ih

theorem singles_chunks (l : List Byte) : Chunks (singles l) := by
  simp [Chunks, singles, Config.chunkMax]

/-- The machine after reset with the payload `p` on DIN. -/
def given (p : List Byte) : State := { State.reset with din := p }

/-- A key installed in unit FC. -/
def withKey (w : Nat) (s : State) : State := { s with fc := s.fc.installKey (fit 8 (hex 8 w)) }

/-- A running stream of unit MP. -/
def running (mode : Mode) (dir : Dir) (pad : Pad) (s : State) : State := { s with mp := s.mp.begin mode dir pad }

/-- Keys in both units, an IV, and nothing in progress: every stream can start. The schedule and the pads are all zero. -/
def idle : State := { State.reset with
  fc := { Fc.reset with keyed := true }, mp := { Mp.reset with ivValid := true }, mc := { Mc.reset with keyed := true } }

/-- A stream of unit MP in progress. -/
def run (mode : Mode) (dir : Dir) (pad : Pad) : State := running mode dir pad idle

/-- A window of unit SB with retained length `n`, `c` bytes held. -/
def window (n c : Nat) (h : n ≤ 64 := by decide) (h' : c ≤ n := by decide) (phase : SbPhase := .run) : Sb :=
  { Sb.reset with phase := phase, n := n, cnt := c, n_le := h, cnt_le := h' }

/-- The toy digest of 95_test_vectors.md section 6.1. -/
def toyDigest (m : List Byte) : List Byte :=
  let p := m.foldl (fun (p : Byte × Byte) b => (p.1 + b, ((p.2 <<< 1) ||| (p.2 >>> 7)) ^^^ b)) ((0, 0x5a) : Byte × Byte)
  [p.1, p.2]

/-- The toy Hasher `T` of 95_test_vectors.md section 6.1. -/
def toy : Hasher where
  hd := 2
  hb := 4
  digest := toyDigest
  hd_pos := by decide
  hd_le := by decide
  hb_le := by decide
  hd_le_hb := by decide
  digest_length _ := rfl

/-- Unit MC keyed with `6b6579` under `T` (95 section 6.2). -/
def toyKeyed : State := { State.reset with mc := Mc.reset.installKey (macKeyBlock toy (hex 3 0x6b6579)) }

/-! ### Well-formedness: each check refuses an ill-formed command -/

theorem test_rdsr_6_ill_formed : (Instr.rdsr 6).wellFormed = false ∧ (Instr.rdsr 5).wellFormed = true := by decide
theorem test_sbStart_65_ill_formed : (Instr.sbStart 65).wellFormed = false ∧ (Instr.sbStart 64).wellFormed = true := by decide

/-! ### Decoding: the words of 95_test_vectors.md section 7 and spec/opcode_table.json -/

theorem test_decode_nop : decode 0x00000000 = .ok .nop := rfl
theorem test_decode_rdsr : decode 0x01050000 = .ok (.rdsr 5) := rfl
theorem test_decode_abort : decode 0x02000000 = .ok (.abort .all) ∧ decode 0x02020000 = .ok (.abort .mp) ∧
    decode 0x02030000 = .ok (.abort .sb) ∧ decode 0x02040000 = .ok (.abort .mc) := ⟨rfl, rfl, rfl, rfl⟩
theorem test_decode_fcSetkey : decode 0x10000008 = .ok (.fcSetkey 8) := rfl
theorem test_decode_fcRmkey : decode 0x11000000 = .ok .fcRmkey := rfl
theorem test_decode_fcHaskey : decode 0x12000000 = .ok .fcHaskey := rfl
theorem test_decode_fcEncblk : decode 0x13000008 = .ok .fcEncblk := rfl
theorem test_decode_fcDecblk : decode 0x14000008 = .ok .fcDecblk := rfl
theorem test_decode_mpSetiv : decode 0x20000008 = .ok .mpSetiv := rfl
theorem test_decode_mpRmiv : decode 0x21000000 = .ok .mpRmiv := rfl
theorem test_decode_mpStart : decode 0x22090000 = .ok (.mpStart .cbc .encrypt .len) ∧
    decode 0x220d0000 = .ok (.mpStart .cbc .decrypt .len) ∧ decode 0x22060000 = .ok (.mpStart .ctr .decrypt .zero) :=
  ⟨rfl, rfl, rfl⟩
theorem test_decode_mpData : decode 0x2300000a = .ok (.mpData 10) := rfl
theorem test_decode_mpEnd : decode 0x24000000 = .ok .mpEnd := rfl
theorem test_decode_sbStart : decode 0x30400000 = .ok (.sbStart 64) := rfl
theorem test_decode_sbData : decode 0x31000001 = .ok (.sbData 1) := rfl
theorem test_decode_sbEnd : decode 0x32000000 = .ok .sbEnd := rfl
theorem test_decode_mcSetkey : decode 0x40000003 = .ok (.mcSetkey 3) := rfl
theorem test_decode_mcRmkey : decode 0x41000000 = .ok .mcRmkey := rfl
theorem test_decode_mcHaskey : decode 0x42000000 = .ok .mcHaskey := rfl
theorem test_decode_mcStart : decode 0x43010000 = .ok (.mcStart .check false) ∧
    decode 0x43020000 = .ok (.mcStart .tag true) := ⟨rfl, rfl⟩
theorem test_decode_mcData : decode 0x4400ffff = .ok (.mcData 65535) := rfl
theorem test_decode_mcEnd : decode 0x45000000 = .ok .mcEnd := rfl

/-- The reserved words of 95 section 7. -/
theorem test_decode_reserved : ([0x50000000, 0xffffffff, 0x03000000, 0x15000000, 0x25000000, 0x33000000, 0x46000000,
    0x13000010, 0x13000000, 0x20000010, 0x01060000, 0x22030000, 0x22100000, 0x30410000, 0x43040000, 0x02010000, 0x11010000,
    0x24000001, 0x00000001, 0x23010000] : List Word).all (fun w => (decode w).toOption.isNone) = true := by decide +kernel

/-- The encoder writes the words of 95 section 7. -/
theorem test_encode_words : encode (.mpStart .cbc .decrypt .len) = 0x220d0000 ∧ encode (.mcStart .check true) = 0x43030000 ∧
    encode (.abort .mc) = 0x02040000 ∧ encode (.sbStart 64) = 0x30400000 ∧ encode .fcDecblk = 0x14000008 := by decide

/-- A serialised command, most significant byte first, with its payload behind it (R69, R105). -/
theorem test_decodeBytes : decodeBytes [0x23, 0x00, 0x00, 0x01, 0xaa] = .ok (.mpData 1, [0xaa]) ∧
    decodeTableWord 32 0x45000000 = some .mcEnd := ⟨rfl, rfl⟩

/-! ### Bit primitives and tables (95 sections 2.3 and 3) -/

theorem test_permute_PC1 : permute (n := 64) (bits (fit 8 (hex 8 0x133457799bbcdff1))) tablePC1 = 0xf0ccaaf556678f := by
  decide +kernel
theorem test_permute_IP : permute (0x0123456789abcdef : BitVec 64) tableIP = 0xcc00ccfff0aaf0aa := by decide
theorem test_permute_E : permute (0x80000001 : BitVec 32) tableE = 0xc00000000003 := by decide
theorem test_rotl_28 : rotl (0xf0ccaaf : BitVec 28) 1 = 0xe19955f ∧ rotr (0xf0ccaaf : BitVec 28) 1 = 0xf866557 ∧
    shl (0xf0ccaaf : BitVec 28) 4 = 0x0ccaaf0 ∧ shr (0xf0ccaaf : BitVec 28) 4 = 0x0f0ccaa := by decide
theorem test_setbit : (setbit (fit 2 [0, 0]) 9 true).toList = [0x00, 0x40] := by decide
theorem test_permuteBytes : (permuteBytes (fit 1 [0x80]) (⟨#[0, 0, 0], rfl⟩ : Vector (Fin (8 * 1)) 3)).toList = [0xe0] := by
  decide
theorem test_roundFunction : roundFunction 0xf0aaf0aa 0x1b02effc7072 = 0x234aa9bb ∧
    roundFunction 0 0xffffffffffff = 0x38dbf9cb := by decide +kernel
theorem test_padLen : padLen [0x41] = [0x41, 7, 7, 7, 7, 7, 7, 7] ∧ padZero [] = [] := by decide
theorem test_unpadLen : unpadLen (hex 8 0x4142434445460302) = none ∧ unpadLen (hex 8 0x4107070707070707) = some [0x41] := by
  decide

/-! ### One command (95 sections 2 to 6) -/

theorem test_nop : after (exec .nop { State.reset with lastCode := .noKey }) (fun t => (t.rsp, t.lastCode)) =
    some ([0], .noKey) := by decide
theorem test_rdsr_4 : after (exec (.rdsr 4) State.reset) (·.rsp) = some [0x40080000] := by decide
theorem test_rdsr_5_toy : (State.reset.readStatus toy 5).rsp = [0x04020000] := by decide
theorem test_abort_mp : after (exec (.abort .mp) (run .ctr .encrypt .zero)) (fun t => sr0 t) = some 0x0007 := by decide
theorem test_abort_sb_owned : after (exec (.abort .sb) { State.reset with sb := window 2 0 (phase := .owned) }) (·.rsp) =
    some [8] := by decide
/-- Round keys 1 and 16 of key `KB` (95 section 2.1). -/
theorem test_fcSetkey : after (exec (.fcSetkey 8) (given (hex 8 0x0123456789abcdef)))
    (fun t => (t.fc.rk[0], t.fc.rk[15], t.fc.keyed)) = some (0x0b02679b49a5, 0xca3d03b87032, true) := by decide +kernel
theorem test_fcSetkey_7 : after (exec (.fcSetkey 7) (given (hex 7 0x133457799bbcdf))) (·.rsp) = some [2] := by decide
theorem test_fcRmkey : after (exec .fcRmkey { idle with fc := { Fc.reset with keyed := true, l := 5 } })
    (fun t => (t.fc.keyed, t.fc.l)) = some (false, 0) := by decide
theorem test_fcHaskey : after (exec .fcHaskey idle) (·.rsp) = some [0x00010000] := by decide
/-- V1. -/
theorem test_fcEncblk_V1 : after (exec .fcEncblk (withKey 0x133457799bbcdff1 (given (hex 8 0x0123456789abcdef)))) (·.dout) =
    some (hex 8 0x85e813540f0ab405) := by decide +kernel
theorem test_fcEncblk_noKey : after (exec .fcEncblk (given (hex 8 1))) (fun t => (t.rsp, t.dout, t.din)) =
    some ([1], [], []) := by decide
theorem test_fcDecblk_V1 : after (exec .fcDecblk (withKey 0x133457799bbcdff1 (given (hex 8 0x85e813540f0ab405)))) (·.dout) =
    some (hex 8 0x0123456789abcdef) := by decide +kernel
theorem test_mpSetiv : after (exec .mpSetiv (given (hex 8 0x1234567890abcdef))) (fun t => (t.mp.iv.toList, t.mp.ivValid)) =
    some (hex 8 0x1234567890abcdef, true) := by decide
theorem test_mpRmiv : after (exec .mpRmiv idle) (·.mp.ivValid) = some false := by decide
/-- `SR1` of program P2, steps 5 and 6. -/
theorem test_mpStart : after (exec (.mpStart .cbc .encrypt .len) idle) (fun t => sr1 t) = some 0x0009 := by decide
theorem test_mpStart_noIV : after (exec (.mpStart .cbc .encrypt .len) { idle with mp := Mp.reset }) (·.rsp) = some [7] := by
  decide
theorem test_mpData : after (exec (.mpData 3) { run .cbc .encrypt .len with din := hex 3 0x4e6f77 })
    (fun t => (sr1 t, t.dout)) = some (0x0039, []) := by decide
/-- The counter wraps (95 section 4): key `KB`, IV all ones, the second block leaves with the keystream of counter 0. -/
theorem test_mpData_ctr_wraps : after (exec (.mpData 24)
    (withKey 0x0123456789abcdef (running .ctr .encrypt .zero { idle with
      din := List.replicate 24 0, mp := { Mp.reset with iv := fit 8 (hex 8 0xffffffffffffffff) } }))) (·.dout) =
    some (hex 16 0x59732356f36fde06d5d44ff720683d0d) := by decide +kernel
/-- M2: CTR of `41`. -/
theorem test_mpEnd_ctr : after (exec .mpEnd
    (withKey 0x0123456789abcdef (running .ctr .encrypt .zero { idle with
      mp := { Mp.reset with iv := fit 8 (hex 8 0x1234567890abcdef) } }
      |> fun s => { s with mp := { s.mp with cur := fit 8 [0x41], fill := 1 } }))) (·.dout) = some [0xfc] := by decide +kernel
/-- X4: a held block whose plaintext ends in `74`. -/
theorem test_mpEnd_invalidPadding : after (exec .mpEnd
    (withKey 0x0123456789abcdef (run .ecb .decrypt .len
      |> fun s => { s with mp := { s.mp with prev := fit 8 (hex 8 0x3fa40e8a984d4815), prevValid := true } })))
    (fun t => (t.rsp, t.dout)) = some ([4], []) := by decide +kernel
theorem test_sbStart : after (exec (.sbStart 4) State.reset) (fun t => (sr2 t, t.sb.phase)) = some (0x0004, .run) := by decide
/-- W1. -/
theorem test_sbData_W1 : after (exec (.sbData 6) { given (hex 6 0x010203040506) with sb := window 4 0 })
    (fun t => (t.dout, t.sb.w.toList.take 4)) = some ([1, 2], [3, 4, 5, 6]) := by decide
/-- W5: an empty suffix passes everything. -/
theorem test_sbData_W5 : after (exec (.sbData 2) { given [1, 2] with sb := window 0 0 }) (·.dout) = some [1, 2] := by decide
theorem test_sbEnd_W4 : after (exec .sbEnd { State.reset with sb := window 4 0 }) (fun t => (t.rsp, t.sfx)) =
    some ([5], []) := by decide
theorem test_sbEnd_W3 : after (exec .sbEnd { State.reset with sb := { window 4 4 with w := fit 64 [1, 2, 3, 4] } })
    (fun t => (t.rsp, t.sfx)) = some ([0], [1, 2, 3, 4]) := by decide
/-- A key longer than `Hb` is hashed first: the third row of the key-length table, under `T`. -/
theorem test_mcSetkey_toy : (({ State.reset with rxbuf := [1, 2, 3, 4, 5] } : State).macSetkey toy 5 |> fun t =>
    (t.mc.ipad.toList.take 5, t.mc.opad.toList.take 5)) = ([0x39, 0x7c, 0x36, 0x36, 0], [0x53, 0x16, 0x5c, 0x5c, 0]) := by
  decide
theorem test_mcSetkey_empty : after (exec (.mcSetkey 0) State.reset) (·.rsp) = some [2] := by decide
theorem test_mcRmkey : after (exec .mcRmkey idle) (·.mc.keyed) = some false := by decide
theorem test_mcHaskey : after (exec .mcHaskey idle) (·.rsp) = some [0x00010000] := by decide
/-- `SR0` and `SR2` after `MC.START path=check` under `T`. -/
theorem test_mcStart_toy : (toyKeyed.macStart toy .check false |> fun t => (sr2 t, t.sb.phase, t.hAcc)) =
    (0x0002, .owned, hex 4 0x5d534f36) := by decide
theorem test_mcStart_noKey : after (exec (.mcStart .tag false) State.reset) (·.rsp) = some [1] := by decide
/-- Y3: five bytes on the check path, two of them kept back. -/
theorem test_mcData_check : after (exec (.mcData 5) { toyKeyed.macStart toy .check false with din := hex 5 0x616263c37a })
    (fun t => (t.dout, sr2 t)) = some ([0x61, 0x62, 0x63], 0x0202) := by decide
/-- Y1: the tag. -/
theorem test_mcEnd_tag_toy : (({ toyKeyed.macStart toy .tag false with hAcc := hex 7 0x5d534f36616263 } : State).macEnd toy).dout =
    [0xc3, 0x7a] := by decide
/-- Y4a: a flipped bit of the tag. -/
theorem test_mcEnd_check_toy : (({ toyKeyed.macStart toy .check false with
    hAcc := hex 7 0x5d534f36616263
    sb := { window 2 2 (phase := .owned) with w := fit 64 [0xc3, 0x7b] } } : State).macEnd toy |> fun t =>
    (t.lastCode, t.dout, t.sb.phase, t.sb.w[0])) = (.macMismatch, [], .idle, 0) := by decide

/-- A reserved word's payload is discarded (P4, step 11). -/
theorem test_reserved_word : after (step { given [0xaa] with cmd := [0x24000001] }) (fun t => (t.rsp, t.din, t.cmd)) =
    some ([8], [], []) := by decide
/-- Reset (P4, steps 38 and 39). -/
theorem test_reset : after (step { run .ecb .decrypt .len with rstReq := true }) (fun t => (sr0 t, sr1 t, t.rstReq)) =
    some (0, 0, false) := by decide
/-- The word placed by `withFetchWord` is the one the next step runs. -/
theorem test_withFetchWord : after (step (State.reset.withFetchWord 32 0x20000008)) (fun t => (t.mp.ivValid, t.rsp)) =
    some (true, [0]) := by decide

/-! ### Witnesses: for every obligation with hypotheses, a state and operands that meet them, clause by clause -/

/-- 65535 bytes, the largest chunk a command carries. -/
def bigChunk : List Byte := List.replicate 65535 0

theorem bigChunk_length : bigChunk.length = 65535 := List.length_replicate

theorem bigChunk_carried : (0xffff : BitVec 16).toNat ≤ bigChunk.length := bigChunk_length.ge

/-- A stream in progress on unit MP, a host stream on unit SB and a tag operation on unit MC, the next command on CMD. -/
def busy (w : Word) (din : List Byte) : State := { run .cbc .encrypt .len with
  sb := window 64 0, mc := { Mc.reset with keyed := true, phase := .tag }, cmd := [w], din := din }

/-- A check operation of unit MC whose window holds `Hd` bytes, the bytes of `w`. -/
def checking (w : Vector Byte 64) : State := { idle with
  mc := { Mc.reset with keyed := true, phase := .chk, path := .check }
  sb := { phase := .owned, n := Config.hasher.hd, cnt := Config.hasher.hd, w := w
          n_le := Config.hasher.hd_le, cnt_le := Nat.le_refl _ } }

/-- The tag that `checking` compares with. -/
def checkTag : List Byte := Config.hasher.digest
  ((checking (zeroBytes 64)).mc.opad.toList.take Config.hasher.hb ++ Config.hasher.digest (checking (zeroBytes 64)).hAcc)

theorem checkTag_length : checkTag.length = Config.hasher.hd := Config.hasher.digest_length _

/-- A window with a byte sequence of the tag's length reads it back. -/
theorem window_take {l : List Byte} (h : l.length = Config.hasher.hd) :
    (fit 64 l).toList.take Config.hasher.hd = l := by
  rw [← h]
  exact firstBytes_fit (h ▸ Config.hasher.hd_le)

/-- A tag with every byte changed by a non-zero difference is not the tag. -/
theorem changed_ne_checkTag {d : Byte} (hd : d ≠ 0) : (fit 64 (checkTag.map (· ^^^ d))).toList.take Config.hasher.hd ≠ checkTag := by
  rw [window_take (by simpa using checkTag_length)]
  have hl := checkTag_length
  have hp := Config.hasher.hd_pos
  cases h : checkTag with
  | nil => simp [h] at hl; omega
  | cons x xs =>
    intro e
    simp only [List.map_cons, List.cons.injEq] at e
    exact hd (by simpa using e.1)

theorem ready_idle : Ready idle := ⟨rfl, rfl, rfl⟩
theorem canStart_idle (mode : Mode) : CanStart idle mode := ⟨rfl, rfl, fun _ => rfl⟩
theorem chunks_big : Chunks [[], bigChunk, [1]] := by
  simp [Chunks, bigChunk_length, Config.chunkMax]
theorem chunks_hd : Chunks [List.replicate Config.hasher.hd 0] := by
  have := Config.hasher.hd_le
  simp [Chunks, Config.chunkMax]
  omega

theorem witness_DecodeEncodeRoundTrip : (Instr.sbStart 64).wellFormed = true ∧ (Instr.rdsr 5).wellFormed = true := by decide
theorem witness_EncodeDecodeRoundTrip : decode 0x30400000 = .ok (.sbStart 64) := rfl
theorem witness_StepRunsDecodedCommand :
    (busy 0x45000000 []).rstReq = false ∧ (busy 0x45000000 []).cmd = [0x45000000] ∧ decode 0x45000000 = .ok .mcEnd :=
  ⟨rfl, rfl, rfl⟩
theorem witness_ReservedWordAnswersIllegalCommand :
    (busy 0x24000001 [0xaa]).rstReq = false ∧ (busy 0x24000001 [0xaa]).cmd = [0x24000001] ∧
      decode 0x24000001 = .error .reservedLen ∧ (lenField 0x24000001).toNat ≤ (busy 0x24000001 [0xaa]).din.length :=
  ⟨rfl, rfl, rfl, by decide⟩
theorem witness_CoreWaitsForInput : (idle.rstReq = false ∧ idle.cmd = []) ∧
    (busy 0x13000008 (hex 7 1)).rstReq = false ∧ (busy 0x13000008 (hex 7 1)).cmd = [0x13000008] ∧
      (busy 0x13000008 (hex 7 1)).din.length < (lenField 0x13000008).toNat := ⟨⟨rfl, rfl⟩, rfl, rfl, by decide⟩
theorem witness_EveryCommandAnswersOnce : ∀ i ∈ ([.nop, .rdsr 5, .fcHaskey, .mcHaskey, .fcEncblk, .mpData 8] : List Instr),
    i.wellFormed = true ∧ i.len.toNat ≤ (given (hex 8 1)).din.length := by decide
theorem witness_PayloadConsumedAndZeroed : ∀ i ∈ ([.nop, .fcEncblk, .mcData 8] : List Instr),
    i.len.toNat ≤ (given (hex 8 1)).din.length ∧ (given (hex 8 1)).rxbuf = [] := by decide
/-- A command of unit MP and one of unit FC that end with an error, and the end of a check that releases the window. -/
theorem witness_ErrorsReleaseNothing :
    (∀ i ∈ ([.fcEncblk, .mpData 8, .sbEnd, .mcEnd] : List Instr), i.wellFormed = true ∧
      i.len.toNat ≤ (given (hex 8 1)).din.length ∧
      after (exec i (given (hex 8 1))) (fun t => t.rsp.any fun q => q.extractLsb' 0 4 != 0) = some true) ∧
    after (exec .mcEnd { idle with sb := window 2 0 (phase := .owned), mc := { Mc.reset with phase := .chk } }) (·.rsp) =
      some [5] := by decide
/-- Codes 1, 2, 7, 8 before an operation, 3 and 4 at the end of a decryption, 5 at the end of a window stream. -/
theorem witness_ErrorsArePrecise :
    after (exec .fcEncblk (given (hex 8 1))) (·.rsp) = some [1] ∧
    after (exec (.fcSetkey 9) (given (hex 9 1))) (·.rsp) = some [2] ∧
    after (exec (.mpStart .ctr .encrypt .zero) { idle with mp := Mp.reset }) (·.rsp) = some [7] ∧
    after (exec .sbEnd idle) (·.rsp) = some [8] ∧
    after (exec .mpEnd { idle with mp := { (run .ecb .decrypt .len).mp with fill := 1 } }) (·.rsp) = some [3] ∧
    after (exec .mpEnd (run .cbc .decrypt .len)) (·.rsp) = some [4] ∧
    after (exec .sbEnd { idle with sb := window 1 0 }) (·.rsp) = some [5] := by decide
theorem witness_NopAndRdsrOnlyAnswer : (5 : BitVec 8).toNat ≤ 5 ∧ 5 < (6 : BitVec 8).toNat := by decide
theorem witness_StatusRegisterFields : 5 < (6 : BitVec 8).toNat ∧ 5 < (255 : BitVec 8).toNat := by decide
theorem witness_AbortEndsTheOperation :
    (busy 0 []).sb.phase ≠ .owned ∧ (busy 0 []).mc.phase ≠ .idle ∧
      ({ idle with sb := window 2 0 (phase := .owned) } : State).sb.phase = .owned := by decide
theorem witness_SetkeyInstallsTheSchedule : (given (hex 8 1)).mp.phase ≠ .run ∧ 8 ≤ (given (hex 8 1)).din.length ∧
    ((7 : BitVec 16) ≠ 8 ∧ (7 : BitVec 16).toNat ≤ (given (hex 8 1)).din.length) ∧
    ((9 : BitVec 16) ≠ 8 ∧ (9 : BitVec 16).toNat ≤ (given (hex 9 1)).din.length) := by decide
theorem witness_KeyCommandsRefusedDuringAStream : (busy 0 (hex 8 1)).mp.phase = .run ∧
    (8 : BitVec 16).toNat ≤ (busy 0 (hex 8 1)).din.length ∧
    ∀ i ∈ ([.fcHaskey, .fcEncblk, .fcDecblk] : List Instr), i.len.toNat ≤ (busy 0 (hex 8 1)).din.length := by decide
theorem witness_RmkeyZeroesTheKeyMaterial : idle.mp.phase ≠ .run ∧ (busy 0 []).mp.phase = .run ∧
    idle.mc.phase = .idle ∧ (busy 0 []).mc.phase ≠ .idle := by decide
theorem witness_BlockCommandsCipherOneBlock :
    8 ≤ (given (hex 8 1)).din.length ∧ (given (hex 8 1)).fc.keyed = false ∧
      8 ≤ (busy 0 (hex 8 1)).din.length ∧ (busy 0 (hex 8 1)).fc.keyed = true := by decide
/-- The keys of V3 and V4 (95 section 2.1). -/
theorem witness_ParityBitsAreNeverRead : ∀ k : Fin 8,
    (fit 8 (hex 8 0x0101010101010101))[k.val] >>> 1 = (fit 8 (hex 8 0))[k.val] >>> 1 := by decide
/-- A rotation of four indices and its inverse; the bounds on the width. -/
theorem witness_BitPrimitiveLaws :
    (∀ j : Fin 4, (⟨#[3, 0, 1, 2], rfl⟩ : Vector (Fin 4) 4)[((⟨#[1, 2, 3, 0], rfl⟩ : Vector (Fin 4) 4)[j.val]).val] = j) ∧
      1 ≤ 28 := by decide
theorem witness_BitPrimitivesByIndex : ((15 : Fin (8 * 2)) ≠ 0) ∧ 1 ≤ 28 ∧ 27 < 28 ∧ 27 + 0 < 28 ∧ ¬ 27 + 1 < 28 ∧ ¬ 28 ≤ 27 := by
  decide
theorem witness_PaddingRoundTrip : (hex 7 1).length ≤ 7 ∧ ([] : List Byte).length ≤ 7 ∧ (padLen []).length = 8 := by decide
theorem witness_IvIsLatchedAtStart : 8 ≤ (given (hex 8 1)).din.length ∧ CanStart idle .cbc ∧ Mode.cbc ≠ .ecb ∧
    Instr.sbEnd ∉ ([.mpEnd, .abort .mp, .abort .all] : List Instr) ∧
    (∀ mode dir pad, Instr.sbEnd ≠ .mpStart mode dir pad) ∧ ∀ len, Instr.sbEnd ≠ .mpData len :=
  ⟨by decide, canStart_idle _, by decide, by decide, fun _ _ _ => by simp, fun _ => by simp⟩
/-- Each mode can start; a running unit, a keyless one (with no IV either) and a keyed one without IV. -/
theorem witness_MpStartBeginsAStream : (∀ mode, CanStart idle mode) ∧ (busy 0 []).mp.phase = .run ∧
    (State.reset.mp.phase ≠ .run ∧ State.reset.fc.keyed = false) ∧
    (({ idle with mp := Mp.reset } : State).mp.phase ≠ .run ∧ ({ idle with mp := Mp.reset } : State).fc.keyed = true ∧
      Mode.ctr ≠ .ecb ∧ ({ idle with mp := Mp.reset } : State).mp.ivValid = false) :=
  ⟨canStart_idle, by decide, by decide, by decide⟩
theorem witness_MpDataFeedsTheChunk : (0xffff : BitVec 16).toNat ≤ (busy 0 bigChunk).din.length ∧
    (busy 0 bigChunk).mp.phase = .run ∧ (0 : BitVec 16).toNat ≤ idle.din.length ∧ idle.mp.phase ≠ .run :=
  ⟨bigChunk_carried, rfl, by decide, by decide⟩
theorem witness_MpByteStepHoldsOneBlockBack :
    (({ Mp.reset with fill := 6 } : Mp).fill.val + 1 < 8) ∧
    (({ Mp.reset with fill := 7 } : Mp).fill.val = 7 ∧ ({ Mp.reset with fill := 7 } : Mp).prevValid = false) ∧
    (({ Mp.reset with fill := 7, prevValid := true } : Mp).fill.val = 7 ∧
      ({ Mp.reset with fill := 7, prevValid := true } : Mp).prevValid = true) := by decide
theorem witness_FinaliseByMode :
    ((run .ecb .encrypt .zero).mp.mode = .ecb ∧ (run .ecb .encrypt .zero).mp.dir = .encrypt) ∧
    ((run .ecb .decrypt .zero).mp.mode = .ecb ∧ (run .ecb .decrypt .zero).mp.dir = .decrypt) ∧
    ((run .cbc .encrypt .zero).mp.mode = .cbc ∧ (run .cbc .encrypt .zero).mp.dir = .encrypt) ∧
    ((run .cbc .decrypt .zero).mp.mode = .cbc ∧ (run .cbc .decrypt .zero).mp.dir = .decrypt) ∧
    (run .ctr .decrypt .zero).mp.mode = .ctr := by decide
theorem witness_ReleasedSoFar : Ready idle ∧ CanStart idle .cbc ∧ Chunks [[], bigChunk, [1]] :=
  ⟨ready_idle, canStart_idle _, chunks_big⟩
/-- Every clause of the end of a stream: no stream; encryption with nothing and with something to pad; decryption of a cut
block, of an empty stream under `ZERO` and under `LEN`; CTR. -/
theorem witness_MpEndEndsTheStream :
    idle.mp.phase ≠ .run ∧
    (∀ pad, (run .cbc .encrypt pad).mp.phase = .run ∧ (run .cbc .encrypt pad).mp.mode ≠ .ctr ∧
      (run .cbc .encrypt pad).mp.dir = .encrypt ∧ (run .cbc .encrypt pad).mp.pad = pad ∧
      (run .cbc .encrypt pad).mp.cur.toList.take (run .cbc .encrypt pad).mp.fill.val = []) ∧
    (∀ pad, (run .ecb .decrypt pad).mp.phase = .run ∧ (run .ecb .decrypt pad).mp.mode ≠ .ctr ∧
      (run .ecb .decrypt pad).mp.dir = .decrypt ∧ (run .ecb .decrypt pad).mp.fill = 0 ∧
      (run .ecb .decrypt pad).mp.prevValid = false) ∧
    (({ (run .ecb .decrypt .zero).mp with fill := 1 } : Mp).phase = .run ∧
      ({ (run .ecb .decrypt .zero).mp with fill := 1 } : Mp).fill ≠ 0) ∧
    unpadBlock .zero [] = some [] ∧ unpadBlock .len [] = none ∧
    ((run .ctr .decrypt .len).mp.phase = .run ∧ (run .ctr .decrypt .len).mp.mode = .ctr) :=
  ⟨by decide, fun pad => by cases pad <;> decide, fun pad => by cases pad <;> decide, by decide, by decide, by decide, by decide⟩
theorem witness_MpChunkIndependence : Ready idle ∧ Chunks [[1, 2], []] ∧ Chunks [[1], [2]] ∧
    [[1, 2], []].flatten = ([[1], [2]] : List (List Byte)).flatten := by
  refine ⟨ready_idle, ?_, ?_, rfl⟩ <;> simp [Chunks, Config.chunkMax]
theorem witness_EncryptStreamIsBlockwise : Ready idle ∧ Chunks [[], bigChunk, [1]] ∧ CanStart idle .ecb ∧ CanStart idle .cbc :=
  ⟨ready_idle, chunks_big, canStart_idle _, canStart_idle _⟩
theorem witness_CtrStreamIsKeystreamXor : Ready idle ∧ CanStart idle .ctr ∧ Chunks [[], bigChunk, [1]] :=
  ⟨ready_idle, canStart_idle _, chunks_big⟩
/-- Vector M2 (95 section 4): `41` through CTR under key `KB` and IV `IVA` is `fc`, the chunk of the second stream. -/
theorem witness_MpStreamRoundTrip :
    let s := withKey 0x0123456789abcdef { idle with mp := { Mp.reset with iv := fit 8 (hex 8 0x1234567890abcdef), ivValid := true } }
    Ready s ∧ CanStart s .ctr ∧ Chunks [[0x41]] ∧ Chunks [[0xfc]] ∧
      ∃ t, runSeq (mpStream .ctr .encrypt .zero [[0x41]]) s = .next t ∧ [[0xfc]].flatten = t.dout.drop s.dout.length := by
  have h : after (runSeq (mpStream .ctr .encrypt .zero [[0x41]]) (withKey 0x0123456789abcdef
      { idle with mp := { Mp.reset with iv := fit 8 (hex 8 0x1234567890abcdef), ivValid := true } })) (·.dout) =
      some [0xfc] := by decide +kernel
  obtain ⟨t, ht, hd⟩ := next_of_after h
  exact ⟨⟨rfl, rfl, rfl⟩, ⟨rfl, rfl, fun _ => rfl⟩, singles_chunks [0x41], singles_chunks [0xfc], t, ht, hd.symm⟩
theorem witness_SbStartBeginsAStream : ((64 : BitVec 8).toNat ≤ 64 ∧ idle.sb.phase = .idle) ∧ (busy 0 []).sb.phase ≠ .idle ∧
    64 < (65 : BitVec 8).toNat := by decide
/-- The byte step's three clauses at the bounds of the window, and the empty window. -/
theorem witness_WindowHoldsTheLastBytes : (window 64 63).cnt < (window 64 63).n ∧
    ((window 0 0).cnt = (window 0 0).n ∧ (window 0 0).n = 0) ∧
    ((window 1 1).cnt = (window 1 1).n ∧ 0 < (window 1 1).n) ∧ (window 64 0).cnt = 0 := by decide
theorem witness_SbDataPassesBytesThrough : (0xffff : BitVec 16).toNat ≤ (busy 0 bigChunk).din.length ∧
    (busy 0 bigChunk).sb.phase = .run ∧ (0 : BitVec 16).toNat ≤ idle.din.length ∧ idle.sb.phase ≠ .run :=
  ⟨bigChunk_carried, rfl, by decide, by decide⟩
theorem witness_SbEndExposesTheSuffix : ((window 64 64).phase = .run ∧ (window 64 64).cnt = (window 64 64).n) ∧
    ((window 64 63).phase = .run ∧ (window 64 63).cnt < (window 64 63).n) ∧ idle.sb.phase ≠ .run := by decide
/-- A stream as long as the suffix and one a byte shorter. -/
theorem witness_SuffixSplitIndependence : Ready idle ∧ idle.sb.phase = .idle ∧ (2 : BitVec 8).toNat ≤ 64 ∧
    Chunks [[1], [2]] ∧ (2 : BitVec 8).toNat ≤ ([[1], [2]] : List (List Byte)).flatten.length ∧
    Chunks [[1]] ∧ ([[1]] : List (List Byte)).flatten.length < (2 : BitVec 8).toNat := by
  refine ⟨ready_idle, rfl, by decide, ?_, by decide, ?_, by decide⟩ <;> simp [Chunks, Config.chunkMax]
/-- Keys of the shortest length, of exactly `Hb` bytes and of the greatest length (longer than `Hb`), on an idle unit; a busy
unit; an empty key. -/
theorem witness_McSetkeyStoresThePads :
    (idle.mc.phase = .idle ∧ (1 : BitVec 16) ≠ 0 ∧ (1 : BitVec 16).toNat ≤ ({ idle with din := [1] } : State).din.length ∧
      (1 : BitVec 16).toNat ≤ Config.hasher.hb) ∧
    (BitVec.ofNat 16 Config.hasher.hb ≠ 0 ∧ (BitVec.ofNat 16 Config.hasher.hb).toNat = Config.hasher.hb ∧
      Config.hasher.hb ≤ ({ idle with din := List.replicate Config.hasher.hb 1 } : State).din.length) ∧
    ((0xffff : BitVec 16).toNat ≤ ({ idle with din := bigChunk } : State).din.length ∧ (0xffff : BitVec 16) ≠ 0 ∧
      Config.hasher.hb < (0xffff : BitVec 16).toNat) ∧
    (busy 0 []).mc.phase ≠ .idle ∧ (0 : BitVec 16).toNat ≤ idle.din.length := by
  have h1 := Config.hasher.hd_pos
  have h2 := Config.hasher.hd_le_hb
  have h3 := Config.hasher.hb_le
  have hb : (BitVec.ofNat 16 Config.hasher.hb).toNat = Config.hasher.hb := by
    rw [BitVec.toNat_ofNat]
    omega
  have hne : BitVec.ofNat 16 Config.hasher.hb ≠ 0 := fun e => by
    have zero : (0 : BitVec 16).toNat = 0 := rfl
    rw [e, zero] at hb
    omega
  have one : (1 : BitVec 16).toNat = 1 := rfl
  have top : (0xffff : BitVec 16).toNat = 65535 := rfl
  exact ⟨⟨rfl, by decide, by decide, by omega⟩, ⟨hne, hb, by simp⟩, ⟨bigChunk_carried, by decide, by omega⟩, by decide, by decide⟩
theorem witness_McStartBeginsAnOperation : (idle.mc.phase = .idle ∧ idle.sb.phase = .idle ∧ idle.mc.keyed = true) ∧
    (busy 0 []).mc.phase ≠ .idle ∧ (busy 0 []).sb.phase ≠ .idle ∧
    (State.reset.mc.phase = .idle ∧ State.reset.mc.keyed = false ∧ State.reset.sb.phase = .idle) := by decide
theorem witness_McDataAccumulatesTheBody : (0xffff : BitVec 16).toNat ≤ (busy 0 bigChunk).din.length ∧
    (busy 0 bigChunk).mc.phase = .tag ∧ (checking (zeroBytes 64)).mc.phase = .chk ∧
    (0 : BitVec 16).toNat ≤ (checking (zeroBytes 64)).din.length ∧ idle.mc.phase = .idle :=
  ⟨bigChunk_carried, rfl, rfl, Nat.le_refl _, rfl⟩
theorem witness_McEndAppendsTheTag : (busy 0 []).mc.phase = .tag ∧ idle.mc.phase = .idle := by decide
theorem witness_McEndComparesTheTag :
    (checking (fit 64 checkTag)).mc.phase = .chk ∧ (checking (fit 64 checkTag)).sb.cnt = (checking (fit 64 checkTag)).sb.n ∧
    (checking (fit 64 checkTag)).sb.w.toList.take Config.hasher.hd = checkTag ∧
    (checking (fit 64 (checkTag.map (· ^^^ 1)))).sb.w.toList.take Config.hasher.hd ≠ checkTag ∧
    (window 64 63).cnt < (window 64 63).n :=
  ⟨rfl, rfl, window_take checkTag_length, changed_ne_checkTag (by decide), by decide⟩
theorem witness_MismatchRevealsNoPosition :
    (checking (zeroBytes 64)).mc.phase = .chk ∧ (checking (zeroBytes 64)).sb.cnt = (checking (zeroBytes 64)).sb.n ∧
    (fit 64 (checkTag.map (· ^^^ 1))).toList.take Config.hasher.hd ≠ checkTag ∧
    (fit 64 (checkTag.map (· ^^^ 0x80))).toList.take Config.hasher.hd ≠ checkTag :=
  ⟨rfl, rfl, changed_ne_checkTag (by decide), changed_ne_checkTag (by decide)⟩
theorem witness_TagStreamIsMac : Ready idle ∧ idle.mc.phase = .idle ∧ idle.mc.keyed = true ∧ Chunks [[], bigChunk, [1]] :=
  ⟨ready_idle, rfl, rfl, chunks_big⟩
/-- A stream of exactly `Hd` bytes. -/
theorem witness_CheckStreamVerdict : Ready idle ∧ idle.mc.phase = .idle ∧ idle.sb.phase = .idle ∧ idle.mc.keyed = true ∧
    Chunks [List.replicate Config.hasher.hd 0] ∧
    Config.hasher.hd ≤ ([List.replicate Config.hasher.hd 0] : List (List Byte)).flatten.length :=
  ⟨ready_idle, rfl, rfl, rfl, chunks_hd, by simp⟩
/-- The empty stream and a stream of exactly `Hd` bytes. -/
theorem witness_ShortStreamsNeverMatch : Ready idle ∧ idle.mc.phase = .idle ∧ idle.sb.phase = .idle ∧ idle.mc.keyed = true ∧
    (Chunks [[]] ∧ ([[]] : List (List Byte)).flatten.length < Config.hasher.hd) ∧
    Chunks [List.replicate Config.hasher.hd 0] ∧
    ([List.replicate Config.hasher.hd 0] : List (List Byte)).flatten.length = Config.hasher.hd :=
  ⟨ready_idle, rfl, rfl, rfl, ⟨by simp [Chunks], Config.hasher.hd_pos⟩, chunks_hd, by simp⟩
/-- A tag operation over the empty message, its output byte by byte as the chunks of the check. -/
theorem witness_MacRoundTrip : Ready idle ∧ idle.mc.phase = .idle ∧ idle.sb.phase = .idle ∧ idle.mc.keyed = true ∧ Chunks [] ∧
    ∃ t cs', runSeq (mcStream .tag false []) idle = .next t ∧ Chunks cs' ∧ cs'.flatten = t.dout.drop idle.dout.length := by
  have h : after (runSeq (mcStream .tag false []) idle) (fun _ => ()) = some () := by decide +kernel
  obtain ⟨t, ht, _⟩ := next_of_after h
  exact ⟨ready_idle, rfl, rfl, rfl, by simp [Chunks], t, singles t.dout, ht, singles_chunks _, singles_flatten _⟩
theorem witness_ResetEventZeroesEverything : ({ busy 0x45000000 [1] with rstReq := true } : State).rstReq = true := rfl
/-- A step of a busy machine in which the invariants hold: `FC.HASKEY` answered while everything runs. -/
theorem witness_StepKeepsPhases : Phases Config.hasher (busy 0x12000000 []) ∧
    ∃ t, step (busy 0x12000000 []) = .next t :=
  ⟨⟨fun _ => rfl, fun _ => rfl, by decide, by decide, by decide, fun _ => rfl⟩, _, rfl⟩
theorem witness_StepKeepsZeroed : Phases Config.hasher (busy 0x12000000 []) ∧ Zeroed (busy 0x12000000 []) ∧
    ∃ t, step (busy 0x12000000 []) = .next t :=
  ⟨witness_StepKeepsPhases.1, ⟨rfl, rfl, rfl, rfl, rfl, rfl, rfl, fun _ => rfl, fun _ => rfl, fun _ => rfl, fun _ => rfl,
    fun _ => rfl, fun _ => rfl, fun _ => rfl, fun _ => rfl⟩, _, rfl⟩
theorem witness_StepKeepsBuffers : Phases Config.hasher (busy 0x12000000 []) ∧
    Buffers Config.hasher (busy 0x12000000 []) ∧ ∃ t, step (busy 0x12000000 []) = .next t := by
  have pads : ∀ k : Fin 128, (busy 0x12000000 []).mc.ipad[k.val] = 0 ∧ (busy 0x12000000 []).mc.opad[k.val] = 0 := by decide
  exact ⟨witness_StepKeepsPhases.1, ⟨by decide, by decide, fun _ => rfl, fun _ => rfl, fun _ => rfl,
    fun k _ => (pads k).1, fun k _ => (pads k).2⟩, _, rfl⟩
theorem witness_KeysAreConstantDuringOperations : (busy 0x21000000 []).rstReq = false ∧
    (∃ t, step (busy 0x21000000 []) = .next t) ∧ (busy 0x21000000 []).mp.phase = .run ∧
    (busy 0x21000000 []).mc.phase ≠ .idle := ⟨rfl, ⟨_, rfl⟩, rfl, by decide⟩
/-- Two states that differ in every data byte of unit FC's schedule, of the held-back block and of the payload. -/
theorem witness_PortEventsAreDataIndependent :
    shape (busy 0x13000008 (hex 8 1)) =
      shape { busy 0x13000008 (hex 8 2) with fc := { Fc.reset with keyed := true, rk := Vector.replicate 16 7 } } ∧
    dataDependentEnd .fcEncblk (busy 0x13000008 (hex 8 1)) = false := by decide
theorem witness_UnitsShareNothing : Instr.fcEncblk.unit = 1 ∧ Instr.mpEnd.unit = 2 ∧ Instr.sbEnd.unit = 3 ∧
    Instr.mcEnd.unit = 4 ∧ (busy 0 []).mc.phase ≠ .chk ∧ ∀ quiet, Instr.mcEnd ≠ .mcStart .check quiet := by decide
/-- The empty plaintext in CTR; what `AENC` gives, byte by byte, as the chunks of the second sequence. -/
theorem witness_AuthenticatedRoundTrip : Ready idle ∧ CanStart idle .ctr ∧ idle.mc.phase = .idle ∧ idle.mc.keyed = true ∧
    idle.sb.phase = .idle ∧ ∃ (tagged : List Byte) (t : State) (cs' : List (List Byte)), aenc .ctr .zero [] idle = some (tagged, t) ∧ cs'.flatten = tagged := by
  have h : (aenc .ctr .zero [] idle).isSome = true := by decide +kernel
  obtain ⟨⟨tagged, t⟩, ht⟩ := Option.isSome_iff_exists.mp h
  exact ⟨ready_idle, canStart_idle _, rfl, rfl, rfl, tagged, t, singles tagged, ht, singles_flatten _⟩

end Sys2Proof.Tests
end

section
/-! What a command does with its payload: it takes exactly its bytes from DIN and zeroes `rxbuf` before it responds,
whatever its outcome (10_state.md R50, 20_memory.md R62). Every exit of a command settles, in the sense below; one lemma per
command says so by the branches of its meaning. -/

namespace Sys2Proof.Machine

/-! ### Shared operations of units SYS and MC as one update each -/

/-- The end of an operation of unit MC as one update: the window is released on the check path alone, the Hasher reset when
there was an operation (R282, R264). -/
theorem State.abortMc_eq (s : State) :
    s.abortMc = { s with
      mc := s.mc.clear
      hAcc := if s.mc.phase = .idle then s.hAcc else []
      sb := if s.mc.phase = .chk then s.sb.clear else s.sb } := by
  cases h : s.mc.phase <;> simp [State.abortMc, State.hReset, h]

/-- The end of a host stream of unit SB as one update: a window that unit MC owns stays (R282). -/
theorem State.abortSb_eq (s : State) :
    s.abortSb = { s with sb := if s.sb.phase = .run then s.sb.clear else s.sb } := by
  unfold State.abortSb
  split <;> rfl

/-- Hashing a long key leaves the Hasher reset, and a short key does not touch it (R252). -/
theorem State.macHashKey_snd (h : Hasher) (s : State) :
    (s.macHashKey h).2 = { s with hAcc := if h.hb < s.rxbuf.length then [] else s.hAcc } := by
  unfold State.macHashKey
  split <;> rfl

@[simp] theorem State.macHashKey_din (h : Hasher) (s : State) : (s.macHashKey h).2.din = s.din := by
  rw [State.macHashKey_snd]

/-- With no operation in progress a chunk does nothing (R257). -/
theorem State.mcFeed_idle (s : State) (l : List Byte) (h : s.mc.phase = .idle) : s.mcFeed l = s := by
  induction l with
  | nil => rfl
  | cons b bs ih => rw [State.mcFeed, show s.mcByte b = s by simp [State.mcByte, h], ih]

/-- A chunk takes nothing from DIN: its bytes are in `rxbuf` already (R257, R62). -/
@[simp] theorem State.mcFeed_din (s : State) (l : List Byte) : (s.mcFeed l).din = s.din := by
  cases h : s.mc.phase with
  | idle => rw [s.mcFeed_idle l h]
  | tag => rw [s.mcFeed_tag l h]
  | chk => rw [s.mcFeed_chk l h]

/-! ### Commands that end settled -/

/-- Where every command leaves the payload side of the core: `rxbuf` zero and `d` still on DIN (R50, R62). -/
def State.Settled (s : State) (d : List Byte) : Prop := s.rxbuf = [] ∧ s.din = d

/-- What is done with a payload once it is in `rxbuf` zeroes `rxbuf` and takes nothing more from DIN (R50). -/
def ZeroesRx (run : State → State) : Prop := ∀ s, (run s).Settled s.din

/-- The command answers a next state, which is settled. -/
def Settles (r : Result) (d : List Byte) : Prop := ∃ t, r = .next t ∧ t.Settled d

/-- An answer or a response settles when `rxbuf` is zero already (R95). -/
theorem State.answer_settled {s : State} {c : Code} {aux : BitVec 16} (h : s.rxbuf = []) :
    (s.answer c aux).Settled s.din := ⟨h, rfl⟩

theorem State.respond_settled {s : State} {c : Code} {aux : BitVec 16} (h : s.rxbuf = []) :
    (s.respond c aux).Settled s.din := ⟨h, rfl⟩

/-- The error exit settles whatever is in `rxbuf` (R310). -/
theorem State.fail_settled {s : State} {c : Code} : (s.fail c).Settled s.din := ⟨rfl, rfl⟩

/-- So does the successful end of a payload command (R50). -/
theorem State.finish_settled {s : State} : s.finish.Settled s.din := ⟨rfl, rfl⟩

/-- A meaning that answers a settled state settles. -/
theorem State.Settled.settles {t : State} {d : List Byte} (h : t.Settled d) : Settles (.next t) d := ⟨t, rfl, h⟩

/-- A command takes exactly its payload when what it does with it takes no more and zeroes `rxbuf` (R50, R62). -/
theorem ZeroesRx.settles {run : State → State} (h : ZeroesRx run) {s : State} {n : Nat} (hn : n ≤ s.din.length) :
    Settles (.next (s.withPayload n run)) (s.din.drop n) := by
  rw [s.withPayload_of_le run hn]
  exact (h { s with rxbuf := s.din.take n, din := s.din.drop n }).settles

/-! ### The commands with a payload -/

theorem State.blockCommand_settled (s : State) (ks : List (BitVec 48)) : (s.blockCommand ks).Settled s.din := by
  unfold State.blockCommand
  split
  · exact State.finish_settled
  · exact State.fail_settled

theorem State.macSetkey_settled (H : Hasher) (len : Nat) (s : State) : (s.macSetkey H len).Settled s.din := by
  unfold State.macSetkey
  split
  · exact State.fail_settled
  · split
    · exact State.fail_settled
    · exact ⟨rfl, s.macHashKey_din H⟩

theorem execFcSetkey_settles (len : BitVec 16) {s : State} (h : len.toNat ≤ s.din.length) :
    Settles (execFcSetkey len s) (s.din.drop len.toNat) := by
  refine ZeroesRx.settles (fun u => ?_) h
  split
  · exact State.fail_settled
  · split
    · exact State.fail_settled
    · exact State.finish_settled

theorem execMpSetiv_settles {s : State} (h : 8 ≤ s.din.length) : Settles (execMpSetiv s) (s.din.drop 8) := by
  refine ZeroesRx.settles (fun u => ?_) h
  exact State.finish_settled

theorem execMpData_settles (len : BitVec 16) {s : State} (h : len.toNat ≤ s.din.length) :
    Settles (execMpData len s) (s.din.drop len.toNat) := by
  refine ZeroesRx.settles (fun u => ?_) h
  split
  · exact State.fail_settled
  · exact State.finish_settled

theorem execSbData_settles (len : BitVec 16) {s : State} (h : len.toNat ≤ s.din.length) :
    Settles (execSbData len s) (s.din.drop len.toNat) := by
  refine ZeroesRx.settles (fun u => ?_) h
  split
  · exact State.fail_settled
  · exact State.finish_settled

theorem execMcData_settles (len : BitVec 16) {s : State} (h : len.toNat ≤ s.din.length) :
    Settles (execMcData len s) (s.din.drop len.toNat) := by
  refine ZeroesRx.settles (fun u => ?_) h
  split
  · exact State.fail_settled
  · simpa using State.finish_settled (s := u.mcFeed u.rxbuf)

/-! ### The commands without one

From a state with `rxbuf` zero the response alone settles: none of these commands writes `rxbuf` or DIN. -/

section
variable {s : State} (h : s.rxbuf = [])
include h

theorem State.readStatus_settled (H : Hasher) (idx : BitVec 8) : (s.readStatus H idx).Settled s.din := by
  unfold State.readStatus
  split
  · exact State.answer_settled h
  · exact State.fail_settled

theorem execAbort_settles (u : AbortUnit) : Settles (execAbort u s) s.din := by
  refine State.Settled.settles ?_
  cases u with
  | all =>
    rw [State.abortSb_eq, State.abortMc_eq]
    exact State.respond_settled h
  | mp => exact State.respond_settled h
  | mc =>
    dsimp only
    rw [State.abortMc_eq]
    exact State.respond_settled h
  | sb =>
    dsimp only
    rw [State.abortSb_eq]
    split
    · exact State.fail_settled
    · exact State.respond_settled h

theorem execFcRmkey_settles : Settles (execFcRmkey s) s.din := by
  refine State.Settled.settles ?_
  split
  · exact State.fail_settled
  · exact State.respond_settled h

theorem execMpStart_settles (mode : Mode) (dir : Dir) (pad : Pad) : Settles (execMpStart mode dir pad s) s.din := by
  refine State.Settled.settles ?_
  split
  · exact State.fail_settled
  · split
    · exact State.fail_settled
    · split
      · exact State.fail_settled
      · exact State.respond_settled h

theorem State.mpEndDecrypt_settled : s.mpEndDecrypt.Settled s.din := by
  unfold State.mpEndDecrypt
  split
  · exact State.fail_settled
  · split
    · exact State.fail_settled
    · exact State.respond_settled h

theorem execMpEnd_settles : Settles (execMpEnd s) s.din := by
  refine State.Settled.settles ?_
  split
  · exact State.fail_settled
  · split
    · exact State.respond_settled h
    · exact State.respond_settled h
    · exact State.mpEndDecrypt_settled h

theorem execSbStart_settles (n : BitVec 8) : Settles (execSbStart n s) s.din := by
  refine State.Settled.settles ?_
  split
  · split
    · exact State.fail_settled
    · exact State.respond_settled h
  · exact State.fail_settled

theorem execSbEnd_settles : Settles (execSbEnd s) s.din := by
  refine State.Settled.settles ?_
  split
  · exact State.fail_settled
  · split
    · exact State.fail_settled
    · exact State.respond_settled h

theorem execMcRmkey_settles : Settles (execMcRmkey s) s.din := by
  refine State.Settled.settles ?_
  split
  · exact State.fail_settled
  · exact State.respond_settled h

theorem State.macStart_settled (H : Hasher) (path : Path) (quiet : Bool) : (s.macStart H path quiet).Settled s.din := by
  unfold State.macStart
  split
  · exact State.fail_settled
  · split
    · exact State.fail_settled
    · split
      · exact State.fail_settled
      · cases path <;> exact State.respond_settled h

theorem State.macEndTag_settled (H : Hasher) : (s.macEndTag H).Settled s.din := by
  unfold State.macEndTag
  rw [State.mcFinish_eq]
  exact State.respond_settled h

theorem State.macEndCheck_settled (H : Hasher) : (s.macEndCheck H).Settled s.din := by
  unfold State.macEndCheck
  rw [State.mcFinish_eq]
  split
  · exact State.fail_settled
  · dsimp only
    split
    · exact State.fail_settled
    · exact State.respond_settled h

theorem State.macEnd_settled (H : Hasher) : (s.macEnd H).Settled s.din := by
  unfold State.macEnd
  split
  · exact State.fail_settled
  · exact State.macEndTag_settled h H
  · exact State.macEndCheck_settled h H

end

/-- Every command takes exactly its payload and ends with `rxbuf` zero (R50): one lemma per command. -/
theorem exec_settles (i : Instr) {s : State} (hn : i.len.toNat ≤ s.din.length) (h : s.rxbuf = []) :
    Settles (exec i s) (s.din.drop i.len.toNat) := by
  cases i with
  | nop => exact State.Settled.settles (State.answer_settled h)
  | rdsr idx => exact (State.readStatus_settled h _ idx).settles
  | abort u => exact execAbort_settles h u
  | fcSetkey len => exact execFcSetkey_settles len hn
  | fcRmkey => exact execFcRmkey_settles h
  | fcHaskey => exact State.Settled.settles (State.respond_settled h)
  | fcEncblk => exact ZeroesRx.settles (fun u => u.blockCommand_settled _) hn
  | fcDecblk => exact ZeroesRx.settles (fun u => u.blockCommand_settled _) hn
  | mpSetiv => exact execMpSetiv_settles hn
  | mpRmiv => exact State.Settled.settles (State.respond_settled h)
  | mpStart mode dir pad => exact execMpStart_settles h mode dir pad
  | mpData len => exact execMpData_settles len hn
  | mpEnd => exact execMpEnd_settles h
  | sbStart n => exact execSbStart_settles h n
  | sbData len => exact execSbData_settles len hn
  | sbEnd => exact execSbEnd_settles h
  | mcSetkey len => exact ZeroesRx.settles (State.macSetkey_settled _ len.toNat) hn
  | mcRmkey => exact execMcRmkey_settles h
  | mcHaskey => exact State.Settled.settles (State.respond_settled h)
  | mcStart path quiet => exact (State.macStart_settled h _ path quiet).settles
  | mcData len => exact execMcData_settles len hn
  | mcEnd => exact (State.macEnd_settled h _).settles

end Sys2Proof.Machine

namespace Sys2Proof

open Machine

/-- Settles O9: every command answers a next state, and that state is settled. -/
theorem payloadConsumedAndZeroed : Obligations.PayloadConsumedAndZeroed := by
  intro i s hn h
  obtain ⟨t, ht, hrx, hdin⟩ := exec_settles i hn h
  exact ⟨t, ht, hrx, hdin⟩

end Sys2Proof
end

section
/-! What each status register shows, field by field (10_state.md R55 to R59, 70_reset_and_hazards.md R331). A register is a
concatenation of its fields, so a field is read back by the library's rules for a bit or a slice of a concatenation. -/

namespace Sys2Proof.Machine

/-- The one-bit fields of `SR0 STATUS` (R55). -/
theorem sr0_flags (s : State) :
    (sr0 s).getLsbD 0 = s.fc.keyed ∧ (sr0 s).getLsbD 1 = s.mp.ivValid ∧ (sr0 s).getLsbD 2 = s.mc.keyed ∧
    (sr0 s).getLsbD 3 = false := by
  simp only [sr0, BitVec.getLsbD_append, BitVec.getLsbD_ofBool]
  simp

/-- The phases, the gap and the code in `SR0 STATUS` (R55). -/
theorem sr0_codes (s : State) :
    (sr0 s).extractLsb' 4 2 = s.mp.phase.bits ∧ (sr0 s).extractLsb' 6 2 = s.sb.phase.bits ∧
    (sr0 s).extractLsb' 8 2 = s.mc.phase.bits ∧ (sr0 s).extractLsb' 10 2 = 0 ∧
    (sr0 s).extractLsb' 12 4 = s.lastCode.bits := by
  simp (disch := decide) only [sr0, BitVec.extractLsb'_append_eq_of_le, BitVec.extractLsb'_append_eq_of_add_le]
  simp

/-- The fields of `SR1 MPCFG` (R56); `mp_fill` is at most 7, so its four bits hold it whole. -/
theorem sr1_fields (s : State) :
    (sr1 s).extractLsb' 0 2 = s.mp.mode.toBits ∧ (sr1 s).getLsbD 2 = s.mp.dir.toBit ∧
    (sr1 s).getLsbD 3 = s.mp.pad.toBit ∧ ((sr1 s).extractLsb' 4 4).toNat = s.mp.fill.val ∧
    (sr1 s).getLsbD 8 = s.mp.prevValid ∧ (sr1 s).extractLsb' 9 7 = 0 := by
  have hfill : s.mp.fill.val % 2 ^ 4 = s.mp.fill.val := Nat.mod_eq_of_lt (by omega)
  simp (disch := decide) only [sr1, BitVec.getLsbD_append, BitVec.getLsbD_ofBool,
    BitVec.extractLsb'_append_eq_of_le, BitVec.extractLsb'_append_eq_of_add_le]
  simpa using hfill

/-- The two bytes of a register made of two numbers below 256, as numbers. -/
theorem bytePair_fields {hi lo : Nat} (hhi : hi < 256) (hlo : lo < 256) :
    ((BitVec.ofNat 8 hi ++ BitVec.ofNat 8 lo).extractLsb' 0 8).toNat = lo ∧
    ((BitVec.ofNat 8 hi ++ BitVec.ofNat 8 lo).extractLsb' 8 8).toNat = hi := by
  rw [BitVec.extractLsb'_append_eq_right, BitVec.extractLsb'_append_eq_left]
  exact ⟨Nat.mod_eq_of_lt hlo, Nat.mod_eq_of_lt hhi⟩

/-- The fields of `SR2 SBCFG` (R57); `sb_cnt ≤ sb_n ≤ 64`, so each fits in its byte. -/
theorem sr2_fields (s : State) :
    ((sr2 s).extractLsb' 0 8).toNat = s.sb.n ∧ ((sr2 s).extractLsb' 8 8).toNat = s.sb.cnt := by
  have hn := s.sb.n_le
  have hcnt := s.sb.cnt_le
  exact bytePair_fields (by omega) (by omega)

/-- The fields of `SR3 MCCFG` (R58). -/
theorem sr3_fields (s : State) :
    (sr3 s).getLsbD 0 = s.mc.path.toBit ∧ (sr3 s).getLsbD 1 = s.mc.quiet ∧ (sr3 s).extractLsb' 2 14 = 0 := by
  simp (disch := decide) only [sr3, BitVec.getLsbD_append, BitVec.getLsbD_ofBool,
    BitVec.extractLsb'_append_eq_of_le]
  simp

/-- The fields of `SR5 PARAM1` (R59); `Hd ≤ 64` and `Hb ≤ 128` (R7), so each fits in its byte. -/
theorem sr5_fields (h : Hasher) : ((sr5 h).extractLsb' 0 8).toNat = h.hd ∧ ((sr5 h).extractLsb' 8 8).toNat = h.hb := by
  have hhd := h.hd_le
  have hhb := h.hb_le
  exact bytePair_fields (by omega) (by omega)

/-- `SR5` as a number (R331). -/
theorem sr5_toNat (h : Hasher) : (sr5 h).toNat = h.hb * 256 + h.hd := by
  have hhd : h.hd < 2 ^ 8 := lt_of_le_of_lt h.hd_le (by decide)
  have hhb : h.hb < 2 ^ 8 := lt_of_le_of_lt h.hb_le (by decide)
  rw [sr5, BitVec.toNat_append, BitVec.toNat_ofNat, BitVec.toNat_ofNat, Nat.mod_eq_of_lt hhd, Nat.mod_eq_of_lt hhb,
    ← Nat.shiftLeft_add_eq_or_of_lt hhd, Nat.shiftLeft_eq]

/-- An index above 5 names no register (R59, R93). -/
theorem statusRegister_of_gt (h : Hasher) (s : State) {idx : BitVec 8} (hidx : 5 < idx.toNat) :
    statusRegister h s idx = none := by
  unfold statusRegister
  split
  case h_7 => rfl
  all_goals omega

/-- After reset the four registers that show state read 0 (R331). -/
theorem sr_reset : sr0 State.reset = 0 ∧ sr1 State.reset = 0 ∧ sr2 State.reset = 0 ∧ sr3 State.reset = 0 := by
  decide

end Sys2Proof.Machine

namespace Sys2Proof

open Machine

/-- Settles O13, register by register: the fields of each, what each reads after reset, and that no index is above 5. -/
theorem statusRegisterFields : Obligations.StatusRegisterFields := by
  obtain ⟨hr0, hr1, hr2, hr3⟩ := sr_reset
  refine ⟨fun s => ?_, congrArg some hr0, congrArg some hr1, congrArg some hr2, congrArg some hr3, rfl,
    ⟨sr5 Config.hasher, rfl, sr5_toNat _⟩, fun s _ hidx => statusRegister_of_gt _ s hidx⟩
  obtain ⟨hfc, hiv, hmc, hgap⟩ := sr0_flags s
  exact ⟨sr0 s, sr1 s, sr2 s, sr3 s, sr5 Config.hasher, rfl, rfl, rfl, rfl, rfl, rfl,
    ⟨hfc, hiv, hmc, hgap, sr0_codes s⟩, sr1_fields s, sr2_fields s, sr3_fields s, sr5_fields _⟩

end Sys2Proof
end

section
/-! Which words the decoder refuses, unit by unit, and what a refused word does (30_encoding.md R100 to R104). -/

namespace Sys2Proof

open Machine

/-! ### Refusal by one row of the table -/

/-- The decoder's answer is a refusal: the word is reserved (R100). -/
def Refuses (r : Except DecodeError Instr) : Prop := ∃ e, r = .error e

theorem refuses_error (e : DecodeError) : Refuses (.error e) := ⟨e, rfl⟩

/-- A row of the table refuses a word whose `arg` or whose `len` breaks its constraint (R100). -/
theorem refuses_accept (argOk lenOk : Bool) (i : Instr) :
    Refuses (accept argOk lenOk i) ↔ argOk = false ∨ lenOk = false := by
  cases argOk <;> cases lenOk <;> simp [accept, Refuses]

/-- A reserved bit is set exactly when the value reaches the lowest of the reserved bits. -/
theorem reservedBits_iff {n k m : Nat} (hn : n = k + m) (x : BitVec n) :
    (x.extractLsb' k m == 0) = false ↔ 2 ^ k ≤ x.toNat := by
  have hx : x.toNat / 2 ^ k < 2 ^ m := Nat.div_lt_of_lt_mul (by rw [← Nat.pow_add, ← hn]; exact x.isLt)
  have hdiv : (x.extractLsb' k m).toNat = x.toNat / 2 ^ k := by
    rw [BitVec.extractLsb'_toNat, Nat.shiftRight_eq_div_pow, Nat.mod_eq_of_lt hx]
  rw [beq_eq_false_iff_ne, ← BitVec.toNat_ne_iff_ne, hdiv]
  simp [Nat.div_eq_zero_iff]

/-- The values of `arg` that name no unit for `ABORT` (R93). -/
theorem AbortUnit.ofArg_eq_none_iff (arg : BitVec 8) :
    AbortUnit.ofArg arg = none ↔ arg.toNat ≠ 0 ∧ arg.toNat ≠ 2 ∧ arg.toNat ≠ 3 ∧ arg.toNat ≠ 4 := by
  unfold AbortUnit.ofArg
  split
  case h_5 h0 h2 h3 h4 => exact ⟨fun _ => ⟨h0, h2, h3, h4⟩, fun _ => rfl⟩
  all_goals simp [*]

/-- Mode 3 alone has no name (R93). -/
theorem Mode.ofBits_eq_none_iff (b : BitVec 2) : Mode.ofBits b = none ↔ b.toNat = 3 := by
  revert b
  decide

/-- What the row of `ABORT` refuses (R93). -/
theorem refuses_decodeAbort (arg : BitVec 8) (len : BitVec 16) :
    Refuses (decodeAbort arg len) ↔ AbortUnit.ofArg arg = none ∨ (len == 0) = false := by
  unfold decodeAbort
  cases AbortUnit.ofArg arg with
  | none => simp [refuses_error]
  | some u => simp [refuses_accept]

/-- What the row of `MP.START` refuses: mode 3 and a set bit of `arg[7:4]` (R93). -/
theorem refuses_decodeMpStart (arg : BitVec 8) (len : BitVec 16) :
    Refuses (decodeMpStart arg len) ↔ arg.toNat % 4 = 3 ∨ 16 ≤ arg.toNat ∨ (len == 0) = false := by
  have hmode : Mode.ofBits (arg.extractLsb' 0 2) = none ↔ arg.toNat % 4 = 3 := by
    simp [Mode.ofBits_eq_none_iff]
  have hhigh : (arg.extractLsb' 4 4 == 0) = false ↔ 16 ≤ arg.toNat :=
    reservedBits_iff (k := 4) (m := 4) rfl arg
  rw [← hmode, ← hhigh]
  unfold decodeMpStart
  cases Mode.ofBits (arg.extractLsb' 0 2) with
  | none => simp [refuses_error]
  | some m => simp [refuses_accept]

/-! ### Refusal unit by unit -/

/-- A word of unit 5 to 15 is refused (R100). -/
theorem decode_of_unit_ge {w : Word} (hu : 5 ≤ (unitField w).toNat) : decode w = .error .reservedUnit := by
  obtain ⟨u, hu⟩ := Nat.exists_eq_add_of_le' hu
  simp only [decode, hu]

section
variable {w : Word}

/-- Unit SYS: three operations, none with a payload; `RDSR` names a register 0 to 5 (R92 to R94). -/
theorem refuses_unit_sys (hu : (unitField w).toNat = 0) :
    Refuses (decode w) ↔
      3 ≤ (opField w).toNat ∨ (lenField w).toNat ≠ 0 ∨
      ((opField w).toNat = 0 ∧ (argField w).toNat ≠ 0) ∨ ((opField w).toNat = 1 ∧ 5 < (argField w).toNat) ∨
      ((opField w).toNat = 2 ∧ AbortUnit.ofArg (argField w) = none) := by
  unfold decode
  rw [hu]
  match (opField w).toNat with
  | 0 | 1 => simp [refuses_accept, BitVec.toNat_eq, or_comm]
  | 2 => simp [refuses_decodeAbort, BitVec.toNat_eq, or_comm]
  | o + 3 => simp [refuses_error]

/-- Unit FC: five operations; `FC.SETKEY` takes any payload and a block operation one of 8 bytes (R92 to R94). -/
theorem refuses_unit_fc (hu : (unitField w).toNat = 1) :
    Refuses (decode w) ↔
      5 ≤ (opField w).toNat ∨ (argField w).toNat ≠ 0 ∨
      ((opField w).toNat ∈ [1, 2] ∧ (lenField w).toNat ≠ 0) ∨ ((opField w).toNat ∈ [3, 4] ∧ (lenField w).toNat ≠ 8) := by
  unfold decode
  rw [hu]
  match (opField w).toNat with
  | 0 | 1 | 2 | 3 | 4 => simp [refuses_accept, BitVec.toNat_eq]
  | o + 5 => simp [refuses_error]

/-- Unit MP: five operations; `MP.SETIV` takes 8 bytes and `MP.DATA` any payload; `MP.START` has operands (R92 to R94). -/
theorem refuses_unit_mp (hu : (unitField w).toNat = 2) :
    Refuses (decode w) ↔
      5 ≤ (opField w).toNat ∨ ((opField w).toNat ≠ 2 ∧ (argField w).toNat ≠ 0) ∨
      ((opField w).toNat = 2 ∧ ((argField w).toNat % 4 = 3 ∨ 16 ≤ (argField w).toNat)) ∨
      ((opField w).toNat = 0 ∧ (lenField w).toNat ≠ 8) ∨ ((opField w).toNat ∈ [1, 2, 4] ∧ (lenField w).toNat ≠ 0) := by
  unfold decode
  rw [hu]
  match (opField w).toNat with
  | 0 | 1 | 3 | 4 => simp [refuses_accept, BitVec.toNat_eq]
  | 2 => simp [refuses_decodeMpStart, BitVec.toNat_eq, or_assoc]
  | o + 5 => simp [refuses_error]

/-- Unit SB: three operations; `SB.START` names at most `NMAX` and `SB.DATA` takes any payload (R92 to R94, R104). -/
theorem refuses_unit_sb (hu : (unitField w).toNat = 3) :
    Refuses (decode w) ↔
      3 ≤ (opField w).toNat ∨ ((opField w).toNat = 0 ∧ 64 < (argField w).toNat) ∨
      ((opField w).toNat ≠ 0 ∧ (argField w).toNat ≠ 0) ∨ ((opField w).toNat ≠ 1 ∧ (lenField w).toNat ≠ 0) := by
  unfold decode
  rw [hu]
  match (opField w).toNat with
  | 0 =>
    simp only [refuses_accept, decide_eq_false_iff_not]
    simp [BitVec.toNat_eq, Config.nmax]
  | 1 | 2 => simp [refuses_accept, BitVec.toNat_eq]
  | o + 3 => simp [refuses_error]

/-- Unit MC: six operations; `MC.SETKEY` and `MC.DATA` take any payload; `MC.START` has two operand bits (R92 to R94). -/
theorem refuses_unit_mc (hu : (unitField w).toNat = 4) :
    Refuses (decode w) ↔
      6 ≤ (opField w).toNat ∨ ((opField w).toNat = 3 ∧ 4 ≤ (argField w).toNat) ∨
      ((opField w).toNat ≠ 3 ∧ (argField w).toNat ≠ 0) ∨ ((opField w).toNat ∉ [0, 4] ∧ (lenField w).toNat ≠ 0) := by
  unfold decode
  rw [hu]
  match (opField w).toNat with
  | 0 | 1 | 2 | 4 | 5 => simp [refuses_accept, BitVec.toNat_eq]
  | 3 =>
    simp only [refuses_accept, reservedBits_iff (k := 2) (m := 6) rfl]
    simp [BitVec.toNat_eq]
  | o + 6 => simp [refuses_error]

end

/-! ### The step of a reserved word -/

/-- With no reset asserted a step runs a reserved word as R102 says. -/
theorem step_of_reserved {s : State} {w : Word} {rest : List Word} {e : DecodeError} (hr : s.rstReq = false)
    (hc : s.cmd = w :: rest) (hd : decode w = .error e) : step s = execReserved w s := by
  simp [step, hr, hc, hd]

/-- Settles O3: each unit refuses what R100 names for it. -/
theorem reservedWordsExactly : Obligations.ReservedWordsExactly := by
  intro w
  change Refuses (decode w) ↔ _
  match hu : (unitField w).toNat with
  | 0 =>
    rw [refuses_unit_sys hu]
    simp [AbortUnit.ofArg_eq_none_iff]
    omega
  | 1 => rw [refuses_unit_fc hu]; simp; omega
  | 2 => rw [refuses_unit_mp hu]; simp; omega
  | 3 => rw [refuses_unit_sb hu]; simp
  | 4 => rw [refuses_unit_mc hu]; simp
  | n + 5 => simp [refuses_error, decode_of_unit_ge (w := w) (by omega)]

/-- Settles O6: the payload is taken, and the error exit discards it. -/
theorem reservedWordAnswersIllegalCommand : Obligations.ReservedWordAnswersIllegalCommand := by
  intro s w rest e hr hc hd hn
  rw [step_of_reserved hr hc hd, execReserved, State.withPayload_of_le _ hn, State.fail_eq]
  rfl

end Sys2Proof
end

section
/-! How a command answers: exactly one response word, made of a code and an `aux`, and the command's word off CMD
(30_encoding.md R95). Each exit of a command answers, in the sense below; one lemma per command says so by the branches of
its meaning. -/

namespace Sys2Proof.Machine

/-! ### What leaves RSP and CMD alone -/

/-- A chunk puts no word on RSP and takes none from CMD (R257). -/
theorem State.mcFeed_keeps_words (s : State) (l : List Byte) : (s.mcFeed l).rsp = s.rsp ∧ (s.mcFeed l).cmd = s.cmd := by
  cases h : s.mc.phase with
  | idle => rw [s.mcFeed_idle l h]; exact ⟨rfl, rfl⟩
  | tag => rw [s.mcFeed_tag l h]; exact ⟨rfl, rfl⟩
  | chk => rw [s.mcFeed_chk l h]; exact ⟨rfl, rfl⟩

/-! ### The exits of a command -/

/-- The state in which a command ends, `rsp` and `cmd` being RSP and CMD before it: one response word more with this `aux`,
its code in `last_code`, and the command's word off CMD (R61, R95). -/
def State.Answered (t : State) (rsp cmd : List Word) (aux : BitVec 16) : Prop :=
  ∃ c, t.lastCode = c ∧ t.rsp = rsp ++ [responseWord c aux] ∧ t.cmd = cmd.tail

/-- What is done with a payload once it is in `rxbuf` ends with a response whose `aux` is 0. -/
def Responds (run : State → State) : Prop := ∀ s, (run s).Answered s.rsp s.cmd 0

/-- The command answers a next state, in which it has ended with its response. -/
def Answers (r : Result) (s : State) (aux : BitVec 16) : Prop := ∃ t, r = .next t ∧ t.Answered s.rsp s.cmd aux

section
variable {s t t' : State} {rsp cmd : List Word} {c : Code} {aux : BitVec 16}

theorem State.respond_answered : (s.respond c aux).Answered s.rsp s.cmd aux := ⟨c, rfl, rfl, rfl⟩

/-- The error exit answers with `aux` 0 (R310). -/
theorem State.fail_answered : (s.fail c).Answered s.rsp s.cmd 0 := ⟨c, rfl, rfl, rfl⟩

/-- So does the successful end of a payload command (R50). -/
theorem State.finish_answered : s.finish.Answered s.rsp s.cmd 0 := ⟨.ok, rfl, rfl, rfl⟩

/-- A test answers when both its branches do. -/
theorem State.Answered.ite {p : Prop} [Decidable p] (h : t.Answered rsp cmd aux) (h' : t'.Answered rsp cmd aux) :
    (if p then t else t').Answered rsp cmd aux := by
  split
  · exact h
  · exact h'

theorem State.Answered.answers (h : t.Answered s.rsp s.cmd aux) : Answers (.next t) s aux := ⟨t, rfl, h⟩

/-- A command with its payload on DIN answers when what it does with the payload does: taking it touches neither RSP nor CMD
(R62). -/
theorem Responds.answers {run : State → State} (h : Responds run) {n : Nat} (hn : n ≤ s.din.length) :
    Answers (.next (s.withPayload n run)) s 0 := by
  rw [s.withPayload_of_le run hn]
  exact (h { s with rxbuf := s.din.take n, din := s.din.drop n }).answers

/-- The word of an answer in the form of R95, its code one of R96. -/
theorem Answers.word {r : Result} (h : Answers r s aux) :
    ∃ t q, r = .next t ∧ t.rsp = s.rsp ++ [q] ∧ t.cmd = s.cmd.tail ∧
      q.extractLsb' 4 12 = 0 ∧ (q.extractLsb' 0 4).toNat ≤ 8 ∧
      q.extractLsb' 0 4 = t.lastCode.bits ∧ q.extractLsb' 16 16 = aux := by
  obtain ⟨t, ht, c, hcode, hrsp, hcmd⟩ := h
  refine ⟨t, responseWord c aux, ht, hrsp, hcmd, responseWord_middle c aux, ?_, ?_, responseWord_aux c aux⟩
  · rw [responseWord_code]
    exact c.bits_le
  · rw [responseWord_code, hcode]

end

/-! ### The commands with a payload -/

theorem State.blockCommand_answered (s : State) (ks : List (BitVec 48)) :
    (s.blockCommand ks).Answered s.rsp s.cmd 0 := by
  unfold State.blockCommand
  exact .ite State.finish_answered State.fail_answered

theorem State.macSetkey_answered (H : Hasher) (len : Nat) (s : State) :
    (s.macSetkey H len).Answered s.rsp s.cmd 0 := by
  unfold State.macSetkey
  dsimp only
  rw [State.macHashKey_snd]
  exact .ite State.fail_answered (.ite State.fail_answered State.finish_answered)

section
variable {s : State}

theorem execFcSetkey_answers (len : BitVec 16) (h : len.toNat ≤ s.din.length) : Answers (execFcSetkey len s) s 0 := by
  refine Responds.answers (fun _ => ?_) h
  exact .ite State.fail_answered (.ite State.fail_answered State.finish_answered)

theorem execMpSetiv_answers (h : 8 ≤ s.din.length) : Answers (execMpSetiv s) s 0 := by
  refine Responds.answers (fun _ => ?_) h
  exact State.finish_answered

theorem execMpData_answers (len : BitVec 16) (h : len.toNat ≤ s.din.length) : Answers (execMpData len s) s 0 := by
  refine Responds.answers (fun _ => ?_) h
  exact .ite State.fail_answered State.finish_answered

theorem execSbData_answers (len : BitVec 16) (h : len.toNat ≤ s.din.length) : Answers (execSbData len s) s 0 := by
  refine Responds.answers (fun _ => ?_) h
  exact .ite State.fail_answered State.finish_answered

theorem execMcData_answers (len : BitVec 16) (h : len.toNat ≤ s.din.length) : Answers (execMcData len s) s 0 := by
  refine Responds.answers (fun u => .ite State.fail_answered ?_) h
  obtain ⟨hrsp, hcmd⟩ := u.mcFeed_keeps_words u.rxbuf
  rw [← hrsp, ← hcmd]
  exact State.finish_answered

end

/-! ### The commands without one -/

/-- An index 0 to 5 names a status register (R59, R93). -/
theorem statusRegister_of_le (h : Hasher) (s : State) {idx : BitVec 8} (hidx : idx.toNat ≤ 5) :
    ∃ v, statusRegister h s idx = some v := by
  unfold statusRegister
  match idx.toNat, hidx with
  | 0, _ | 1, _ | 2, _ | 3, _ | 4, _ | 5, _ => exact ⟨_, rfl⟩
  | _ + 6, hidx => omega

/-- `RDSR` of a register answers its value and leaves `last_code` alone (R281, R95). -/
theorem State.readStatus_of_some {h : Hasher} {s : State} {idx : BitVec 8} {v : BitVec 16}
    (hv : statusRegister h s idx = some v) : s.readStatus h idx = s.answer .ok v := by
  simp [State.readStatus, hv]

section
variable (s : State)

theorem execAbort_answers (u : AbortUnit) : Answers (execAbort u s) s 0 := by
  refine State.Answered.answers ?_
  rw [State.abortSb_eq, State.abortSb_eq, State.abortMc_eq, State.abortMc_eq]
  cases u with
  | all => exact State.respond_answered
  | mp => exact State.respond_answered
  | mc => exact State.respond_answered
  | sb => exact .ite State.fail_answered State.respond_answered

theorem execFcRmkey_answers : Answers (execFcRmkey s) s 0 :=
  State.Answered.answers (.ite State.fail_answered State.respond_answered)

theorem execMpStart_answers (mode : Mode) (dir : Dir) (pad : Pad) : Answers (execMpStart mode dir pad s) s 0 :=
  State.Answered.answers
    (.ite State.fail_answered (.ite State.fail_answered (.ite State.fail_answered State.respond_answered)))

theorem State.mpEndDecrypt_answered : s.mpEndDecrypt.Answered s.rsp s.cmd 0 := by
  unfold State.mpEndDecrypt
  refine .ite State.fail_answered ?_
  split
  · exact State.fail_answered
  · exact State.respond_answered

theorem execMpEnd_answers : Answers (execMpEnd s) s 0 := by
  refine State.Answered.answers (.ite State.fail_answered ?_)
  split
  · exact State.respond_answered
  · exact State.respond_answered
  · exact s.mpEndDecrypt_answered

theorem execSbStart_answers (n : BitVec 8) : Answers (execSbStart n s) s 0 := by
  refine State.Answered.answers ?_
  split
  · exact .ite State.fail_answered State.respond_answered
  · exact State.fail_answered

theorem execSbEnd_answers : Answers (execSbEnd s) s 0 :=
  State.Answered.answers (.ite State.fail_answered (.ite State.fail_answered State.respond_answered))

theorem execMcRmkey_answers : Answers (execMcRmkey s) s 0 :=
  State.Answered.answers (.ite State.fail_answered State.respond_answered)

theorem execMcStart_answers (path : Path) (quiet : Bool) : Answers (execMcStart path quiet s) s 0 := by
  refine State.Answered.answers ?_
  unfold State.macStart
  refine .ite State.fail_answered (.ite State.fail_answered (.ite State.fail_answered ?_))
  cases path with
  | tag => exact State.respond_answered
  | check => exact State.respond_answered

theorem State.macEndTag_answered (H : Hasher) : (s.macEndTag H).Answered s.rsp s.cmd 0 := by
  unfold State.macEndTag
  rw [State.mcFinish_eq]
  exact State.respond_answered

theorem State.macEndCheck_answered (H : Hasher) : (s.macEndCheck H).Answered s.rsp s.cmd 0 := by
  unfold State.macEndCheck
  rw [State.mcFinish_eq]
  exact .ite State.fail_answered (.ite State.fail_answered State.respond_answered)

theorem execMcEnd_answers : Answers (execMcEnd s) s 0 := by
  refine State.Answered.answers ?_
  unfold State.macEnd
  split
  · exact State.fail_answered
  · exact s.macEndTag_answered _
  · exact s.macEndCheck_answered _

end

end Sys2Proof.Machine

namespace Sys2Proof

open Machine

/-- Settles O8: `NOP` and `RDSR` answer without `last_code`, every other command by an exit that writes it. -/
theorem everyCommandAnswersOnce : Obligations.EveryCommandAnswersOnce := by
  intro i s hwf hn
  cases i with
  | nop => exact ⟨_, responseWord .ok 0, rfl, rfl, rfl, by simp, by decide, rfl, by simp⟩
  | rdsr idx =>
    obtain ⟨v, hv⟩ := statusRegister_of_le Config.hasher s (by simpa [Instr.wellFormed] using hwf)
    refine ⟨s.answer .ok v, responseWord .ok v, congrArg _ (State.readStatus_of_some hv), rfl, rfl, by simp, ?_, rfl, ?_⟩
    · rw [responseWord_code]
      exact Code.bits_le _
    · rw [responseWord_aux]
      exact hv
  | abort u => exact (execAbort_answers s u).word
  | fcSetkey len => exact (execFcSetkey_answers len hn).word
  | fcRmkey => exact (execFcRmkey_answers s).word
  | fcHaskey => exact (State.Answered.answers State.respond_answered).word
  | fcEncblk => exact (Responds.answers (fun u => u.blockCommand_answered _) hn).word
  | fcDecblk => exact (Responds.answers (fun u => u.blockCommand_answered _) hn).word
  | mpSetiv => exact (execMpSetiv_answers hn).word
  | mpRmiv => exact (State.Answered.answers State.respond_answered).word
  | mpStart mode dir pad => exact (execMpStart_answers s mode dir pad).word
  | mpData len => exact (execMpData_answers len hn).word
  | mpEnd => exact (execMpEnd_answers s).word
  | sbStart n => exact (execSbStart_answers s n).word
  | sbData len => exact (execSbData_answers len hn).word
  | sbEnd => exact (execSbEnd_answers s).word
  | mcSetkey len => exact (Responds.answers (State.macSetkey_answered _ len.toNat) hn).word
  | mcRmkey => exact (execMcRmkey_answers s).word
  | mcHaskey => exact (State.Answered.answers State.respond_answered).word
  | mcStart path quiet => exact (execMcStart_answers s path quiet).word
  | mcData len => exact (execMcData_answers len hn).word
  | mcEnd => exact (execMcEnd_answers s).word

end Sys2Proof
end

section
/-! The bit primitives index by index, for every width: the byte forms `bit`, `setbit` and `bytes`, the rotations and the
shifts (40_bitperm.md R121 to R128). A law between two buffers or two bit vectors is proved bit by bit from these. -/

namespace Sys2Proof.Machine

/-! ### Byte buffers -/

/-- Two buffers agree when they agree bit by bit (R121). -/
theorem eq_of_bit {n : Nat} {a b : Vector Byte n} (h : ∀ i, bit a i = bit b i) : a = b := by
  ext k hk : 1
  refine eq_of_getMsbD fun j hj => ?_
  have hbit := h ⟨8 * k + j, by omega⟩
  have hbyte : (8 * k + j) / 8 = k := by omega
  have hpos : 7 - (8 * k + j) % 8 = 8 - 1 - j := by omega
  simpa only [bit, hbyte, hpos, BitVec.getMsbD, hj, decide_true, Bool.true_and] using hbit

/-- `bytes`: bit `i` of the buffer is bit `i` of the vector (R10). -/
theorem bit_bytes {n : Nat} (v : BitVec (8 * n)) (i : Fin (8 * n)) : bit (bytes v) i = v.getMsbD i.val := by
  have hi := i.isLt
  have hin : 7 - i.val % 8 < 8 := by omega
  have hpos : 8 * (n - 1 - i.val / 8) + (7 - i.val % 8) = 8 * n - 1 - i.val := by omega
  simp only [bit, getElem_bytes, BitVec.getLsbD_extractLsb', BitVec.getMsbD, hin, hi, hpos]

/-- The byte with one bit set: that bit is the new one, the others stay (R122). -/
theorem getLsbD_setByteBit (y : Byte) (x : Bool) {k l : Nat} (hk : k < 8) (hl : l < 8) :
    (setByteBit y k x).getLsbD (7 - l) = if l = k then x else y.getLsbD (7 - l) := by
  have hmask : (1#8 <<< (7 - k)).getLsbD (7 - l) = decide (l = k) := by
    rw [← BitVec.twoPow_eq, BitVec.getLsbD_twoPow]
    simp only [← Bool.decide_and, decide_eq_decide]
    omega
  have hin : 7 - l < 8 := by omega
  cases x with
  | true =>
    simp only [setByteBit, if_true, BitVec.getLsbD_or, hmask]
    by_cases h : l = k <;> simp [h]
  | false =>
    simp only [setByteBit, Bool.false_eq_true, if_false, BitVec.getLsbD_and, BitVec.getLsbD_not, hmask, hin]
    by_cases h : l = k <;> simp [h]

/-- `setbit`: bit `i` is the new one, every other bit stays (R122). -/
theorem bit_setbit {n : Nat} (b : Vector Byte n) (i j : Fin (8 * n)) (x : Bool) :
    bit (setbit b i x) j = if j = i then x else bit b j := by
  have hi : i.val % 8 < 8 := by omega
  have hj : j.val % 8 < 8 := by omega
  unfold bit setbit
  rw [Vector.getElem_set]
  by_cases hbyte : i.val / 8 = j.val / 8
  · have hsame : j.val % 8 = i.val % 8 ↔ j = i := by omega
    simp only [hbyte, if_true, getLsbD_setByteBit _ _ hi hj, hsame]
  · have hne : j ≠ i := fun h => hbyte (by rw [h])
    rw [if_neg hbyte, if_neg hne]

/-! ### Rotations and shifts -/

/-- `rotr`: output bit `j` is input bit `(j - k) mod n` (R126). -/
theorem getMsbD_rotr {n : Nat} (v : BitVec n) (k j : Nat) (hj : j < n) :
    (rotr v k).getMsbD j = v.getMsbD ((j + n - k % n) % n) := by
  have hk : k % n < n := Nat.mod_lt _ (by omega)
  rw [rotr, BitVec.getMsbD_rotateRight, decide_eq_true hj, Bool.true_and]
  split
  · rw [Nat.add_comm]
  · have hidx : j + n - k % n = j - k % n + n := by omega
    have hlt : j - k % n < n := by omega
    rw [hidx, Nat.add_mod_right, Nat.mod_eq_of_lt hlt]

/-- `shl`: output bit `j` is input bit `j + k`, zero beyond the end (R127). -/
theorem getMsbD_shl {n : Nat} (v : BitVec n) (k j : Nat) :
    (shl v k).getMsbD j = if j + k < n then v.getMsbD (j + k) else false := by
  rw [shl, BitVec.getMsbD_shiftLeft]
  split
  · rfl
  · exact BitVec.getMsbD_of_ge _ _ (by omega)

/-- `shr`: output bit `j` is input bit `j - k`, zero before the start (R127). -/
theorem getMsbD_shr {n : Nat} (v : BitVec n) (k j : Nat) (hj : j < n) :
    (shr v k).getMsbD j = if k ≤ j then v.getMsbD (j - k) else false := by
  rw [shr, BitVec.getMsbD_ushiftRight, decide_eq_true hj]
  by_cases h : k ≤ j
  · simp [h]
  · simp [h, Nat.lt_of_not_le h]

/-- `rotl` undone by `rotr` (R126): index `j` goes back by `k mod n` and forward by `k`. -/
theorem rotr_rotl {n : Nat} (v : BitVec n) (k : Nat) : rotr (rotl v k) k = v := by
  refine eq_of_getMsbD fun j hj => ?_
  have hk : k % n < n := Nat.mod_lt _ (by omega)
  have hidx : ((j + n - k % n) % n + k) % n = j := by
    rw [Nat.mod_add_mod, ← Nat.add_mod_mod, Nat.sub_add_cancel (by omega), Nat.add_mod_right, Nat.mod_eq_of_lt hj]
  rw [getMsbD_rotr _ _ _ hj, getMsbD_rotl _ _ _ (Nat.mod_lt _ (by omega)), hidx]

/-- Two left rotations are one by the sum of the counts (R128 (e)). -/
theorem rotl_rotl {n : Nat} (v : BitVec n) (a b : Nat) : rotl (rotl v a) b = rotl v (a + b) := by
  refine eq_of_getMsbD fun j hj => ?_
  have hidx : ((j + b) % n + a) % n = (j + (a + b)) % n := by
    rw [Nat.mod_add_mod, Nat.add_assoc, Nat.add_comm b]
  rw [getMsbD_rotl _ _ _ hj, getMsbD_rotl _ _ _ (Nat.mod_lt _ (by omega)), getMsbD_rotl _ _ _ hj, hidx]

/-! ### Permutations -/

/-- A permutation is undone by its inverse (R128 (c)). The law needs `t[u[j]] = j`, the hypothesis says `u[t[j]] = j`: on a
finite range one follows from the other. -/
theorem permute_permute_inverse {n : Nat} (v : BitVec n) (t u : Vector (Fin n) n)
    (h : ∀ j : Fin n, u[(t[j.val]).val] = j) : permute (permute v t) u = v := by
  have hinv : Function.LeftInverse (fun i : Fin n => u[i.val]) (fun j : Fin n => t[j.val]) := h
  refine eq_of_getMsbD fun j hj => ?_
  have hback : t[(u[j]).val] = ⟨j, hj⟩ := hinv.rightInverse_of_card_le le_rfl ⟨j, hj⟩
  rw [getMsbD_permute _ _ _ hj, getMsbD_permute _ _ _ (u[j]).isLt, hback]

/-- `permute` distributes over xor (R128 (d)). -/
theorem permute_xor {n m : Nat} (a b : BitVec n) (t : Vector (Fin n) m) :
    permute (a ^^^ b) t = permute a t ^^^ permute b t := by
  refine eq_of_getMsbD fun j hj => ?_
  simp only [BitVec.getMsbD_xor, getMsbD_permute _ _ _ hj]

/-- `rotl` is the permutation by `j + k mod n` (R128 (f)). -/
theorem rotl_eq_permute {n : Nat} (v : BitVec n) (k : Nat) (h : 1 ≤ n) :
    rotl v k = permute v (tabulate fun j : Fin n => ⟨(j.val + k) % n, Nat.mod_lt _ h⟩) := by
  refine eq_of_getMsbD fun j hj => ?_
  rw [getMsbD_rotl _ _ _ hj, getMsbD_permute _ _ _ hj, getElem_tabulate]

/-! ### Bit vectors and their bytes -/

/-- `bits` undoes `bytes` (R128 (a)). -/
theorem bits_bytes {n : Nat} (v : BitVec (8 * n)) : bits (bytes v) = v :=
  eq_of_getMsbD fun j hj => (getMsbD_bits (bytes v) ⟨j, hj⟩).trans (bit_bytes v ⟨j, hj⟩)

/-- `bytes` undoes `bits` (R128 (a)). -/
theorem bytes_bits {n : Nat} (b : Vector Byte n) : bytes (bits b) = b :=
  eq_of_bit fun i => (bit_bytes (bits b) i).trans (getMsbD_bits b i)

end Sys2Proof.Machine

namespace Sys2Proof

open Machine

/-- Settles O23, law by law. -/
theorem bitPrimitiveLaws : Obligations.BitPrimitiveLaws :=
  ⟨fun _ => bits_bytes, fun _ => bytes_bits, fun _ => permute_permute_inverse, fun _ _ => permute_xor,
    fun _ v a b _ => rotl_rotl v a b, fun _ => rotl_eq_permute⟩

/-- Settles O24, primitive by primitive. -/
theorem bitPrimitivesByIndex : Obligations.BitPrimitivesByIndex := by
  refine ⟨fun n b i x => ⟨?_, fun j hj => ?_⟩, fun n v k j _ hj =>
    ⟨rotr_rotl v k, getMsbD_rotr v k j hj, getMsbD_shl v k j, getMsbD_shr v k j hj⟩⟩
  · rw [bit_setbit, if_pos rfl]
  · rw [bit_setbit, if_neg hj]

end Sys2Proof
end

section
/-! What the tables of 41_feistel.md R141 guarantee, and what follows for the cipher: the two permutations of a block undo each
other, and the rounds under a reversed list of round keys undo the rounds under the list (R157 to R159). -/

namespace Sys2Proof.Machine

/-! ### The tables -/

/-- `FP` read at `IP`'s entries gives the index back (R143). -/
theorem tableFP_tableIP (j : Fin 64) : tableFP[(tableIP[j.val]).val] = j := by
  revert j
  decide

/-- `IP` read at `FP`'s entries gives the index back (R143). -/
theorem tableIP_tableFP (j : Fin 64) : tableIP[(tableFP[j.val]).val] = j := by
  revert j
  decide

/-- `FP` undoes `IP` (R141). -/
@[simp] theorem permute_IP_FP (v : BitVec 64) : permute (permute v tableIP) tableFP = v :=
  permute_permute_inverse v tableIP tableFP tableFP_tableIP

/-- `IP` undoes `FP` (R141). -/
@[simp] theorem permute_FP_IP (v : BitVec 64) : permute (permute v tableFP) tableIP = v :=
  permute_permute_inverse v tableFP tableIP tableIP_tableFP

/-- The rotation amounts sum to the width of a half (R147). -/
theorem tableROT_sum : tableROT.toList.sum = 28 := by decide

/-- A rotation by a multiple of the width changes nothing (R125). -/
theorem rotl_of_dvd {n k : Nat} (v : BitVec n) (h : n ∣ k) : rotl v k = v := by
  obtain ⟨m, rfl⟩ := h
  exact eq_of_getMsbD fun j hj => by rw [getMsbD_rotl _ _ _ hj, Nat.add_mul_mod_self_left, Nat.mod_eq_of_lt hj]

/-- Rotations in sequence are one rotation by the sum of the amounts (R128 (e)). -/
theorem foldl_rotl {n : Nat} (v : BitVec n) (ks : List Nat) : ks.foldl rotl v = rotl v ks.sum := by
  induction ks generalizing v with
  | nil => exact (rotl_of_dvd v (Nat.dvd_zero n)).symm
  | cons k ks ih => rw [List.foldl_cons, ih, rotl_rotl, List.sum_cons]

/-! ### The rounds -/

/-- `fc_l` and `fc_r` exchanged: what the last round leaves out (R156). -/
def Fc.swap (u : Fc) : Fc := { u with l := u.r, r := u.l }

/-- The rounds with the exchange in every one of them, the last included. -/
def Fc.swappingRounds (u : Fc) (ks : List (BitVec 48)) : Fc := ks.foldl (fun v k => v.round k false) u

@[simp] theorem Fc.swap_swap (u : Fc) : u.swap.swap = u := rfl

/-- The last round is a round followed by one more exchange (R156). -/
theorem Fc.round_last (u : Fc) (k : BitVec 48) : u.round k true = (u.round k false).swap := rfl

/-- A round undoes itself with the halves exchanged: both xor the same value of `f` into the same half (R156). -/
theorem Fc.round_swap_round (u : Fc) (k : BitVec 48) : ((u.round k false).swap).round k false = u.swap := by
  simp [Fc.round, Fc.swap]

/-- The transform's rounds are the rounds that all exchange, the last exchange undone (R157). -/
theorem Fc.rounds_eq_swap (u : Fc) {ks : List (BitVec 48)} (h : ks ≠ []) : u.rounds ks = (u.swappingRounds ks).swap := by
  induction ks generalizing u with
  | nil => exact absurd rfl h
  | cons k ks ih =>
    cases ks with
    | nil => exact u.round_last k
    | cons k' ks => exact ih (u.round k false) (List.cons_ne_nil k' ks)

/-- Round by round from the last key, the reversed keys undo the rounds up to the exchange of the halves (R159). -/
theorem Fc.swappingRounds_reverse (u : Fc) (ks : List (BitVec 48)) :
    (u.swappingRounds ks).swap.swappingRounds ks.reverse = u.swap := by
  induction ks generalizing u with
  | nil => rfl
  | cons k ks ih =>
    calc (u.swappingRounds (k :: ks)).swap.swappingRounds (k :: ks).reverse
        = (((u.round k false).swappingRounds ks).swap.swappingRounds ks.reverse).round k false := by
          simp only [Fc.swappingRounds, List.reverse_cons, List.foldl_append, List.foldl_cons, List.foldl_nil]
      _ = ((u.round k false).swap).round k false := by rw [ih]
      _ = u.swap := u.round_swap_round k

/-- The rounds under the reversed keys undo the rounds (R159). -/
theorem Fc.rounds_reverse (u : Fc) (ks : List (BitVec 48)) : (u.rounds ks).rounds ks.reverse = u := by
  by_cases h : ks = []
  · subst h
    rfl
  · have hrev : ks.reverse ≠ [] := by simpa using h
    rw [Fc.rounds_eq_swap u h, Fc.rounds_eq_swap _ hrev, Fc.swappingRounds_reverse, Fc.swap_swap]

/-! ### The block transform -/

/-- The transformed block: loaded, put through the rounds, unloaded (R157). -/
theorem Fc.crypt_fst (u : Fc) (ks : List (BitVec 48)) (x : Block) :
    (u.crypt ks x).1 = ((u.loadBlock x).rounds ks).unloadBlock := rfl

/-- The two halves of 64 bits, joined, are the 64 bits. -/
theorem append_halves (v : BitVec 64) : (v.extractLsb' 32 32 ++ v.extractLsb' 0 32 : BitVec 64) = v := by
  rw [BitVec.extractLsb'_append_extractLsb'_eq_extractLsb' (show 32 = 0 + 32 from rfl)]
  exact BitVec.extractLsb'_eq_self

/-- A block loaded and unloaded with no round between is the block (R157). -/
theorem Fc.unloadBlock_loadBlock (u : Fc) (x : Block) : (u.loadBlock x).unloadBlock = x := by
  simp only [Fc.unloadBlock, Fc.loadBlock]
  rw [append_halves, permute_IP_FP, bytes_bits]

/-- Loading the block that another state of the halves unloads restores that state (R157). -/
theorem Fc.loadBlock_unloadBlock (u v : Fc) : u.loadBlock v.unloadBlock = { u with l := v.l, r := v.r } := by
  simp only [Fc.unloadBlock, Fc.loadBlock]
  rw [bits_bytes, permute_FP_IP, BitVec.extractLsb'_append_eq_left, BitVec.extractLsb'_append_eq_right]

/-- The transform under the reversed round keys undoes the transform, for every list of round keys (R159). -/
theorem Fc.crypt_reverse_crypt (u : Fc) (ks : List (BitVec 48)) (x : Block) :
    (u.crypt ks.reverse (u.crypt ks x).1).1 = x := by
  have hload : u.loadBlock ((u.loadBlock x).rounds ks).unloadBlock = (u.loadBlock x).rounds ks := by
    rw [Fc.loadBlock_unloadBlock, Fc.rounds_keeps (u.loadBlock x) ks]
    rfl
  rw [Fc.crypt_fst, Fc.crypt_fst, hload, Fc.rounds_reverse, Fc.unloadBlock_loadBlock]

/-- A buffer read from its last element to its first. -/
theorem toList_reverse_eq_ofFn {α : Type} {n : Nat} (v : Vector α n) :
    v.toList.reverse = List.ofFn fun i : Fin n => v[n - 1 - i.val]'(by have := i.isLt; omega) := by
  refine List.ext_getElem (by simp) fun i _ _ => ?_
  simp [List.getElem_reverse]

end Sys2Proof.Machine

namespace Sys2Proof

open Machine

/-- Settles O20: the reversed schedule element by element, and the inverse law under the schedule and under its reverse. -/
theorem decryptionInvertsEncryption : Obligations.DecryptionInvertsEncryption := by
  intro u x
  refine ⟨?_, u.crypt_reverse_crypt u.rk.toList x, ?_⟩
  · rw [Fc.decrypt, toList_reverse_eq_ofFn]
    rfl
  · have hinv := u.crypt_reverse_crypt u.rk.toList.reverse x
    rwa [List.reverse_reverse] at hinv

/-- Settles O22: the entries by evaluation of the tables, the two laws from the inverse tables and from the sum of the
rotation amounts. -/
theorem tableProperties : Obligations.TableProperties := by
  refine ⟨by decide, by decide, permute_IP_FP, by decide, by decide, by decide, by decide, by decide, by decide,
    tableROT_sum, fun v => ?_⟩
  rw [foldl_rotl, tableROT_sum, rotl_of_dvd v dvd_rfl]

end Sys2Proof
end

section
/-! The key removals and queries of units FC and MC and the two block commands, each exit as one update of the whole state
(41_feistel.md R149 to R152, R160, R161; 45_mac.md R253, R254). -/

namespace Sys2Proof.Machine

open Claims

/-- A response with `aux` 0 is the number of its code (R95). -/
theorem responseWord_zero (c : Code) : responseWord c 0 = BitVec.ofNat 32 c.bits.toNat := by
  cases c <;> rfl

/-- The state in which a command runs once its payload of `n` bytes is in `rxbuf` (R62). -/
def State.taken (s : State) (n : Nat) : State := { s with rxbuf := s.din.take n, din := s.din.drop n }

/-- With its payload on DIN a command runs in that state (R62). -/
theorem State.withPayload_taken (s : State) {n : Nat} (run : State → State) (hn : n ≤ s.din.length) :
    s.withPayload n run = run (s.taken n) := s.withPayload_of_le run hn

section
variable (s : State) (n : Nat) (c : Code)

/-- The error exit of a command that took its payload (R310). -/
theorem State.fail_taken : (s.taken n).fail c = ended s n c (BitVec.ofNat 32 c.bits.toNat) := by
  rw [State.fail_eq, responseWord_zero]
  rfl

/-- The error exit of a command without a payload (R310). -/
theorem State.fail_ended : s.fail c = ended s 0 c (BitVec.ofNat 32 c.bits.toNat) := by
  rw [State.fail_eq, responseWord_zero]
  rfl

/-- The successful end of a command without a payload (R95). -/
theorem State.respond_done (aux : BitVec 16) : s.respond .ok aux = done s (responseWord .ok aux) := rfl

end

/-! ### Keys removed and queried -/

/-- While a stream runs `FC.SETKEY` is refused, whatever the key length (R149). -/
theorem execFcSetkey_of_run {s : State} (len : BitVec 16) (hrun : s.mp.phase = .run) (hn : len.toNat ≤ s.din.length) :
    execFcSetkey len s = .next (ended s len.toNat .illegalCommand 8) := by
  have htaken : (s.taken len.toNat).mp.phase = .run := hrun
  rw [execFcSetkey, State.withPayload_taken s _ hn, if_pos htaken, State.fail_taken]
  rfl

/-- While a stream runs `FC.RMKEY` is refused (R149). -/
theorem execFcRmkey_of_run {s : State} (hrun : s.mp.phase = .run) :
    execFcRmkey s = .next (ended s 0 .illegalCommand 8) := by
  rw [execFcRmkey, if_pos hrun, State.fail_ended]
  rfl

/-- With no stream running `FC.RMKEY` removes the key (R151). -/
theorem execFcRmkey_of_not_run {s : State} (hrun : s.mp.phase ≠ .run) :
    execFcRmkey s = .next (done { s with fc := s.fc.removeKey } 0) := by
  rw [execFcRmkey, if_neg hrun, State.respond_done]
  rfl

/-- With no operation in progress `MC.RMKEY` removes the pads (R253). -/
theorem execMcRmkey_of_idle {s : State} (hidle : s.mc.phase = .idle) :
    execMcRmkey s = .next (done { s with mc := s.mc.removeKey } 0) := by
  rw [execMcRmkey, if_neg (not_not_intro hidle), State.respond_done]
  rfl

/-- During an operation `MC.RMKEY` is refused (R251). -/
theorem execMcRmkey_of_not_idle {s : State} (hidle : s.mc.phase ≠ .idle) :
    execMcRmkey s = .next (ended s 0 .illegalCommand 8) := by
  rw [execMcRmkey, if_pos hidle, State.fail_ended]
  rfl

/-- The answer to a key query: `aux` 1 for keyed, 0 for keyless (R152, R254). -/
theorem responseWord_keyed (keyed : Bool) :
    responseWord .ok (if keyed then 1 else 0) = if keyed then 0x00010000 else 0 := by
  cases keyed <;> rfl

/-! ### The block commands -/

/-- Keyed, a block command ciphers the block in `rxbuf` (R160, R161). -/
theorem State.blockCommand_keyed {s : State} (ks : List (BitVec 48)) (h : s.fc.keyed = true) :
    s.blockCommand ks = { s with
      fc := { s.fc with l := 0, r := 0 }
      dout := s.dout ++ (s.fc.crypt ks (fit 8 s.rxbuf)).1.toList }.finish := by
  rw [State.blockCommand, if_pos h, ← Fc.crypt_snd s.fc ks (fit 8 s.rxbuf)]
  rfl

/-- Keyless, it fails (R160, R161). -/
theorem State.blockCommand_keyless {s : State} (ks : List (BitVec 48)) (h : s.fc.keyed = false) :
    s.blockCommand ks = s.fail .noKey := by
  simp [State.blockCommand, h]

/-- In either case it is no refusal, and it writes neither unit MP nor the key (R149). -/
theorem State.blockCommand_keeps (s : State) (ks : List (BitVec 48)) :
    (s.blockCommand ks).lastCode ≠ .illegalCommand ∧ (s.blockCommand ks).mp = s.mp ∧
      (s.blockCommand ks).fc.keyed = s.fc.keyed ∧ (s.blockCommand ks).fc.rk = s.fc.rk := by
  cases h : s.fc.keyed with
  | true => simp [State.blockCommand_keyed ks h, h]
  | false => simp [State.blockCommand_keyless ks h, h]

/-- With its block on DIN `FC.ENCBLK` is a block command under the schedule (R160). -/
theorem execFcEncblk_of_payload {s : State} (hn : 8 ≤ s.din.length) :
    execFcEncblk s = .next ((s.taken 8).blockCommand s.fc.rk.toList) :=
  congrArg _ (s.withPayload_taken _ hn)

/-- With its block on DIN `FC.DECBLK` is a block command under the reversed schedule (R161). -/
theorem execFcDecblk_of_payload {s : State} (hn : 8 ≤ s.din.length) :
    execFcDecblk s = .next ((s.taken 8).blockCommand s.fc.rk.toList.reverse) :=
  congrArg _ (s.withPayload_taken _ hn)

/-- Keyed, a block command that took its payload ends with the ciphered block on DOUT (R160, R161). -/
theorem State.blockCommand_taken_keyed {s : State} (ks : List (BitVec 48)) (h : s.fc.keyed = true) :
    (s.taken 8).blockCommand ks = { ended s 8 .ok 0 with
      fc := { s.fc with l := 0, r := 0 }, dout := s.dout ++ (s.fc.crypt ks (blockPayload s)).1.toList } := by
  rw [State.blockCommand_keyed (s := s.taken 8) ks h, State.finish_eq, responseWord_zero]
  rfl

/-- Keyless, it ends with `NoKey` and nothing on DOUT (R160, R161). -/
theorem State.blockCommand_taken_keyless {s : State} (ks : List (BitVec 48)) (h : s.fc.keyed = false) :
    (s.taken 8).blockCommand ks = ended s 8 .noKey 1 := by
  rw [State.blockCommand_keyless (s := s.taken 8) ks h, State.fail_taken]
  rfl

end Sys2Proof.Machine

namespace Sys2Proof

open Machine

/-- Settles O16: the two refusals, then the three commands that are no refusal and keep unit MP and the key. -/
theorem keyCommandsRefusedDuringAStream : Obligations.KeyCommandsRefusedDuringAStream := by
  refine ⟨fun s len hrun hn => execFcSetkey_of_run len hrun hn, fun s hrun => execFcRmkey_of_run hrun,
    fun s i hi hn => ?_⟩
  simp only [List.mem_cons, List.not_mem_nil, or_false] at hi
  obtain rfl | rfl | rfl := hi
  · exact ⟨_, rfl, by simp, rfl, rfl, rfl⟩
  · exact ⟨_, execFcEncblk_of_payload hn, State.blockCommand_keeps _ _⟩
  · exact ⟨_, execFcDecblk_of_payload hn, State.blockCommand_keeps _ _⟩

/-- Settles O17, removal and refusal for each unit. -/
theorem rmkeyZeroesTheKeyMaterial : Obligations.RmkeyZeroesTheKeyMaterial := fun _ =>
  ⟨execFcRmkey_of_not_run, execFcRmkey_of_run, execMcRmkey_of_idle, execMcRmkey_of_not_idle⟩

/-- Settles O18: each query ends with the response word of its unit's key state. -/
theorem haskeyReportsTheKeyState : Obligations.HaskeyReportsTheKeyState := by
  intro s
  rw [← responseWord_keyed, ← responseWord_keyed]
  exact ⟨congrArg Host.Outcome.next (s.respond_done _), congrArg Host.Outcome.next (s.respond_done _)⟩

/-- Settles O19: the block transform under the schedule and under its reverse, or `NoKey`. -/
theorem blockCommandsCipherOneBlock : Obligations.BlockCommandsCipherOneBlock := by
  refine fun s hn => ⟨fun h => ⟨?_, ?_⟩, fun h => ⟨?_, ?_⟩⟩
  · exact (execFcEncblk_of_payload hn).trans (congrArg _ (State.blockCommand_taken_keyed _ h))
  · exact (execFcDecblk_of_payload hn).trans (congrArg _ (State.blockCommand_taken_keyed _ h))
  · exact (execFcEncblk_of_payload hn).trans (congrArg _ (State.blockCommand_taken_keyless _ h))
  · exact (execFcDecblk_of_payload hn).trans (congrArg _ (State.blockCommand_taken_keyless _ h))

end Sys2Proof
end

section
/-! The padding schemes of 42_padding.md: `unpad_LEN` read as a condition on the last byte and the filler, and the
round trips. -/

namespace Sys2Proof.Machine

/-! ### Scheme ZERO -/

/-- `pad_ZERO` adds nothing to the empty tail alone (R181). -/
theorem padZero_eq_self_iff {t : List Byte} (ht : t.length ≤ 7) : padZero t = t ↔ t = [] := by
  refine ⟨fun hpad => ?_, by rintro rfl; rfl⟩
  by_contra hne
  have hwhole := padZero_length ht
  rw [hpad, if_neg hne] at hwhole
  omega

/-! ### Scheme LEN -/

/-- The filler test of `unpad_LEN` passes exactly when all its bytes are the last byte's value (R184). -/
theorem any_ne_eq_false_iff {l : List Byte} {v : Byte} : l.any (· != v) = false ↔ l = rep v l.length := by
  rw [rep, List.eq_replicate_length, List.any_eq_false]
  simp only [bne_iff_ne, not_not]

/-- `unpad_LEN` of a whole block in terms of its last byte `v`: `v` is 1 to 8, the last `v` bytes are all `v`, and what
stands before them is the answer (R184). -/
theorem unpadLen_eq_some_iff {blk u : List Byte} {v : Byte} (hlen : blk.length = 8) (hv : blk.getD 7 0 = v) :
    unpadLen blk = some u ↔
      (1 ≤ v.toNat ∧ v.toNat ≤ 8) ∧ blk.drop (8 - v.toNat) = rep v v.toNat ∧ blk.take (8 - v.toNat) = u := by
  unfold unpadLen
  rw [if_neg (by omega), hv]
  by_cases hrange : v.toNat < 1 ∨ 8 < v.toNat
  · have hout : ¬(1 ≤ v.toNat ∧ v.toNat ≤ 8) := by omega
    simp only [if_pos hrange, hout, false_and, reduceCtorEq]
  · have hin : 1 ≤ v.toNat ∧ v.toNat ≤ 8 := by omega
    have hdrop : (blk.drop (8 - v.toNat)).length = v.toNat := by rw [List.length_drop]; omega
    have hfiller := any_ne_eq_false_iff (l := blk.drop (8 - v.toNat)) (v := v)
    rw [hdrop] at hfiller
    rw [if_neg hrange, ← hfiller]
    cases (blk.drop (8 - v.toNat)).any (· != v) <;> simp [hin]

/-- Byte 7 of a block that ends in a filler is the filler's value. -/
theorem getD_append_rep {u : List Byte} {n : Nat} (v : Byte) (hn : 1 ≤ n) (hlen : u.length + n = 8) :
    (u ++ rep v n).getD 7 0 = v := by
  rw [List.getD_append_right _ _ _ _ (by omega), rep, List.getD_replicate _ (by omega)]

/-- `unpad_LEN` takes off a filler of `n` bytes of value `n` (R184). -/
theorem unpadLen_append_rep {u : List Byte} {n : Nat} (hn : 1 ≤ n) (hlen : u.length + n = 8) :
    unpadLen (u ++ rep (BitVec.ofNat 8 n) n) = some u := by
  have hblk : (u ++ rep (BitVec.ofNat 8 n) n).length = 8 := by rw [List.length_append, rep, List.length_replicate, hlen]
  have hv : (BitVec.ofNat 8 n).toNat = n := by rw [BitVec.toNat_ofNat]; omega
  have hu : 8 - n = u.length := by omega
  rw [unpadLen_eq_some_iff hblk (getD_append_rep _ hn hlen), hv, hu]
  exact ⟨by omega, List.drop_left, List.take_left⟩

/-- A block that `unpad_LEN` accepts is the answer followed by `n` bytes of value `n`, `n` its last byte (R184). -/
theorem eq_append_rep_of_unpadLen {blk u : List Byte} (hlen : blk.length = 8) (h : unpadLen blk = some u) :
    ∃ n : Nat, 1 ≤ n ∧ n ≤ 8 ∧ blk = u ++ rep (BitVec.ofNat 8 n) n := by
  obtain ⟨⟨hlow, hhigh⟩, hdrop, htake⟩ := (unpadLen_eq_some_iff hlen rfl).mp h
  refine ⟨_, hlow, hhigh, ?_⟩
  rw [BitVec.ofNat_toNat, BitVec.setWidth_eq, ← hdrop, ← htake, List.take_append_drop]

/-- `unpad_LEN` undoes `pad_LEN` on every short tail (R186). -/
theorem unpadLen_padLen {t : List Byte} (ht : t.length ≤ 7) : unpadLen (padLen t) = some t :=
  unpadLen_append_rep (by omega) (by omega)

end Sys2Proof.Machine

namespace Sys2Proof

open Machine

/-- Settles O25: the round trips of both schemes, and of a whole block the filler that `unpad_LEN` accepts, read off in one
direction and taken off in the other. -/
theorem paddingRoundTrip : Obligations.PaddingRoundTrip := by
  refine ⟨fun t ht => ⟨unpadLen_padLen ht, rfl, padZero_eq_self_iff ht⟩, rfl, fun blk u hlen =>
    ⟨eq_append_rep_of_unpadLen hlen, ?_⟩⟩
  rintro ⟨n, hn, -, rfl⟩
  rw [List.length_append, List.length_replicate] at hlen
  exact unpadLen_append_rep hn hlen

end Sys2Proof
end

section
/-! Unit MP's shared operations by case: the flush of the held-back block, the byte step, finalisation by mode, and the three
ends of a stream (43_mode.md R202 to R211). -/

namespace Sys2Proof.Machine

section
variable (u : Fc) (m : Mp)

/-! ### The held-back block -/

/-- Flushing puts out the held-back block finalised, if there is one (R202). -/
theorem Mp.flushPrev_fst_eq : (m.flushPrev u).1 = if m.prevValid then (m.finalise u m.prev).1.toList else [] := by
  unfold Mp.flushPrev
  split <;> rfl

/-- The unit after flushing (R202). -/
theorem Mp.flushPrev_snd_eq : (m.flushPrev u).2 = if m.prevValid then (m.finalise u m.prev).2 else m := by
  unfold Mp.flushPrev
  split <;> rfl

/-- With nothing held back flushing does nothing. -/
theorem Mp.flushPrev_of_none (h : m.prevValid = false) : m.flushPrev u = ([], m) := by
  simp [Mp.flushPrev, h]

/-! ### The byte step -/

/-- A byte that does not fill the block is stored (R202). -/
theorem Mp.byteStep_of_lt (b : Byte) (h : m.fill.val + 1 < 8) :
    m.byteStep u b = ([], { m with cur := m.cur.set m.fill.val b m.fill.isLt, fill := ⟨m.fill.val + 1, h⟩ }) := by
  simp [Mp.byteStep, h]

/-- A byte that fills the block makes it the held-back one and flushes the one before (R202). -/
theorem Mp.byteStep_of_last (b : Byte) (h : m.fill.val = 7) :
    m.byteStep u b = ((m.flushPrev u).1, (m.flushPrev u).2.holdBlock (m.cur.set m.fill.val b m.fill.isLt)) := by
  simp [Mp.byteStep, h]

/-- The unit after a chunk is the unit after its bytes one by one (R201). -/
theorem Mp.feed_snd_eq_foldl (l : List Byte) : (m.feed u l).2 = l.foldl (fun m b => (m.byteStep u b).2) m := by
  induction l generalizing m with
  | nil => rfl
  | cons b bs ih => rw [Mp.feed_cons, List.foldl_cons, ih]

/-! ### The counter and the short last block -/

/-- The next counter is the counter plus 1 modulo `2^64` (R205). -/
theorem toNat_bits_counterNext (c : Block) : (bits (counterNext c)).toNat = ((bits c).toNat + 1) % 2 ^ 64 := by
  rw [counterNext, bits_bytes, BitVec.toNat_add]
  rfl

/-- The first bytes of an exclusive or. -/
theorem firstBytes_xorBytes {n : Nat} (a b : Vector Byte n) (k : Nat) :
    firstBytes (xorBytes a b) k = List.zipWith (· ^^^ ·) (firstBytes a k) b.toList := by
  refine List.ext_getElem (by simp [firstBytes]) fun i _ _ => ?_
  simp [firstBytes]

/-- The tail has `mp_fill` bytes (R209). -/
@[simp] theorem Mp.tail_length : m.tail.length = m.fill.val := by
  have := m.fill.isLt
  simp [Mp.tail, firstBytes]

theorem Mp.tail_length_le : m.tail.length ≤ 7 := by
  have := m.fill.isLt
  rw [Mp.tail_length]
  omega

/-- The tail is empty exactly between two blocks. -/
theorem Mp.tail_eq_nil_iff : m.tail = [] ↔ m.fill = 0 := by
  rw [← List.length_eq_zero_iff, Mp.tail_length]
  omega

/-! ### The ends of a stream -/

/-- The end of an encrypt stream with nothing to pad (R209). -/
theorem Mp.endEncrypt_of_empty (hpad : m.pad = .zero) (htail : m.tail = []) : m.endEncrypt u = (m.flushPrev u).1 := by
  have hlen := padTail_length m.pad m.tail_length_le
  rw [if_pos ⟨hpad, htail⟩] at hlen
  simp [Mp.endEncrypt, hlen]

/-- The end of an encrypt stream with a padded tail (R209). -/
theorem Mp.endEncrypt_of_tail (h : ¬(m.pad = .zero ∧ m.tail = [])) :
    m.endEncrypt u =
      (m.flushPrev u).1 ++ ((m.flushPrev u).2.finalise u (fit 8 (padTail m.pad m.tail))).1.toList := by
  have hlen := padTail_length m.pad m.tail_length_le
  rw [if_neg h] at hlen
  simp [Mp.endEncrypt, hlen]

/-- The end of a CTR stream: the tail under the next keystream block (R211). -/
theorem Mp.endCtr_eq :
    m.endCtr u =
      (m.flushPrev u).1 ++ List.zipWith (· ^^^ ·) m.tail (u.encrypt (m.flushPrev u).2.chain).toList := by
  simp only [Mp.endCtr, firstBytes_xorBytes]
  rfl

end

end Sys2Proof.Machine

namespace Sys2Proof

open Machine

/-- Settles O29, by how far the block is filled and whether one is held back. -/
theorem mpByteStepHoldsOneBlockBack : Obligations.MpByteStepHoldsOneBlockBack := by
  refine fun u m b => ⟨m.byteStep_of_lt u b, fun hfill hnone => ?_, fun hfill hheld => ?_⟩
  · rw [Mp.byteStep_of_last u m b hfill, Mp.flushPrev_of_none u m hnone]
    rfl
  · rw [Mp.byteStep_of_last u m b hfill, Mp.flushPrev_fst_eq, Mp.flushPrev_snd_eq, if_pos hheld, if_pos hheld,
      Mp.finalise_snd]
    rfl

/-- Settles O30, mode by mode. -/
theorem finaliseByMode : Obligations.FinaliseByMode := by
  refine fun u m x => ⟨fun hmode hdir => ?_, fun hmode hdir => ?_, fun hmode hdir => ?_, fun hmode hdir => ?_,
    fun hmode => ⟨counterNext m.chain, ?_, toNat_bits_counterNext m.chain⟩⟩
  iterate 4 simp only [Mp.finalise, hmode, hdir]
  simp only [Mp.finalise, hmode]

end Sys2Proof
end

section
/-! The commands of unit MP, each exit as one update of the whole state (43_mode.md R190 to R212). -/

namespace Sys2Proof.Machine

open Claims

/-! ### The IV commands -/

/-- With its payload on DIN `MP.SETIV` installs the IV (R190). -/
theorem execMpSetiv_of_payload {s : State} (hn : 8 ≤ s.din.length) :
    execMpSetiv s =
      .next { (ended s 8 .ok 0) with mp := { s.mp with iv := blockPayload s, ivValid := true } } :=
  congrArg Host.Outcome.next (s.withPayload_taken _ hn)

/-- `MP.RMIV` removes the IV (R191). -/
theorem execMpRmiv_eq (s : State) :
    execMpRmiv s = .next (done { s with mp := { s.mp with iv := zeroBytes 8, ivValid := false } } 0) := by
  rw [execMpRmiv, State.respond_done]
  rfl

/-! ### Starting a stream -/

section
variable {s : State} (mode : Mode) (dir : Dir) (pad : Pad)

/-- With a stream in progress `MP.START` is refused (R200). -/
theorem execMpStart_of_run (hrun : s.mp.phase = .run) :
    execMpStart mode dir pad s = .next (ended s 0 .illegalCommand 8) := by
  rw [execMpStart, if_pos hrun, State.fail_ended]
  rfl

/-- Keyless, it answers `NoKey` (R200). -/
theorem execMpStart_of_keyless (hrun : s.mp.phase ≠ .run) (hkey : s.fc.keyed = false) :
    execMpStart mode dir pad s = .next (ended s 0 .noKey 1) := by
  rw [execMpStart, if_neg hrun, if_pos hkey, State.fail_ended]
  rfl

/-- Without the IV that a chaining mode needs, it answers `NoIV` (R200). -/
theorem execMpStart_of_no_iv (hrun : s.mp.phase ≠ .run) (hkey : s.fc.keyed = true) (hmode : mode ≠ .ecb)
    (hiv : s.mp.ivValid = false) : execMpStart mode dir pad s = .next (ended s 0 .noIV 7) := by
  rw [execMpStart, if_neg hrun, if_neg (by simp [hkey]), if_pos ⟨hmode, hiv⟩, State.fail_ended]
  rfl

/-- Otherwise the stream begins (R200). -/
theorem execMpStart_of_canStart {mode : Mode} (h : CanStart s mode) :
    execMpStart mode dir pad s = .next (done { s with mp := s.mp.begin mode dir pad } 0) := by
  have hrun : s.mp.phase ≠ .run := by simp [h.idle]
  have hkey : s.fc.keyed ≠ false := by simp [h.keyed]
  have hiv : ¬(mode ≠ .ecb ∧ s.mp.ivValid = false) := fun ⟨hmode, hno⟩ => by simp [h.iv hmode] at hno
  rw [execMpStart, if_neg hrun, if_neg hkey, if_neg hiv, State.respond_done]
  rfl

end

/-! ### Feeding a stream -/

section
variable {s : State} (len : BitVec 16) (hn : len.toNat ≤ s.din.length)
include hn

/-- With a stream in progress `MP.DATA` feeds its chunk (R201). -/
theorem execMpData_of_run (hrun : s.mp.phase = .run) :
    execMpData len s = .next { (ended s len.toNat .ok 0) with
      mp := (s.mp.feed s.fc (payload s len.toNat)).2
      dout := s.dout ++ (s.mp.feed s.fc (payload s len.toNat)).1 } := by
  have htaken : ¬(s.taken len.toNat).mp.phase ≠ .run := not_not_intro hrun
  rw [execMpData, State.withPayload_taken s _ hn, if_neg htaken]
  rfl

/-- With none it is refused (R201). -/
theorem execMpData_of_not_run (hrun : s.mp.phase ≠ .run) :
    execMpData len s = .next (ended s len.toNat .illegalCommand 8) := by
  have htaken : (s.taken len.toNat).mp.phase ≠ .run := hrun
  rw [execMpData, State.withPayload_taken s _ hn, if_pos htaken, State.fail_taken]
  rfl

end

/-! ### Ending a stream -/

section
variable {s : State}

/-- With no stream in progress `MP.END` is refused (R208). -/
theorem execMpEnd_of_not_run (hrun : s.mp.phase ≠ .run) : execMpEnd s = .next (ended s 0 .illegalCommand 8) := by
  rw [execMpEnd, if_pos hrun, State.fail_ended]
  rfl

variable (hrun : s.mp.phase = .run)
include hrun

/-- The end of a CTR stream (R211). -/
theorem execMpEnd_of_ctr (hmode : s.mp.mode = .ctr) :
    execMpEnd s = .next (done { s with mp := s.mp.clear, dout := s.dout ++ s.mp.endCtr s.fc } 0) := by
  simp only [execMpEnd, hrun, hmode]
  rfl

section
variable (hmode : s.mp.mode ≠ .ctr)
include hmode

/-- The end of an ECB or CBC encrypt stream (R209). -/
theorem execMpEnd_of_encrypt (hdir : s.mp.dir = .encrypt) :
    execMpEnd s = .next (done { s with mp := s.mp.clear, dout := s.dout ++ s.mp.endEncrypt s.fc } 0) := by
  cases hm : s.mp.mode with
  | ctr => exact absurd hm hmode
  | ecb | cbc =>
    simp only [execMpEnd, hrun, hm, hdir]
    rfl

variable (hdir : s.mp.dir = .decrypt)
include hdir

/-- In ECB and CBC a decrypt stream ends by the rule of its own (R210). -/
theorem execMpEnd_of_decrypt : execMpEnd s = .next s.mpEndDecrypt := by
  cases hm : s.mp.mode with
  | ctr => exact absurd hm hmode
  | ecb | cbc =>
    simp only [execMpEnd, hrun, hm, hdir]
    rfl

/-- A decrypt stream cut inside a block (R210). -/
theorem execMpEnd_of_decrypt_cut (hfill : s.mp.fill ≠ 0) :
    execMpEnd s = .next (ended { s with mp := s.mp.clear } 0 .invalidLength 3) := by
  rw [execMpEnd_of_decrypt hrun hmode hdir, State.mpEndDecrypt, if_pos hfill, State.fail_ended]
  rfl

/-- A decrypt stream of whole blocks with a good filler (R210). -/
theorem execMpEnd_of_decrypt_some (hfill : s.mp.fill = 0) {o : List Byte} (ho : s.mp.endDecrypt s.fc = some o) :
    execMpEnd s = .next (done { s with mp := s.mp.clear, dout := s.dout ++ o } 0) := by
  rw [execMpEnd_of_decrypt hrun hmode hdir, State.mpEndDecrypt, if_neg (not_not_intro hfill), ho]
  rfl

/-- A decrypt stream of whole blocks with a bad filler (R210). -/
theorem execMpEnd_of_decrypt_none (hfill : s.mp.fill = 0) (ho : s.mp.endDecrypt s.fc = none) :
    execMpEnd s = .next (ended { s with mp := s.mp.clear } 0 .invalidPadding 4) := by
  rw [execMpEnd_of_decrypt hrun hmode hdir, State.mpEndDecrypt, if_neg (not_not_intro hfill), ho]
  exact congrArg Host.Outcome.next (State.fail_ended _ _)

end

end

end Sys2Proof.Machine

namespace Sys2Proof

open Machine

/-- Settles O27: the start and the three refusals, in the rule's order. -/
theorem mpStartBeginsAStream : Obligations.MpStartBeginsAStream := fun _ mode dir pad =>
  ⟨execMpStart_of_canStart dir pad, execMpStart_of_run mode dir pad, execMpStart_of_keyless mode dir pad,
    execMpStart_of_no_iv mode dir pad⟩

/-- Settles O28: the feed, its unit written as the fold of the byte step, and the refusal. -/
theorem mpDataFeedsTheChunk : Obligations.MpDataFeedsTheChunk := by
  refine fun s len hn => ⟨fun hrun => ?_, execMpData_of_not_run len hn⟩
  rw [← Mp.feed_snd_eq_foldl]
  exact execMpData_of_run len hn hrun

/-- Settles O32, exit by exit. -/
theorem mpEndEndsTheStream : Obligations.MpEndEndsTheStream := by
  intro s mp' tail held m1
  have hheld : (s.mp.flushPrev s.fc).1 = held := Mp.flushPrev_fst_eq _ _
  have hm1 : (s.mp.flushPrev s.fc).2 = m1 := Mp.flushPrev_snd_eq _ _
  have hunpad : s.mp.endDecrypt s.fc = unpadBlock s.mp.pad held := congrArg _ hheld
  refine ⟨execMpEnd_of_not_run, fun hrun hmode hdir => ⟨fun hpad htail => ?_, fun hpadded => ?_⟩,
    fun hrun hmode hdir => ⟨execMpEnd_of_decrypt_cut hrun hmode hdir, fun hfill o ho => ?_, fun hfill ho => ?_⟩,
    fun hrun hmode => ?_⟩
  · have hend : s.mp.endEncrypt s.fc = held := (s.mp.endEncrypt_of_empty s.fc hpad htail).trans hheld
    rw [← hend]
    exact execMpEnd_of_encrypt hrun hmode hdir
  · have hsome : ¬(s.mp.pad = .zero ∧ s.mp.tail = []) := fun ⟨hz, ht⟩ =>
      hpadded.elim (by simp [hz]) fun hne => hne ht
    have hend := s.mp.endEncrypt_of_tail s.fc hsome
    rw [hheld, hm1] at hend
    rw [List.append_assoc]
    exact hend ▸ execMpEnd_of_encrypt hrun hmode hdir
  · exact execMpEnd_of_decrypt_some hrun hmode hdir hfill (hunpad.trans ho)
  · exact execMpEnd_of_decrypt_none hrun hmode hdir hfill (hunpad.trans ho)
  · have hend := s.mp.endCtr_eq s.fc
    rw [hheld, hm1] at hend
    rw [List.append_assoc]
    exact hend ▸ execMpEnd_of_ctr hrun hmode

end Sys2Proof
end

section
/-! Which commands leave unit MP alone: all but its own five and the two aborts that name it (43_mode.md R190, R222;
10_state.md R32). -/

namespace Sys2Proof.Machine

/-! ### The branches of a command -/

/-- The command answers a next state in which unit MP is as it was. -/
def KeepsMp (r : Result) (s : State) : Prop := ∃ t, r = .next t ∧ t.mp = s.mp

section
variable {s t t' : State}

theorem keepsMp_next (h : t.mp = s.mp) : KeepsMp (.next t) s := ⟨t, rfl, h⟩

/-- A test leaves unit MP at `m` when both its branches do. -/
theorem mp_ite {p : Prop} [Decidable p] {m : Mp} (h : t.mp = m) (h' : t'.mp = m) : (if p then t else t').mp = m := by
  split
  · exact h
  · exact h'

/-- A payload command keeps unit MP when what it does with the payload does; waiting keeps it in any case (R62). -/
theorem keepsMp_withPayload {run : State → State} (n : Nat) (h : ∀ u, (run u).mp = u.mp) :
    KeepsMp (.next (s.withPayload n run)) s := by
  refine keepsMp_next ?_
  obtain ⟨-, hwait⟩ | ⟨-, hrun⟩ := s.withPayload_cases n run
  · rw [hwait]
  · rw [hrun]
    exact h _

end

/-! ### Unit MC's shared operations -/

section
variable (s : State)

/-- A chunk through unit MC (R257). -/
@[simp] theorem State.mcFeed_mp (l : List Byte) : (s.mcFeed l).mp = s.mp := by
  cases h : s.mc.phase with
  | idle => rw [s.mcFeed_idle l h]
  | tag => rw [s.mcFeed_tag l h]
  | chk => rw [s.mcFeed_chk l h]

/-- The installation of a MAC key (R252). -/
theorem State.macSetkey_mp (H : Hasher) (len : Nat) : (s.macSetkey H len).mp = s.mp := by
  unfold State.macSetkey
  dsimp only
  rw [State.macHashKey_snd]
  exact mp_ite rfl (mp_ite rfl rfl)

/-- The start of a MAC operation (R255). -/
theorem State.macStart_mp (H : Hasher) (path : Path) (quiet : Bool) : (s.macStart H path quiet).mp = s.mp := by
  unfold State.macStart
  refine mp_ite rfl (mp_ite rfl (mp_ite rfl ?_))
  cases path with
  | tag => rfl
  | check => rfl

/-- The end of one (R260, R262). -/
theorem State.macEnd_mp (H : Hasher) : (s.macEnd H).mp = s.mp := by
  unfold State.macEnd
  split
  · rfl
  · rw [State.macEndTag, State.mcFinish_eq]
    rfl
  · rw [State.macEndCheck, State.mcFinish_eq]
    exact mp_ite rfl (mp_ite rfl rfl)

/-! ### The other commands -/

/-- `RDSR` (R281). -/
theorem State.readStatus_mp (H : Hasher) (idx : BitVec 8) : (s.readStatus H idx).mp = s.mp := by
  unfold State.readStatus
  split <;> rfl

/-- `ABORT` of unit SB or MC (R282). -/
theorem execAbort_keepsMp {u : AbortUnit} (h : u = .sb ∨ u = .mc) : KeepsMp (execAbort u s) s := by
  refine keepsMp_next ?_
  rw [State.abortSb_eq, State.abortSb_eq, State.abortMc_eq, State.abortMc_eq]
  obtain rfl | rfl := h
  · exact mp_ite rfl rfl
  · rfl

/-- `SB.START` (R232). -/
theorem execSbStart_keepsMp (n : BitVec 8) : KeepsMp (execSbStart n s) s := by
  refine keepsMp_next ?_
  split
  · exact mp_ite rfl rfl
  · rfl

/-- No command outside unit MP writes it but the two aborts that name it (R222, R282). -/
theorem exec_keepsMp {i : Instr} (hunit : i.unit ≠ 2) (hmp : i ≠ .abort .mp) (hall : i ≠ .abort .all) :
    KeepsMp (exec i s) s := by
  cases i with
  | mpSetiv | mpRmiv | mpStart | mpData | mpEnd => exact absurd rfl hunit
  | abort u =>
    cases u with
    | all => exact absurd rfl hall
    | mp => exact absurd rfl hmp
    | sb => exact execAbort_keepsMp s (.inl rfl)
    | mc => exact execAbort_keepsMp s (.inr rfl)
  | nop | fcHaskey | mcHaskey => exact keepsMp_next rfl
  | rdsr idx => exact keepsMp_next (s.readStatus_mp _ idx)
  | fcSetkey len => exact keepsMp_withPayload _ fun _ => mp_ite rfl (mp_ite rfl rfl)
  | fcRmkey | mcRmkey => exact keepsMp_next (mp_ite rfl rfl)
  | fcEncblk | fcDecblk => exact keepsMp_withPayload _ fun u => (u.blockCommand_keeps _).2.1
  | sbStart n => exact execSbStart_keepsMp s n
  | sbData len => exact keepsMp_withPayload _ fun _ => mp_ite rfl rfl
  | sbEnd => exact keepsMp_next (mp_ite rfl (mp_ite rfl rfl))
  | mcSetkey len => exact keepsMp_withPayload _ (State.macSetkey_mp · _ _)
  | mcStart path quiet => exact keepsMp_next (s.macStart_mp _ path quiet)
  | mcData len => exact keepsMp_withPayload _ fun u => mp_ite rfl (u.mcFeed_mp u.rxbuf)
  | mcEnd => exact keepsMp_next (s.macEnd_mp _)

end

end Sys2Proof.Machine

namespace Sys2Proof

open Machine

/-- Settles O26: the IV commands write the IV alone, the start of a CBC or CTR stream copies it, and of the commands of
unit MP only those of the stream write the chain. -/
theorem ivIsLatchedAtStart : Obligations.IvIsLatchedAtStart := by
  refine ⟨fun s hn => execMpSetiv_of_payload hn, execMpRmiv_eq, fun s mode dir pad hstart hmode => ?_,
    fun i s hi hnotStart hnotData => ?_⟩
  · exact ⟨_, execMpStart_of_canStart dir pad hstart, if_neg hmode⟩
  · simp only [List.mem_cons, List.not_mem_nil, or_false, not_or] at hi
    obtain ⟨hend, hmp, hall⟩ := hi
    by_cases hunit : i.unit = 2
    · cases i with
      | mpSetiv =>
        rcases Nat.lt_or_ge s.din.length 8 with hwait | hn
        · exact ⟨s, congrArg Host.Outcome.next (s.withPayload_of_lt _ hwait), rfl⟩
        · exact ⟨_, execMpSetiv_of_payload hn, rfl⟩
      | mpRmiv => exact ⟨_, execMpRmiv_eq s, rfl⟩
      | mpStart mode dir pad => exact absurd rfl (hnotStart mode dir pad)
      | mpData len => exact absurd rfl (hnotData len)
      | mpEnd => exact absurd rfl hend
      | _ => simp [Instr.unit] at hunit
    · obtain ⟨t, ht, hkeep⟩ := exec_keepsMp s hunit hmp hall
      exact ⟨t, ht, by rw [hkeep]⟩

end Sys2Proof
end

section
/-! A stream of unit MP as a host issues it: what each of its commands does on a core that waits, and that the chunks of a
stream act through their concatenation alone (30_encoding.md R106, R107; 43_mode.md R220). -/

namespace Sys2Proof.Machine

open Safety

/-! ### The words of the three commands of a stream -/

theorem decode_encode_mpStart (mode : Mode) (dir : Dir) (pad : Pad) :
    decode (encode (.mpStart mode dir pad)) = .ok (.mpStart mode dir pad) := by
  cases mode <;> cases dir <;> cases pad <;> rfl

theorem decode_encode_mpData (len : BitVec 16) : decode (encode (.mpData len)) = .ok (.mpData len) := by
  obtain ⟨hunit, hop, harg, hlen⟩ := Laws.EncodeFields.mpData len
  unfold decode
  rw [hunit, hop, harg, hlen]
  rfl

theorem decode_encode_mpEnd : decode (encode .mpEnd) = .ok .mpEnd := rfl

/-- A chunk that one command can carry has its length as operand (R106). -/
theorem toNat_payloadLen {c : List Byte} (h : c.length ≤ Config.chunkMax) : (payloadLen c).toNat = c.length := by
  have hmax : Config.chunkMax = 65535 := rfl
  rw [payloadLen, BitVec.toNat_ofNat]
  omega

/-! ### Issuing commands -/

/-- What a waiting core holds once a command is presented (R61, R62). -/
theorem present_of_ready {s : State} (h : Ready s) (c : HostCmd) :
    s.present c = { s with cmd := [encode c.instr], din := c.payload } := by
  rw [State.present, h.cmd, h.din]
  rfl

/-- A waiting core executes the command that is presented (R342). -/
theorem issue_of_ready {s : State} (h : Ready s) (c : HostCmd) (hd : decode (encode c.instr) = .ok c.instr) :
    issue c s = exec c.instr { s with cmd := [encode c.instr], din := c.payload } := by
  rw [issue, present_of_ready h]
  simp [step, h.rstReq, hd]

/-- A sequence goes on from where its first command ends. -/
theorem runSeq_cons {c : HostCmd} {s t : State} (h : issue c s = .next t) (cs : List HostCmd) :
    runSeq (c :: cs) s = runSeq cs t := by
  rw [runSeq, h]

/-- A sequence goes on from where its first part ends. -/
theorem runSeq_append {a : List HostCmd} {s t : State} (h : runSeq a s = .next t) (b : List HostCmd) :
    runSeq (a ++ b) s = runSeq b t := by
  induction a generalizing s with
  | nil =>
    injection h with h
    rw [List.nil_append, h]
  | cons c cs ih =>
    cases hc : issue c s with
    | next u =>
      rw [runSeq_cons hc] at h
      rw [List.cons_append, runSeq_cons hc, ih h]
    | fault e => exact e.casesOn
    | refused e => simp [runSeq, hc] at h

/-- A stream is its start, its chunks and its end one after the other (R107). -/
theorem runSeq_mpStream {mode : Mode} {dir : Dir} {pad : Pad} {cs : List (List Byte)} {s t₀ t v : State}
    (hstart : issue ⟨.mpStart mode dir pad, []⟩ s = .next t₀)
    (hdata : runSeq (cs.map fun c => ⟨.mpData (payloadLen c), c⟩) t₀ = .next t)
    (hend : issue ⟨.mpEnd, []⟩ t = .next v) : runSeq (mpStream mode dir pad cs) s = .next v := by
  rw [mpStream, List.cons_append, runSeq_cons hstart, runSeq_append hdata, runSeq_cons hend]
  rfl

/-! ### How far a stream has come -/

/-- From `s` the core has come to `t`: it waits again, unit MP is `m`, `o` has gone out, and unit FC is as it was (R222). -/
structure Advanced (s t : State) (m : Mp) (o : List Byte) : Prop where
  ready : Ready t
  fc : t.fc = s.fc
  mp : t.mp = m
  dout : t.dout = s.dout ++ o

theorem Advanced.trans {s t v : State} {m m' : Mp} {o o' : List Byte} (h : Advanced s t m o)
    (h' : Advanced t v m' o') : Advanced s v m' (o ++ o') :=
  ⟨h'.ready, h'.fc.trans h.fc, h'.mp, by rw [h'.dout, h.dout, List.append_assoc]⟩

/-- What a chunk does to unit MP in either phase: a running stream is fed, with none nothing happens (R201). -/
def Mp.absorb (u : Fc) (m : Mp) (l : List Byte) : List Byte × Mp := if m.phase = .run then m.feed u l else ([], m)

theorem Mp.absorb_of_run (u : Fc) {m : Mp} (h : m.phase = .run) (l : List Byte) : m.absorb u l = m.feed u l := if_pos h

theorem Mp.absorb_of_not_run (u : Fc) {m : Mp} (h : m.phase ≠ .run) (l : List Byte) : m.absorb u l = ([], m) := if_neg h

@[simp] theorem Mp.absorb_nil (u : Fc) (m : Mp) : m.absorb u [] = ([], m) := by
  unfold Mp.absorb
  split <;> rfl

/-- Two chunks act as their concatenation (R220). -/
theorem Mp.absorb_append (u : Fc) (m : Mp) (a b : List Byte) :
    m.absorb u (a ++ b) = ((m.absorb u a).1 ++ ((m.absorb u a).2.absorb u b).1, ((m.absorb u a).2.absorb u b).2) := by
  by_cases h : m.phase = .run
  · obtain ⟨-, -, hphase, -, -, -⟩ := Mp.feed_keeps u m a
    rw [Mp.absorb_of_run u h, Mp.absorb_of_run u h, Mp.absorb_of_run u (hphase.trans h), Mp.feed_append]
  · simp [Mp.absorb_of_not_run u h]

/-! ### The commands of a stream on a waiting core -/

section
variable {s : State} (h : Ready s)
include h

/-- `MP.START`, accepted or not, leaves a core that waits (R200). -/
theorem issue_mpStart_ready (mode : Mode) (dir : Dir) (pad : Pad) :
    ∃ t, issue ⟨.mpStart mode dir pad, []⟩ s = .next t ∧ Ready t := by
  rw [issue_of_ready h ⟨.mpStart mode dir pad, []⟩ (decode_encode_mpStart mode dir pad)]
  refine ⟨_, rfl, ?_⟩
  split
  · exact ⟨rfl, rfl, h.rstReq⟩
  · split
    · exact ⟨rfl, rfl, h.rstReq⟩
    · split <;> exact ⟨rfl, rfl, h.rstReq⟩

/-- One chunk (R201). -/
theorem issue_mpData {c : List Byte} (hc : c.length ≤ Config.chunkMax) :
    ∃ t, issue ⟨.mpData (payloadLen c), c⟩ s = .next t ∧
      Advanced s t (s.mp.absorb s.fc c).2 (s.mp.absorb s.fc c).1 := by
  have hlen := toNat_payloadLen hc
  have htake : c.take (payloadLen c).toNat = c := List.take_of_length_le hlen.ge
  have hdrop : c.drop (payloadLen c).toNat = [] := List.drop_of_length_le hlen.ge
  rw [issue_of_ready h ⟨.mpData (payloadLen c), c⟩ (decode_encode_mpData _)]
  by_cases hrun : s.mp.phase = .run
  · refine ⟨_, execMpData_of_run _ hlen.le hrun, ⟨rfl, hdrop, h.rstReq⟩, rfl, ?_, ?_⟩
    all_goals
      rw [Mp.absorb_of_run _ hrun]
      simp only [Claims.payload, htake]
  · refine ⟨_, execMpData_of_not_run _ hlen.le hrun, ⟨rfl, hdrop, h.rstReq⟩, rfl, ?_, ?_⟩
    all_goals rw [Mp.absorb_of_not_run _ hrun]
    · rfl
    · exact (List.append_nil _).symm

/-- The chunks of a stream act as their concatenation (R220). -/
theorem runSeq_mpData {cs : List (List Byte)} (hcs : Chunks cs) :
    ∃ t, runSeq (cs.map fun c => ⟨.mpData (payloadLen c), c⟩) s = .next t ∧
      Advanced s t (s.mp.absorb s.fc cs.flatten).2 (s.mp.absorb s.fc cs.flatten).1 := by
  induction cs generalizing s with
  | nil => exact ⟨s, rfl, h, rfl, by simp, by simp⟩
  | cons c cs ih =>
    obtain ⟨hc, hrest⟩ := List.forall_mem_cons.mp hcs
    obtain ⟨t, ht, hadv⟩ := issue_mpData h hc
    obtain ⟨v, hv, hadv'⟩ := ih hadv.ready hrest
    rw [hadv.fc, hadv.mp] at hadv'
    refine ⟨v, (runSeq_cons ht _).trans hv, ?_⟩
    rw [List.flatten_cons, Mp.absorb_append]
    exact hadv.trans hadv'

end

/-- What `MP.END` makes of unit MP, puts out and answers is a function of units MP and FC (R208, R222). -/
theorem execMpEnd_determined (m : Mp) (u : Fc) :
    ∃ (m' : Mp) (o : List Byte) (q : Word), ∀ s : State, s.mp = m → s.fc = u →
      ∃ t, execMpEnd s = .next t ∧ t.mp = m' ∧ t.dout = s.dout ++ o ∧ t.rsp = s.rsp ++ [q] := by
  by_cases hrun : m.phase = .run
  · by_cases hmode : m.mode = .ctr
    · refine ⟨m.clear, m.endCtr u, 0, ?_⟩
      rintro s rfl rfl
      exact ⟨_, execMpEnd_of_ctr hrun hmode, rfl, rfl, rfl⟩
    · cases hdir : m.dir with
      | encrypt =>
        refine ⟨m.clear, m.endEncrypt u, 0, ?_⟩
        rintro s rfl rfl
        exact ⟨_, execMpEnd_of_encrypt hrun hmode hdir, rfl, rfl, rfl⟩
      | decrypt =>
        by_cases hfill : m.fill = 0
        · cases ho : m.endDecrypt u with
          | none =>
            refine ⟨m.clear, [], 4, ?_⟩
            rintro s rfl rfl
            exact ⟨_, execMpEnd_of_decrypt_none hrun hmode hdir hfill ho, rfl, (List.append_nil _).symm, rfl⟩
          | some o =>
            refine ⟨m.clear, o, 0, ?_⟩
            rintro s rfl rfl
            exact ⟨_, execMpEnd_of_decrypt_some hrun hmode hdir hfill ho, rfl, rfl, rfl⟩
        · refine ⟨m.clear, [], 3, ?_⟩
          rintro s rfl rfl
          exact ⟨_, execMpEnd_of_decrypt_cut hrun hmode hdir hfill, rfl, (List.append_nil _).symm, rfl⟩
  · refine ⟨m, [], 8, ?_⟩
    rintro s rfl rfl
    exact ⟨_, execMpEnd_of_not_run hrun, rfl, (List.append_nil _).symm, rfl⟩

/-- So two waiting cores that agree in these units and in what they have put out end a stream alike (R208). -/
theorem issue_mpEnd_congr {s s' : State} (h : Ready s) (h' : Ready s') (hmp : s.mp = s'.mp) (hfc : s.fc = s'.fc)
    (hdout : s.dout = s'.dout) :
    ∃ t t', issue ⟨.mpEnd, []⟩ s = .next t ∧ issue ⟨.mpEnd, []⟩ s' = .next t' ∧
      t.dout = t'.dout ∧ t.rsp.getLast? = t'.rsp.getLast? ∧ t.mp = t'.mp := by
  obtain ⟨m, o, q, hend⟩ := execMpEnd_determined s.mp s.fc
  rw [issue_of_ready h ⟨.mpEnd, []⟩ decode_encode_mpEnd, issue_of_ready h' ⟨.mpEnd, []⟩ decode_encode_mpEnd]
  obtain ⟨t, ht, hm, ho, hq⟩ := hend { s with cmd := [encode .mpEnd], din := [] } rfl rfl
  obtain ⟨t', ht', hm', ho', hq'⟩ := hend { s' with cmd := [encode .mpEnd], din := [] } hmp.symm hfc.symm
  refine ⟨t, t', ht, ht', ?_, ?_, hm.trans hm'.symm⟩
  · rw [ho, ho']
    exact congrArg (· ++ o) hdout
  · rw [hq, hq', List.getLast?_concat, List.getLast?_concat]

end Sys2Proof.Machine

namespace Sys2Proof

open Machine

/-- Settles O33: after the common start both streams absorb the same bytes, so they end alike. -/
theorem mpChunkIndependence : Obligations.MpChunkIndependence := by
  intro s mode dir pad cs cs' hready hcs hcs' hflat
  obtain ⟨t₀, hstart, hready₀⟩ := issue_mpStart_ready hready mode dir pad
  obtain ⟨t, hdata, hadv⟩ := runSeq_mpData hready₀ hcs
  obtain ⟨t', hdata', hadv'⟩ := runSeq_mpData hready₀ hcs'
  rw [← hflat] at hadv'
  obtain ⟨v, v', hend, hend', hdout, hrsp, hmp⟩ := issue_mpEnd_congr hadv.ready hadv'.ready
    (hadv.mp.trans hadv'.mp.symm) (hadv.fc.trans hadv'.fc.symm) (hadv.dout.trans hadv'.dout.symm)
  exact ⟨v, v', runSeq_mpStream hstart hdata hend, runSeq_mpStream hstart hdata' hend', hdout, hrsp, hmp⟩

end Sys2Proof
end

section
/-! A stream of unit MP block by block. At any moment what has gone out, with the held-back block finalised, and the chain
are the mode's block function run over the whole blocks read so far. The ends of a stream and the round trip follow from this
and from the inverse law of one block (43_mode.md R202 to R211, R221). -/

namespace Sys2Proof.Machine

open Safety Claims

/-! ### The mode's block function -/

/-- `finalise` as a function of the chain: the block that leaves and the next chain (R203 to R205). -/
def modeBlock (u : Fc) (mode : Mode) (dir : Dir) (c x : Block) : Block × Block :=
  let r := ({ Mp.reset with mode := mode, dir := dir, chain := c } : Mp).finalise u x
  (r.1, r.2.chain)

/-- The block function along a list of blocks: the blocks that leave and the last chain. -/
def modeBlocks (u : Fc) (mode : Mode) (dir : Dir) : Block → List Block → List Block × Block
  | c, [] => ([], c)
  | c, x :: xs =>
    let r := modeBlock u mode dir c x
    let rs := modeBlocks u mode dir r.2 xs
    (r.1 :: rs.1, rs.2)

/-- `finalise` reads mode, direction and chain, and writes the chain (R203 to R205). -/
theorem Mp.finalise_eq_modeBlock (u : Fc) (m : Mp) (x : Block) :
    m.finalise u x = ((modeBlock u m.mode m.dir m.chain x).1,
      { m with chain := (modeBlock u m.mode m.dir m.chain x).2 }) := by
  obtain ⟨_, _, _, mode, dir⟩ := m
  cases mode with
  | ecb | cbc => cases dir <;> rfl
  | ctr => rfl

section
variable (u : Fc) (mode : Mode) (dir : Dir) (c : Block)

theorem modeBlocks_cons (x : Block) (xs : List Block) :
    modeBlocks u mode dir c (x :: xs) =
      ((modeBlock u mode dir c x).1 :: (modeBlocks u mode dir (modeBlock u mode dir c x).2 xs).1,
        (modeBlocks u mode dir (modeBlock u mode dir c x).2 xs).2) := rfl

/-- One block more at the end. -/
theorem modeBlocks_concat (xs : List Block) (x : Block) :
    modeBlocks u mode dir c (xs ++ [x]) =
      ((modeBlocks u mode dir c xs).1 ++ [(modeBlock u mode dir (modeBlocks u mode dir c xs).2 x).1],
        (modeBlock u mode dir (modeBlocks u mode dir c xs).2 x).2) := by
  induction xs generalizing c with
  | nil => rfl
  | cons y ys ih => simp [modeBlocks_cons, ih]

theorem modeBlocks_length (xs : List Block) : (modeBlocks u mode dir c xs).1.length = xs.length := by
  induction xs generalizing c with
  | nil => rfl
  | cons x xs ih => simp [modeBlocks_cons, ih]

/-- `D_K` undoes `E_K` (R159). -/
theorem Fc.decrypt_encrypt (x : Block) : u.decrypt (u.encrypt x) = x := u.crypt_reverse_crypt u.rk.toList x

/-- Decryption of an encrypted block gives the block back and leaves the same chain (R203 to R205, R221). -/
theorem modeBlock_decrypt_encrypt (x : Block) :
    modeBlock u mode .decrypt c (modeBlock u mode .encrypt c x).1 = (x, (modeBlock u mode .encrypt c x).2) := by
  cases mode with
  | ecb | cbc => simp [modeBlock, Mp.finalise, Fc.decrypt_encrypt]
  | ctr => simp [modeBlock, Mp.finalise]

/-- So does decryption of a list of blocks. -/
theorem modeBlocks_decrypt_encrypt (xs : List Block) :
    modeBlocks u mode .decrypt c (modeBlocks u mode .encrypt c xs).1 = (xs, (modeBlocks u mode .encrypt c xs).2) := by
  induction xs generalizing c with
  | nil => rfl
  | cons x xs ih => simp [modeBlocks_cons, modeBlock_decrypt_encrypt, ih]

end

/-! ### Bytes and blocks -/

theorem joinBlocks_cons (x : Block) (xs : List Block) : joinBlocks (x :: xs) = x.toList ++ joinBlocks xs := rfl

theorem joinBlocks_append (xs ys : List Block) : joinBlocks (xs ++ ys) = joinBlocks xs ++ joinBlocks ys := by
  simp [joinBlocks]

@[simp] theorem joinBlocks_singleton (x : Block) : joinBlocks [x] = x.toList := by simp [joinBlocks]

theorem joinBlocks_length (xs : List Block) : (joinBlocks xs).length = 8 * xs.length := by
  induction xs with
  | nil => rfl
  | cons x xs ih =>
    rw [joinBlocks_cons, List.length_append, ih, Vector.length_toList, List.length_cons]
    omega

/-- A byte sequence is cut into blocks and a short tail in one way only. -/
theorem joinBlocks_append_inj {xs ys : List Block} {t t' : List Byte} (ht : t.length ≤ 7) (ht' : t'.length ≤ 7)
    (h : joinBlocks xs ++ t = joinBlocks ys ++ t') : xs = ys ∧ t = t' := by
  have hlen := congrArg List.length h
  simp only [List.length_append, joinBlocks_length] at hlen
  induction xs generalizing ys with
  | nil =>
    cases ys with
    | nil => exact ⟨rfl, h⟩
    | cons y ys => simp at hlen; omega
  | cons x xs ih =>
    cases ys with
    | nil => simp at hlen; omega
    | cons y ys =>
      rw [joinBlocks_cons, joinBlocks_cons, List.append_assoc, List.append_assoc] at h
      obtain ⟨hx, hrest⟩ := List.append_inj h (by simp)
      obtain ⟨hxs, htail⟩ := ih hrest (by simp at hlen; omega)
      exact ⟨by rw [hxs, Vector.toList_inj.mp hx], htail⟩

/-- The blocks that a short tail is padded to: one, or none under `ZERO` with nothing to pad (R180, R209). -/
def padBlocks (pad : Pad) (t : List Byte) : List Block :=
  if pad = .zero ∧ t = [] then [] else [fit 8 (padTail pad t)]

/-- They hold the padded tail. -/
theorem joinBlocks_padBlocks (pad : Pad) {t : List Byte} (h : t.length ≤ 7) :
    joinBlocks (padBlocks pad t) = padTail pad t := by
  have hlen := padTail_length pad h
  unfold padBlocks
  by_cases hnone : pad = .zero ∧ t = []
  · rw [if_pos hnone] at hlen ⊢
    exact (List.length_eq_zero_iff.mp hlen).symm
  · rw [if_neg hnone] at hlen ⊢
    rw [joinBlocks_singleton, toList_fit hlen]

/-! ### The unit in the middle of a stream -/

section
variable (u : Fc) (m : Mp)

/-- What flushing puts out, by the mode's block function. -/
theorem Mp.flushPrev_fst_modeBlock :
    (m.flushPrev u).1 = if m.prevValid then (modeBlock u m.mode m.dir m.chain m.prev).1.toList else [] := by
  rw [Mp.flushPrev_fst_eq, Mp.finalise_eq_modeBlock]

/-- The chain after flushing. -/
theorem Mp.flushPrev_chain_modeBlock :
    (m.flushPrev u).2.chain = if m.prevValid then (modeBlock u m.mode m.dir m.chain m.prev).2 else m.chain := by
  rw [Mp.flushPrev_snd_eq, Mp.finalise_eq_modeBlock]
  split <;> rfl

@[simp] theorem Mp.flushPrev_mode : (m.flushPrev u).2.mode = m.mode := by rw [Mp.flushPrev_snd]

@[simp] theorem Mp.flushPrev_dir : (m.flushPrev u).2.dir = m.dir := by rw [Mp.flushPrev_snd]

/-- A block just held back, flushed. -/
theorem Mp.flushPrev_holdBlock_fst (x : Block) :
    ((m.holdBlock x).flushPrev u).1 = (modeBlock u m.mode m.dir m.chain x).1.toList := Mp.flushPrev_fst_modeBlock _ _

theorem Mp.flushPrev_holdBlock_chain (x : Block) :
    ((m.holdBlock x).flushPrev u).2.chain = (modeBlock u m.mode m.dir m.chain x).2 := Mp.flushPrev_chain_modeBlock _ _

/-- A byte stored in the block in assembly is the tail's last. -/
theorem firstBytes_set (x : Block) (k : Nat) (b : Byte) (hk : k < 8) :
    firstBytes (x.set k b hk) (k + 1) = firstBytes x k ++ [b] := by
  have hlen : k < x.toList.length := by simpa using hk
  rw [firstBytes, firstBytes, Vector.toList_set, List.take_succ_eq_append_getElem (by simpa using hk),
    List.take_set_of_le le_rfl, List.getElem_set_self]

/-- The block that its last byte completes is the tail and that byte. -/
theorem Mp.toList_set_last (b : Byte) (h : m.fill.val = 7) :
    (m.cur.set m.fill.val b m.fill.isLt).toList = m.tail ++ [b] := by
  have hset := firstBytes_set m.cur m.fill.val b m.fill.isLt
  rwa [firstBytes, List.take_of_length_le (by simp [h])] at hset

end

/-- Unit MP has read `l`, the blocks `xs` and its tail, from the chain `c` on, and put out `o`: what has gone out and the
held-back block finalised are the blocks that leave, and the chain then is the last one (R202, R206). -/
structure Mp.Gathered (u : Fc) (m : Mp) (c : Block) (xs : List Block) (l o : List Byte) : Prop where
  input : l = joinBlocks xs ++ m.tail
  output : o ++ (m.flushPrev u).1 = joinBlocks (modeBlocks u m.mode m.dir c xs).1
  chain : (m.flushPrev u).2.chain = (modeBlocks u m.mode m.dir c xs).2
  held : m.prevValid = false → xs = []

/-- A fresh unit has read nothing (R200). -/
theorem Mp.gathered_begin (u : Fc) (m : Mp) (mode : Mode) (dir : Dir) (pad : Pad) :
    (m.begin mode dir pad).Gathered u (m.begin mode dir pad).chain [] [] [] where
  input := rfl
  output := rfl
  chain := rfl
  held := fun _ => rfl

section
variable {u : Fc} {m : Mp} {c : Block} {xs : List Block} {l o : List Byte} (h : m.Gathered u c xs l o)
include h

/-- One byte more (R202): it joins the tail, or completes a block more. -/
theorem Mp.Gathered.byteStep (b : Byte) :
    ∃ xs', (m.byteStep u b).2.Gathered u c xs' (l ++ [b]) (o ++ (m.byteStep u b).1) := by
  obtain ⟨hlt, hstep⟩ | ⟨hlast, hstep⟩ := Mp.byteStep_cases u m b
  · rw [hstep]
    refine ⟨xs, ?_, ?_, ?_, h.held⟩
    · rw [h.input, List.append_assoc]
      exact congrArg _ (firstBytes_set m.cur m.fill.val b m.fill.isLt).symm
    · rw [List.append_nil, ← h.output, Mp.flushPrev_fst_modeBlock, Mp.flushPrev_fst_modeBlock]
    · rw [← h.chain, Mp.flushPrev_chain_modeBlock, Mp.flushPrev_chain_modeBlock]
  · rw [hstep]
    refine ⟨xs ++ [m.cur.set m.fill.val b m.fill.isLt], ?_, ?_, ?_, fun hnone => absurd hnone (by simp)⟩
    · rw [h.input, joinBlocks_append, joinBlocks_singleton, Mp.toList_set_last m b hlast, List.append_assoc]
      exact (List.append_nil _).symm
    · simp [h.output, h.chain, Mp.flushPrev_holdBlock_fst, modeBlocks_concat, joinBlocks_append]
    · simp [h.chain, Mp.flushPrev_holdBlock_chain, modeBlocks_concat]

end

/-- A chunk more (R201). -/
theorem Mp.Gathered.feed {u : Fc} {m : Mp} {c : Block} {xs : List Block} {l o : List Byte}
    (h : m.Gathered u c xs l o) (bs : List Byte) :
    ∃ xs', (m.feed u bs).2.Gathered u c xs' (l ++ bs) (o ++ (m.feed u bs).1) := by
  induction bs generalizing m xs l o with
  | nil => exact ⟨xs, by simpa using h⟩
  | cons b bs ih =>
    obtain ⟨ys, hstep⟩ := h.byteStep b
    obtain ⟨zs, hrest⟩ := ih hstep
    exact ⟨zs, by simpa [Mp.feed_cons] using hrest⟩

/-! ### The ends of a stream -/

section
variable {u : Fc} {m : Mp} {c : Block} {xs : List Block} {l o : List Byte} (h : m.Gathered u c xs l o)
include h

/-- An encrypt stream has put out the blocks that the padded message gives (R209). -/
theorem Mp.Gathered.endEncrypt :
    o ++ m.endEncrypt u = joinBlocks (modeBlocks u m.mode m.dir c (xs ++ padBlocks m.pad m.tail)).1 := by
  by_cases hnone : m.pad = .zero ∧ m.tail = []
  · rw [m.endEncrypt_of_empty u hnone.1 hnone.2, h.output, padBlocks, if_pos hnone, List.append_nil]
  · rw [m.endEncrypt_of_tail u hnone, ← List.append_assoc, h.output, padBlocks, if_neg hnone, modeBlocks_concat,
      joinBlocks_append, joinBlocks_singleton, ← h.chain, Mp.finalise_eq_modeBlock, Mp.flushPrev_mode, Mp.flushPrev_dir]

/-- A CTR stream has put out its blocks and its tail under the keystream (R211). -/
theorem Mp.Gathered.endCtr :
    o ++ m.endCtr u = joinBlocks (modeBlocks u m.mode m.dir c xs).1 ++
      List.zipWith (· ^^^ ·) m.tail (u.encrypt (modeBlocks u m.mode m.dir c xs).2).toList := by
  rw [m.endCtr_eq, ← List.append_assoc, h.output, h.chain]

/-- A decrypt stream over what an encrypt stream of the blocks `ws` and the tail `t` has put out is whole, and has put out
these blocks and what unpadding leaves of the padded tail (R210, R186). -/
theorem Mp.Gathered.endDecrypt (hdir : m.dir = .decrypt) {ws : List Block} {t : List Byte} (ht : t.length ≤ 7)
    (hl : l = joinBlocks (modeBlocks u m.mode .encrypt c (ws ++ padBlocks m.pad t)).1) :
    m.fill = 0 ∧ ∃ r, m.endDecrypt u = some r ∧
      o ++ r = joinBlocks ws ++ if m.pad = .zero then padZero t else t := by
  have hcut : joinBlocks xs ++ m.tail =
      joinBlocks (modeBlocks u m.mode .encrypt c (ws ++ padBlocks m.pad t)).1 ++ [] := by
    rw [← h.input, hl, List.append_nil]
  obtain ⟨hxs, htail⟩ := joinBlocks_append_inj m.tail_length_le (by simp) hcut
  have hout : o ++ (m.flushPrev u).1 = joinBlocks ws ++ padTail m.pad t := by
    rw [h.output, hdir, hxs, modeBlocks_decrypt_encrypt, joinBlocks_append, joinBlocks_padBlocks m.pad ht]
  refine ⟨m.tail_eq_nil_iff.mp htail, ?_⟩
  unfold Mp.endDecrypt
  cases hpad : m.pad with
  | zero =>
    rw [hpad] at hout
    exact ⟨_, rfl, hout⟩
  | len =>
    rw [hpad] at hout hxs
    have hheld : m.prevValid = true := by
      by_contra hnone
      have hempty := congrArg List.length (hxs.symm.trans (h.held (by simpa using hnone)))
      rw [modeBlocks_length] at hempty
      simp [padBlocks] at hempty
    have hlen : (m.flushPrev u).1.length = (padLen t).length := by
      rw [Mp.flushPrev_length, if_pos hheld, padLen_length ht]
    obtain ⟨ho, hlast⟩ := List.append_inj' hout hlen
    exact ⟨t, by rw [hlast]; exact unpadLen_padLen ht, by rw [ho]; rfl⟩

end

end Sys2Proof.Machine
end

section
/-! Whole streams of unit MP from a core that waits, and the round trip (43_mode.md R200 to R212, R221). -/

namespace Sys2Proof.Machine

open Safety Claims

/-! ### The middle of a stream -/

/-- Between `MP.START` and `MP.END`: the core has come from `s` to `t`, the stream running as it was started, with `l` read
and `o` put out (R200, R202). -/
structure Streaming (s t : State) (mode : Mode) (dir : Dir) (pad : Pad) (xs : List Block) (l o : List Byte) : Prop
    extends Advanced s t ((s.mp.begin mode dir pad).feed s.fc l).2 o where
  phase : t.mp.phase = .run
  mode_eq : t.mp.mode = mode
  dir_eq : t.mp.dir = dir
  pad_eq : t.mp.pad = pad
  iv : t.mp.iv = s.mp.iv
  ivValid : t.mp.ivValid = s.mp.ivValid
  gathered : t.mp.Gathered s.fc (s.mp.begin mode dir pad).chain xs l o

/-- The end of a stream that succeeded: the core waits, the unit is idle with its IV, and `o` has gone out (R208). -/
structure StreamOk (s t : State) (o : List Byte) : Prop where
  ready : Ready t
  fc : t.fc = s.fc
  idle : t.mp.phase = .idle
  iv : t.mp.iv = s.mp.iv
  ivValid : t.mp.ivValid = s.mp.ivValid
  ok : t.lastCode = .ok
  dout : t.dout = s.dout ++ o

/-- After it another stream can start (R200). -/
theorem StreamOk.canStart {s t : State} {o : List Byte} (h : StreamOk s t o) {mode : Mode} (hs : CanStart s mode) :
    CanStart t mode :=
  ⟨h.idle, by rw [h.fc, hs.keyed], fun hmode => by rw [h.ivValid, hs.iv hmode]⟩

/-- Its chain begins as that of this one did (R200). -/
theorem StreamOk.begin_chain {s t : State} {o : List Byte} (h : StreamOk s t o) (mode : Mode) (dir dir' : Dir)
    (pad : Pad) : (t.mp.begin mode dir pad).chain = (s.mp.begin mode dir' pad).chain := by
  rw [Mp.begin_chain, Mp.begin_chain, h.iv]

section
variable {s : State} {mode : Mode} {cs : List (List Byte)} (h : Ready s) (hs : CanStart s mode) (hcs : Chunks cs)
include h hs

/-- `MP.START` when a stream can start (R200). -/
theorem issue_mpStart (dir : Dir) (pad : Pad) :
    ∃ t, issue ⟨.mpStart mode dir pad, []⟩ s = .next t ∧ Advanced s t (s.mp.begin mode dir pad) [] := by
  rw [issue_of_ready h ⟨.mpStart mode dir pad, []⟩ (decode_encode_mpStart mode dir pad)]
  have hs' : CanStart { s with cmd := [encode (.mpStart mode dir pad)], din := [] } mode := ⟨hs.idle, hs.keyed, hs.iv⟩
  exact ⟨_, execMpStart_of_canStart dir pad hs', ⟨rfl, rfl, h.rstReq⟩, rfl, rfl, (List.append_nil _).symm⟩

include hcs

/-- A stream up to its end: what `MP.END` then does ends the whole sequence (R107). -/
theorem exists_streaming (dir : Dir) (pad : Pad) :
    ∃ t xs o, Streaming s t mode dir pad xs cs.flatten o ∧
      ∀ v, issue ⟨.mpEnd, []⟩ t = .next v → runSeq (mpStream mode dir pad cs) s = .next v := by
  obtain ⟨t₀, hstart, hadv₀⟩ := issue_mpStart h hs dir pad
  obtain ⟨t, hdata, hadv⟩ := runSeq_mpData hadv₀.ready hcs
  rw [hadv₀.fc, hadv₀.mp, Mp.absorb_of_run _ rfl] at hadv
  obtain ⟨xs, hgath⟩ := (Mp.gathered_begin s.fc s.mp mode dir pad).feed cs.flatten
  obtain ⟨hiv, hvalid, hphase, hmode, hdir, hpad⟩ := Mp.feed_keeps s.fc (s.mp.begin mode dir pad) cs.flatten
  have hadv' := hadv₀.trans hadv
  rw [← hadv'.mp] at hiv hvalid hphase hmode hdir hpad hgath
  exact ⟨t, xs, _, ⟨hadv', hphase, hmode, hdir, hpad, hiv, hvalid, hgath⟩, fun v => runSeq_mpStream hstart hdata⟩

end

/-- `MP.END` that succeeds with `o'` ends the stream (R208). -/
theorem Streaming.finish {s t : State} {mode : Mode} {dir : Dir} {pad : Pad} {xs : List Block} {l o o' : List Byte}
    (h : Streaming s t mode dir pad xs l o)
    (hend : ∀ v : State, v.mp = t.mp → v.fc = s.fc →
      execMpEnd v = .next (done { v with mp := v.mp.clear, dout := v.dout ++ o' } 0)) :
    ∃ v, issue ⟨.mpEnd, []⟩ t = .next v ∧ StreamOk s v (o ++ o') := by
  rw [issue_of_ready h.ready ⟨.mpEnd, []⟩ decode_encode_mpEnd]
  refine ⟨_, hend _ rfl h.fc, ⟨rfl, rfl, h.ready.rstReq⟩, h.fc, rfl, h.iv, h.ivValid, rfl, ?_⟩
  rw [← List.append_assoc, ← h.dout]
  rfl

/-! ### Whole streams -/

section
variable {s : State} {mode : Mode} {cs : List (List Byte)} (h : Ready s) (hs : CanStart s mode) (hcs : Chunks cs)
include h hs hcs

/-- An ECB or CBC encrypt stream puts out its blocks and its padded tail through the block function (R209). -/
theorem encryptStream (pad : Pad) (hmode : mode ≠ .ctr) :
    ∃ t xs tail, runSeq (mpStream mode .encrypt pad cs) s = .next t ∧
      cs.flatten = joinBlocks xs ++ tail ∧ tail.length ≤ 7 ∧
      StreamOk s t (joinBlocks
        (modeBlocks s.fc mode .encrypt (s.mp.begin mode .encrypt pad).chain (xs ++ padBlocks pad tail)).1) := by
  obtain ⟨t, xs, o, hstr, hrun⟩ := exists_streaming h hs hcs .encrypt pad
  obtain ⟨v, hv, hok⟩ := hstr.finish (o' := t.mp.endEncrypt s.fc) fun v hmp hfc => by
    rw [← hmp, ← hfc]
    refine execMpEnd_of_encrypt ?_ ?_ ?_ <;> simp [hmp, hstr.phase, hstr.mode_eq, hmode, hstr.dir_eq]
  rw [hstr.gathered.endEncrypt, hstr.mode_eq, hstr.dir_eq, hstr.pad_eq] at hok
  exact ⟨v, xs, t.mp.tail, hrun v hv, hstr.gathered.input, t.mp.tail_length_le, hok⟩

/-- A CTR stream, in either direction, puts out its blocks through the block function and its tail under the keystream
(R211). -/
theorem ctrStream (dir : Dir) (pad : Pad) (hmode : mode = .ctr) :
    ∃ t xs tail, runSeq (mpStream mode dir pad cs) s = .next t ∧
      cs.flatten = joinBlocks xs ++ tail ∧ tail.length ≤ 7 ∧
      StreamOk s t (joinBlocks (modeBlocks s.fc mode dir (s.mp.begin mode dir pad).chain xs).1 ++
        List.zipWith (· ^^^ ·) tail
          (s.fc.encrypt (modeBlocks s.fc mode dir (s.mp.begin mode dir pad).chain xs).2).toList) := by
  obtain ⟨t, xs, o, hstr, hrun⟩ := exists_streaming h hs hcs dir pad
  obtain ⟨v, hv, hok⟩ := hstr.finish (o' := t.mp.endCtr s.fc) fun v hmp hfc => by
    rw [← hmp, ← hfc]
    refine execMpEnd_of_ctr ?_ ?_ <;> simp [hmp, hstr.phase, hstr.mode_eq, hmode]
  rw [hstr.gathered.endCtr, hstr.mode_eq, hstr.dir_eq] at hok
  exact ⟨v, xs, t.mp.tail, hrun v hv, hstr.gathered.input, t.mp.tail_length_le, hok⟩

/-- An ECB or CBC decrypt stream over what an encrypt stream has put out gives the blocks back and what unpadding leaves of
the padded tail (R210). -/
theorem decryptStream (pad : Pad) (hmode : mode ≠ .ctr) {ws : List Block} {tail : List Byte} (htail : tail.length ≤ 7)
    (hflat : cs.flatten = joinBlocks
      (modeBlocks s.fc mode .encrypt (s.mp.begin mode .encrypt pad).chain (ws ++ padBlocks pad tail)).1) :
    ∃ t, runSeq (mpStream mode .decrypt pad cs) s = .next t ∧
      StreamOk s t (joinBlocks ws ++ if pad = .zero then padZero tail else tail) := by
  obtain ⟨t, xs, o, hstr, hrun⟩ := exists_streaming h hs hcs .decrypt pad
  have hgath := hstr.gathered
  rw [hflat] at hgath
  obtain ⟨hfill, r, hr, hout⟩ := hgath.endDecrypt hstr.dir_eq (ws := ws) htail (by rw [hstr.mode_eq, hstr.pad_eq]; rfl)
  obtain ⟨v, hv, hok⟩ := hstr.finish (o' := r) fun v hmp hfc => by
    refine execMpEnd_of_decrypt_some ?_ ?_ ?_ ?_ (hmp ▸ hfc ▸ hr) <;>
    simp [hmp, hstr.phase, hstr.mode_eq, hmode, hstr.dir_eq, hfill]
  rw [hout, hstr.pad_eq] at hok
  exact ⟨v, hrun v hv, hok⟩

end

/-! ### The round trip -/

/-- The keystream taken off what it was put on. -/
theorem zipWith_xor_zipWith_xor {a k : List Byte} (h : a.length ≤ k.length) :
    List.zipWith (· ^^^ ·) (List.zipWith (· ^^^ ·) a k) k = a := by
  refine List.ext_getElem (by simpa using h) fun i _ _ => ?_
  simp

/-- The zero padding of a message is that of its tail (R181). -/
theorem joinBlocks_append_padZero (xs : List Block) {t : List Byte} (ht : t.length ≤ 7) :
    joinBlocks xs ++ padZero t =
      (joinBlocks xs ++ t) ++ List.replicate ((8 - (joinBlocks xs ++ t).length % 8) % 8) 0 := by
  have hfill : (8 - t.length) % 8 = (8 - (joinBlocks xs ++ t).length % 8) % 8 := by
    rw [List.length_append, joinBlocks_length]
    omega
  rw [padZero, rep, hfill, List.append_assoc]

section
variable {s : State} {mode : Mode} {cs cs' : List (List Byte)} (h : Ready s) (hs : CanStart s mode) (hcs : Chunks cs)
  (hcs' : Chunks cs') (pad : Pad)
include h hs hcs hcs'

/-- The round trip in ECB and CBC (R221). -/
theorem roundTrip_of_ne_ctr (hmode : mode ≠ .ctr) :
    ∃ t o, runSeq (mpStream mode .encrypt pad cs) s = .next t ∧ StreamOk s t o ∧
      (cs'.flatten = o → ∃ t', runSeq (mpStream mode .decrypt pad cs') t = .next t' ∧
        StreamOk t t' (if pad = .zero
          then cs.flatten ++ List.replicate ((8 - cs.flatten.length % 8) % 8) 0 else cs.flatten)) := by
  obtain ⟨t, xs, tail, hrun, hcut, htail, hok⟩ := encryptStream h hs hcs pad hmode
  refine ⟨t, _, hrun, hok, fun hflat => ?_⟩
  rw [← hok.fc, ← hok.begin_chain mode .encrypt .encrypt] at hflat
  obtain ⟨t', hrun', hok'⟩ := decryptStream hok.ready (hok.canStart hs) hcs' pad hmode htail hflat
  refine ⟨t', hrun', ?_⟩
  rw [hcut, ← joinBlocks_append_padZero xs htail, ← apply_ite (joinBlocks xs ++ ·)]
  exact hok'

/-- The round trip in CTR (R221). -/
theorem roundTrip_of_ctr (hmode : mode = .ctr) :
    ∃ t o, runSeq (mpStream mode .encrypt pad cs) s = .next t ∧ StreamOk s t o ∧
      (cs'.flatten = o → ∃ t', runSeq (mpStream mode .decrypt pad cs') t = .next t' ∧ StreamOk t t' cs.flatten) := by
  obtain ⟨t, xs, tail, hrun, hcut, htail, hok⟩ := ctrStream h hs hcs .encrypt pad hmode
  refine ⟨t, _, hrun, hok, fun hflat => ?_⟩
  obtain ⟨t', ys, tail', hrun', hcut', htail', hok'⟩ := ctrStream hok.ready (hok.canStart hs) hcs' .decrypt pad hmode
  obtain ⟨hys, htails⟩ := joinBlocks_append_inj htail' (by simp; omega) (hcut'.symm.trans hflat)
  rw [hok.fc, hok.begin_chain mode .decrypt .encrypt, hys, htails, modeBlocks_decrypt_encrypt,
    zipWith_xor_zipWith_xor (by simp; omega), ← hcut] at hok'
  exact ⟨t', hrun', hok'⟩

/-- The round trip in every mode (R221). -/
theorem roundTrip :
    ∃ t o, runSeq (mpStream mode .encrypt pad cs) s = .next t ∧ StreamOk s t o ∧
      (cs'.flatten = o → ∃ t', runSeq (mpStream mode .decrypt pad cs') t = .next t' ∧
        StreamOk t t' (if mode ≠ .ctr ∧ pad = .zero
          then cs.flatten ++ List.replicate ((8 - cs.flatten.length % 8) % 8) 0 else cs.flatten)) := by
  by_cases hmode : mode = .ctr
  · rw [if_neg fun hne => hne.1 hmode]
    exact roundTrip_of_ctr h hs hcs hcs' pad hmode
  · simp only [ne_eq, hmode, not_false_eq_true, true_and]
    exact roundTrip_of_ne_ctr h hs hcs hcs' pad hmode

end

end Sys2Proof.Machine

namespace Sys2Proof

open Machine

/-- Settles O36: what the encrypt stream has added to DOUT is what the decrypt stream reads. -/
theorem mpStreamRoundTrip : Obligations.MpStreamRoundTrip := by
  intro s mode pad cs cs' h hs hcs hcs'
  obtain ⟨t, o, hrun, hok, hback⟩ := roundTrip h hs hcs hcs' pad
  refine ⟨t, hrun, hok.ok, fun hflat => ?_⟩
  rw [hok.dout, List.drop_left] at hflat
  obtain ⟨t', hrun', hok'⟩ := hback hflat
  exact ⟨t', hrun', hok'.ok, hok'.dout⟩

end Sys2Proof
end

section
/-! The suffix window as a delay line. What has left it and what it holds are, in this order, all the bytes it has read, and
it holds as many as fit; the split into body and suffix follows from these two facts (44_suffix.md R230, R240). -/

namespace Sys2Proof.Machine

/-- The bytes that the window holds, the oldest first (R40). -/
def Sb.held (u : Sb) : List Byte := firstBytes u.w u.cnt

/-- As many as `sb_cnt` says. -/
@[simp] theorem Sb.held_length (u : Sb) : u.held.length = u.cnt := by
  have hn := u.n_le
  have hcnt := u.cnt_le
  simp [Sb.held, firstBytes]
  omega

/-- They lie at the start of the storage (R40). -/
theorem Sb.getElem_held (u : Sb) (k : Nat) (h : k < u.held.length) :
    u.held[k] = u.w[k]'(by have := u.held_length; have := u.n_le; have := u.cnt_le; omega) := by
  simp [Sb.held, firstBytes]

/-- An empty window holds none. -/
theorem Sb.held_of_empty {u : Sb} (h : u.cnt = 0) : u.held = [] := List.length_eq_zero_iff.mp (u.held_length.trans h)

/-- The suffix of a full window is all that it holds (R234). -/
theorem Sb.suffix_of_full {u : Sb} (h : u.cnt = u.n) : u.suffix = u.held := by rw [Sb.suffix, Sb.held, h]

/-! ### One byte -/

section
variable {u : Sb} (b : Byte)

/-- A window with room holds the byte (R230). -/
theorem Sb.byteStep_of_lt (h : u.cnt < u.n) : u.byteStep b = (none, u.hold b h) := dif_pos h

/-- A window of length 0 passes it (R230). -/
theorem Sb.byteStep_of_zero (h : u.n = 0) : u.byteStep b = (some b, u) := by
  rw [Sb.byteStep, dif_neg (by omega), if_pos h]

/-- A full window loses its oldest byte (R230). -/
theorem Sb.byteStep_of_full (h : u.cnt = u.n) (hn : 0 < u.n) : u.byteStep b = (some u.w[0], u.shift b) := by
  rw [Sb.byteStep, dif_neg (by omega), if_neg (by omega)]

/-- A byte held is the newest (R230). -/
theorem Sb.held_hold (h : u.cnt < u.n) : (u.hold b h).held = u.held ++ [b] := by
  refine List.ext_getElem (by simp [Sb.hold]) fun k hk _ => ?_
  have hle : k ≤ u.cnt := by simpa [Sb.hold, Nat.lt_succ_iff] using hk
  rw [Sb.getElem_held, Sb.getElem_hold]
  obtain rfl | hlt := hle.eq_or_lt
  · simp
  · rw [if_neg hlt.ne', List.getElem_append_left (by simpa using hlt), Sb.getElem_held]

/-- In a full window the byte that leaves comes before those that stay, and the new one is the newest (R230). -/
theorem Sb.held_shift (h : u.cnt = u.n) (hn : 0 < u.n) : u.w[0] :: (u.shift b).held = u.held ++ [b] := by
  refine List.ext_getElem (by simp [Sb.shift]) fun k hk _ => ?_
  cases k with
  | zero => rw [List.getElem_append_left (by simpa using h ▸ hn), Sb.getElem_held, List.getElem_cons_zero]
  | succ k =>
    have hlt : k < u.n := by simpa [Sb.shift, h] using hk
    rw [List.getElem_cons_succ, Sb.getElem_held, Sb.getElem_shift]
    obtain hlast | hnext := (Nat.succ_le_of_lt hlt).eq_or_lt
    · rw [dif_neg (by omega), if_pos hlast]
      exact (List.getElem_concat_length (by rw [Sb.held_length, h]; exact hlast) _).symm
    · rw [dif_pos hnext, List.getElem_append_left (by simpa [h] using hnext), Sb.getElem_held]

variable (u)

/-- No byte is lost and none overtakes another: what leaves and then what is held are what was held and then the new byte
(R230). -/
theorem Sb.byteStep_conserves : (u.byteStep b).1.toList ++ (u.byteStep b).2.held = u.held ++ [b] := by
  obtain ⟨h, hstep⟩ | ⟨h, hn, hstep⟩ | ⟨h, hn, hstep⟩ := u.byteStep_cases b
  · rw [hstep]
    exact Sb.held_hold b h
  · rw [hstep, Sb.held_of_empty (h.trans hn)]
    rfl
  · rw [hstep]
    exact Sb.held_shift b h hn

/-- The window fills up to its length (R230). -/
theorem Sb.byteStep_cnt : (u.byteStep b).2.cnt = min (u.cnt + 1) u.n := by
  obtain ⟨h, hstep⟩ | ⟨h, -, hstep⟩ | ⟨h, -, hstep⟩ := u.byteStep_cases b
  · rw [hstep]
    exact (Nat.min_eq_left h).symm
  · rw [hstep, ← h]
    exact (Nat.min_eq_right (Nat.le_succ _)).symm
  · rw [hstep, ← h]
    exact (Nat.min_eq_right (Nat.le_succ _)).symm

end

/-! ### A chunk -/

section
variable (u : Sb) (l : List Byte)

/-- The unit after a chunk is the byte step folded over it (R233). -/
theorem Sb.feed_snd_eq_foldl : (u.feed l).2 = l.foldl (fun u b => (u.byteStep b).2) u := by
  induction l generalizing u with
  | nil => rfl
  | cons b bs ih => rw [Sb.feed_cons, List.foldl_cons, ih]

/-- What leaves and then what is held are what was held and then the chunk (R230). -/
theorem Sb.feed_conserves : (u.feed l).1 ++ (u.feed l).2.held = u.held ++ l := by
  induction l generalizing u with
  | nil => simp
  | cons b bs ih => rw [Sb.feed_cons, List.append_assoc, ih, ← List.append_assoc, u.byteStep_conserves, ← List.append_cons]

/-- After `t` bytes in all the window holds `min(t, N)` (R230). -/
theorem Sb.feed_cnt : (u.feed l).2.cnt = min (u.cnt + l.length) u.n := by
  have hle := u.cnt_le
  induction l generalizing u with
  | nil => simpa using hle
  | cons b bs ih =>
    rw [Sb.feed_cons, ih _ (u.byteStep b).2.cnt_le, Sb.byteStep_cnt, Sb.byteStep_n, List.length_cons]
    omega

/-- So `max(t - N, 0)` bytes have left (R233). -/
theorem Sb.feed_fst_length : (u.feed l).1.length = u.cnt + l.length - u.n := by
  have hlen := congrArg List.length (u.feed_conserves l)
  simp only [List.length_append, Sb.held_length, Sb.feed_cnt] at hlen
  omega

/-- The bytes that leave are the first of those held and fed (R230). -/
theorem Sb.feed_fst : (u.feed l).1 = (u.held ++ l).take (u.cnt + l.length - u.n) := by
  rw [← u.feed_conserves l, ← u.feed_fst_length l, List.take_left]

/-- The bytes that stay are the last (R230). -/
theorem Sb.feed_held : (u.feed l).2.held = (u.held ++ l).drop (u.cnt + l.length - u.n) := by
  rw [← u.feed_conserves l, ← u.feed_fst_length l, List.drop_left]

variable {u}

/-- What an empty window lets through (R230). -/
theorem Sb.feed_fst_of_empty (h : u.cnt = 0) : (u.feed l).1 = l.take (l.length - u.n) := by
  rw [Sb.feed_fst, Sb.held_of_empty h, h, List.nil_append, Nat.zero_add]

/-- What it then holds (R230). -/
theorem Sb.feed_held_of_empty (h : u.cnt = 0) : (u.feed l).2.held = l.drop (l.length - u.n) := by
  rw [Sb.feed_held, Sb.held_of_empty h, h, List.nil_append, Nat.zero_add]

/-- How much (R230). -/
theorem Sb.feed_cnt_of_empty (h : u.cnt = 0) : (u.feed l).2.cnt = min l.length u.n := by
  rw [Sb.feed_cnt, h, Nat.zero_add]

end

end Sys2Proof.Machine

namespace Sys2Proof

open Machine

/-- Settles O38: the step's three cases, and the window after a chunk from the conservation of its bytes. -/
theorem windowHoldsTheLastBytes : Obligations.WindowHoldsTheLastBytes := by
  refine ⟨fun u b => ⟨fun h => Sb.byteStep_of_lt b h, fun _ hn => Sb.byteStep_of_zero b hn, fun h hn => ?_⟩,
    fun u l h => ⟨Sb.feed_fst_of_empty l h, u.feed_n l, u.feed_phase l, Sb.feed_cnt_of_empty l h,
      Sb.feed_held_of_empty l h⟩⟩
  rw [Sb.byteStep_of_full b h hn]
  exact ⟨rfl, rfl, rfl, rfl, fun k => u.getElem_shift b k.val k.isLt⟩

end Sys2Proof
end

section
/-! The commands of unit SB, each exit as one update of the whole state (44_suffix.md R231 to R235). -/

namespace Sys2Proof.Machine

open Claims

/-- On an idle unit `SB.START` begins a stream (R232). -/
theorem execSbStart_of_idle {s : State} {n : BitVec 8} (hn : n.toNat ≤ 64) (hidle : s.sb.phase = .idle) :
    execSbStart n s = .next (done { s with sb := s.sb.begin n.toNat hn .run } 0) := by
  rw [execSbStart, dif_pos hn, if_neg (not_not_intro hidle), State.respond_done]
  rfl

/-! ### Feeding a stream -/

section
variable {s : State} (len : BitVec 16) (hn : len.toNat ≤ s.din.length)
include hn

/-- With a host stream in progress `SB.DATA` feeds its chunk (R233). -/
theorem execSbData_of_run (hrun : s.sb.phase = .run) :
    execSbData len s = .next { (ended s len.toNat .ok 0) with
      sb := (s.sb.feed (payload s len.toNat)).2
      dout := s.dout ++ (s.sb.feed (payload s len.toNat)).1 } := by
  have htaken : ¬(s.taken len.toNat).sb.phase ≠ .run := not_not_intro hrun
  rw [execSbData, State.withPayload_taken s _ hn, if_neg htaken]
  rfl

/-- With none it is refused (R231). -/
theorem execSbData_of_not_run (hrun : s.sb.phase ≠ .run) :
    execSbData len s = .next (ended s len.toNat .illegalCommand 8) := by
  have htaken : (s.taken len.toNat).sb.phase ≠ .run := hrun
  rw [execSbData, State.withPayload_taken s _ hn, if_pos htaken, State.fail_taken]
  rfl

end

/-! ### Ending a stream -/

section
variable {s : State}

/-- With no host stream in progress `SB.END` is refused (R231). -/
theorem execSbEnd_of_not_run (hrun : s.sb.phase ≠ .run) : execSbEnd s = .next (ended s 0 .illegalCommand 8) := by
  rw [execSbEnd, if_pos hrun, State.fail_ended]
  rfl

variable (hrun : s.sb.phase = .run)
include hrun

/-- The end of a stream that filled the window (R234). -/
theorem execSbEnd_of_full (hfull : s.sb.cnt = s.sb.n) :
    execSbEnd s = .next (done { s with sb := s.sb.clear, sfx := s.sfx ++ s.sb.suffix } 0) := by
  rw [execSbEnd, if_neg (not_not_intro hrun), if_neg (by omega), State.respond_done]
  rfl

/-- The end of a shorter one (R234). -/
theorem execSbEnd_of_short (hshort : s.sb.cnt < s.sb.n) :
    execSbEnd s = .next (ended { s with sb := s.sb.clear } 0 .insufficientLength 5) := by
  rw [execSbEnd, if_neg (not_not_intro hrun), if_pos hshort, State.fail_ended]
  rfl

end

end Sys2Proof.Machine

namespace Sys2Proof

open Machine

/-- Settles O40, exit by exit. -/
theorem sbEndExposesTheSuffix : Obligations.SbEndExposesTheSuffix := fun _ =>
  ⟨execSbEnd_of_full, execSbEnd_of_short, execSbEnd_of_not_run⟩

/-- Settles O39: the feed, its unit written as the fold of the byte step and its output counted, and the refusal. -/
theorem sbDataPassesBytesThrough : Obligations.SbDataPassesBytesThrough := by
  refine fun s len hn => ⟨fun hrun => ?_, execSbData_of_not_run len hn⟩
  have hlen : (Claims.payload s len.toNat).length = len.toNat := List.length_take_of_le hn
  have hout := s.sb.feed_fst (Claims.payload s len.toNat)
  rw [hlen] at hout
  rw [← Sb.feed_snd_eq_foldl]
  exact (execSbData_of_run len hn hrun).trans (by rw [hout]; rfl)

end Sys2Proof
end

section
/-! A stream of unit SB as a host issues it: its chunks act through their concatenation alone, and its end splits the bytes
into body and suffix (30_encoding.md R106, R107; 44_suffix.md R240). -/

namespace Sys2Proof.Machine

open Safety Claims

/-! ### The words of the three commands of a stream -/

theorem decode_encode_sbStart {n : BitVec 8} (hn : n.toNat ≤ 64) : decode (encode (.sbStart n)) = .ok (.sbStart n) := by
  obtain ⟨hunit, hop, harg, hlen⟩ := Laws.EncodeFields.sbStart n
  unfold decode
  rw [hunit, hop, harg, hlen]
  simp [Instr.unit, Instr.op, Instr.arg, Instr.len, accept, Config.nmax, hn]

theorem decode_encode_sbData (len : BitVec 16) : decode (encode (.sbData len)) = .ok (.sbData len) := by
  obtain ⟨hunit, hop, harg, hlen⟩ := Laws.EncodeFields.sbData len
  unfold decode
  rw [hunit, hop, harg, hlen]
  rfl

theorem decode_encode_sbEnd : decode (encode .sbEnd) = .ok .sbEnd := rfl

/-! ### The middle of a stream -/

/-- From `s` the core has come to `t`: it waits again, unit SB is `u`, `o` has gone out on DOUT and nothing on SFX (R233). -/
structure Passed (s t : State) (u : Sb) (o : List Byte) : Prop where
  ready : Ready t
  sb : t.sb = u
  dout : t.dout = s.dout ++ o
  sfx : t.sfx = s.sfx

theorem Passed.trans {s t v : State} {u u' : Sb} {o o' : List Byte} (h : Passed s t u o) (h' : Passed t v u' o') :
    Passed s v u' (o ++ o') :=
  ⟨h'.ready, h'.sb, by rw [h'.dout, h.dout, List.append_assoc], h'.sfx.trans h.sfx⟩

section
variable {s : State} (h : Ready s)
include h

/-- `SB.START` on an idle unit (R232). -/
theorem issue_sbStart {n : BitVec 8} (hn : n.toNat ≤ 64) (hidle : s.sb.phase = .idle) :
    ∃ t, issue ⟨.sbStart n, []⟩ s = .next t ∧ Passed s t (s.sb.begin n.toNat hn .run) [] := by
  rw [issue_of_ready h ⟨.sbStart n, []⟩ (decode_encode_sbStart hn)]
  exact ⟨_, execSbStart_of_idle hn hidle, ⟨rfl, rfl, h.rstReq⟩, rfl, (List.append_nil _).symm, rfl⟩

section
variable (hrun : s.sb.phase = .run)
include hrun

/-- One chunk (R233). -/
theorem issue_sbData {c : List Byte} (hc : c.length ≤ Config.chunkMax) :
    ∃ t, issue ⟨.sbData (payloadLen c), c⟩ s = .next t ∧ Passed s t (s.sb.feed c).2 (s.sb.feed c).1 := by
  have hlen := toNat_payloadLen hc
  have htake : c.take (payloadLen c).toNat = c := List.take_of_length_le hlen.ge
  have hdrop : c.drop (payloadLen c).toNat = [] := List.drop_of_length_le hlen.ge
  rw [issue_of_ready h ⟨.sbData (payloadLen c), c⟩ (decode_encode_sbData _)]
  refine ⟨_, execSbData_of_run _ hlen.le hrun, ⟨rfl, hdrop, h.rstReq⟩, ?_, ?_, rfl⟩
  all_goals simp only [payload, htake]

/-- The chunks of a stream act as their concatenation (R240). -/
theorem runSeq_sbData {cs : List (List Byte)} (hcs : Chunks cs) :
    ∃ t, runSeq (cs.map fun c => ⟨.sbData (payloadLen c), c⟩) s = .next t ∧
      Passed s t (s.sb.feed cs.flatten).2 (s.sb.feed cs.flatten).1 := by
  induction cs generalizing s with
  | nil => exact ⟨s, rfl, h, rfl, (List.append_nil _).symm, rfl⟩
  | cons c cs ih =>
    obtain ⟨hc, hrest⟩ := List.forall_mem_cons.mp hcs
    obtain ⟨t, ht, hpass⟩ := issue_sbData h hrun hc
    obtain ⟨v, hv, hpass'⟩ := ih hpass.ready (by rw [hpass.sb, Sb.feed_phase, hrun]) hrest
    rw [hpass.sb] at hpass'
    refine ⟨v, (runSeq_cons ht _).trans hv, ?_⟩
    rw [List.flatten_cons, Sb.feed_append]
    exact hpass.trans hpass'

/-! ### The end of a stream -/

/-- `SB.END` on a full window (R234). -/
theorem issue_sbEnd_of_full (hfull : s.sb.cnt = s.sb.n) :
    ∃ t, issue ⟨.sbEnd, []⟩ s = .next t ∧ t.sb.phase = .idle ∧ t.lastCode = .ok ∧ t.dout = s.dout ∧
      t.sfx = s.sfx ++ s.sb.held := by
  rw [issue_of_ready h ⟨.sbEnd, []⟩ decode_encode_sbEnd, ← Sb.suffix_of_full hfull]
  exact ⟨_, execSbEnd_of_full hrun hfull, rfl, rfl, rfl, rfl⟩

/-- `SB.END` on a window not full (R234). -/
theorem issue_sbEnd_of_short (hshort : s.sb.cnt < s.sb.n) :
    ∃ t, issue ⟨.sbEnd, []⟩ s = .next t ∧ t.sb.phase = .idle ∧ t.lastCode = .insufficientLength ∧ t.dout = s.dout ∧
      t.sfx = s.sfx := by
  rw [issue_of_ready h ⟨.sbEnd, []⟩ decode_encode_sbEnd]
  exact ⟨_, execSbEnd_of_short hrun hshort, rfl, rfl, rfl, rfl⟩

end

/-! ### Whole streams -/

variable {n : BitVec 8} {cs : List (List Byte)} (hn : n.toNat ≤ 64) (hidle : s.sb.phase = .idle) (hcs : Chunks cs)
include hn hidle hcs

/-- Between `SB.START` and `SB.END`: the core has come from `s` to a state `t` in which the window, running, has let all
but the last `n` bytes through and holds the others. What `SB.END` then does ends the whole sequence (R230, R240). -/
theorem exists_passed :
    ∃ t u, Passed s t u (cs.flatten.take (cs.flatten.length - n.toNat)) ∧
      u.phase = .run ∧ u.n = n.toNat ∧ u.cnt = min cs.flatten.length n.toNat ∧
      u.held = cs.flatten.drop (cs.flatten.length - n.toNat) ∧
      ∀ v, issue ⟨.sbEnd, []⟩ t = .next v → runSeq (sbStream n cs) s = .next v := by
  obtain ⟨t₀, hstart, hpass₀⟩ := issue_sbStart h hn hidle
  obtain ⟨t, hdata, hpass⟩ := runSeq_sbData hpass₀.ready (by rw [hpass₀.sb]; rfl) hcs
  have hempty : (s.sb.begin n.toNat hn .run).cnt = 0 := rfl
  rw [hpass₀.sb, Sb.feed_fst_of_empty _ hempty] at hpass
  refine ⟨t, _, hpass₀.trans hpass, by simp, by simp, Sb.feed_cnt_of_empty _ hempty, Sb.feed_held_of_empty _ hempty,
    fun v hend => ?_⟩
  rw [sbStream, List.cons_append, runSeq_cons hstart, runSeq_append hdata, runSeq_cons hend]
  rfl

end

end Sys2Proof.Machine

namespace Sys2Proof

open Machine

/-- Settles O41: the window at the end of the stream is full exactly when the stream has at least `N` bytes. -/
theorem suffixSplitIndependence : Obligations.SuffixSplitIndependence := by
  intro s n cs h hidle hn hcs
  obtain ⟨t, u, ⟨hready, rfl, hdout, hsfx⟩, hrun, hlen, hcnt, hheld, hseq⟩ := exists_passed h hn hidle hcs
  rcases Nat.lt_or_ge cs.flatten.length n.toNat with hshort | hlong
  · obtain ⟨v, hend, hphase, hcode, hout, hsuffix⟩ := issue_sbEnd_of_short hready hrun (by omega)
    refine ⟨v, hseq v hend, hphase, fun hle => absurd hle (Nat.not_le.mpr hshort), fun _ => ⟨hcode, ?_, ?_⟩⟩
    · rw [hout, hdout, Nat.sub_eq_zero_of_le hshort.le, List.take_zero, List.append_nil]
    · rw [hsuffix, hsfx]
  · obtain ⟨v, hend, hphase, hcode, hout, hsuffix⟩ := issue_sbEnd_of_full hready hrun (by omega)
    refine ⟨v, hseq v hend, hphase, fun _ => ⟨hcode, ?_, ?_⟩, fun hlt => absurd hlt (Nat.not_lt.mpr hlong)⟩
    · rw [hout, hdout]
    · rw [hsuffix, hsfx, hheld]

end Sys2Proof
end

section
/-! The commands of a MAC operation, each exit as one update of the whole state (45_mac.md R255 to R264). -/

namespace Sys2Proof.Machine

open Claims

/-! ### Starting an operation -/

/-- The phase that an operation on a path enters (R255). -/
def operationPhase : Path → McPhase
  | .tag => .tag
  | .check => .chk

/-- What an operation on a path makes of the window: the check path takes it with `N = Hd` (R255). -/
def operationWindow (u : Sb) : Path → Sb
  | .tag => u
  | .check => u.begin Config.hasher.hd Config.hasher.hd_le .owned

/-- The state after `MC.START` began an operation: the Hasher holds exactly the inner pad (R255). -/
def State.operationBegun (s : State) (path : Path) (quiet : Bool) : State :=
  done { s with
    hAcc := s.mc.ipadBytes Config.hasher
    sb := operationWindow s.sb path
    mc := { s.mc with path := path, quiet := quiet, phase := operationPhase path } } 0

section
variable {s : State} (path : Path) (quiet : Bool)

/-- During an operation `MC.START` is refused (R251). -/
theorem execMcStart_of_not_idle (hidle : s.mc.phase ≠ .idle) :
    execMcStart path quiet s = .next (ended s 0 .illegalCommand 8) := by
  rw [execMcStart, State.macStart, if_pos hidle, State.fail_ended]
  rfl

/-- On the check path it is refused while the window is in use, whatever the phase (R255). -/
theorem execMcStart_check_of_window_in_use (hsb : s.sb.phase ≠ .idle) :
    execMcStart .check quiet s = .next (ended s 0 .illegalCommand 8) := by
  by_cases hidle : s.mc.phase = .idle
  · rw [execMcStart, State.macStart, if_neg (not_not_intro hidle), if_pos ⟨rfl, hsb⟩, State.fail_ended]
    rfl
  · exact execMcStart_of_not_idle .check quiet hidle

variable {path} (hidle : s.mc.phase = .idle) (hfree : path = .check → s.sb.phase = .idle)
include hidle hfree

/-- A keyless unit starts nothing (R255). -/
theorem execMcStart_of_keyless (hkey : s.mc.keyed = false) :
    execMcStart path quiet s = .next (ended s 0 .noKey 1) := by
  have hwindow : ¬(path = .check ∧ s.sb.phase ≠ .idle) := fun ⟨hcheck, hsb⟩ => hsb (hfree hcheck)
  rw [execMcStart, State.macStart, if_neg (not_not_intro hidle), if_neg hwindow, if_pos hkey, State.fail_ended]
  rfl

/-- A keyed unit begins the operation (R255). -/
theorem execMcStart_of_keyed (hkey : s.mc.keyed = true) :
    execMcStart path quiet s = .next (s.operationBegun path quiet) := by
  have hwindow : ¬(path = .check ∧ s.sb.phase ≠ .idle) := fun ⟨hcheck, hsb⟩ => hsb (hfree hcheck)
  rw [execMcStart, State.macStart, if_neg (not_not_intro hidle), if_neg hwindow, if_neg (by simp [hkey])]
  cases path <;> rfl

end

/-! ### The body -/

/-- The bytes of a chunk that are classified as body, and the window after the chunk (R257). -/
def McPhase.classify (u : Sb) (l : List Byte) : McPhase → List Byte × Sb
  | .idle => ([], u)
  | .tag => (l, u)
  | .chk => u.feed l

/-- Two chunks are classified as their concatenation is. -/
theorem McPhase.classify_append (p : McPhase) (u : Sb) (a b : List Byte) :
    p.classify u (a ++ b) =
      ((p.classify u a).1 ++ (p.classify (p.classify u a).2 b).1, (p.classify (p.classify u a).2 b).2) := by
  cases p with
  | idle => rfl
  | tag => rfl
  | chk => exact u.feed_append a b

@[simp] theorem McPhase.classify_nil (p : McPhase) (u : Sb) : p.classify u [] = ([], u) := by
  cases p <;> rfl

/-- What of the body goes out (R256). -/
def Mc.forwarded (m : Mc) (b : List Byte) : List Byte := if m.quiet then [] else b

@[simp] theorem Mc.forwarded_nil (m : Mc) : m.forwarded [] = [] := ite_self []

theorem Mc.forwarded_append (m : Mc) (a b : List Byte) : m.forwarded (a ++ b) = m.forwarded a ++ m.forwarded b := by
  unfold Mc.forwarded
  split <;> rfl

/-- A chunk as one update, in every phase: the Hasher gets the body, DOUT what of it is forwarded (R256, R257). -/
theorem State.mcFeed_eq (s : State) (l : List Byte) :
    s.mcFeed l = { s with
      sb := (s.mc.phase.classify s.sb l).2
      hAcc := s.hAcc ++ (s.mc.phase.classify s.sb l).1
      dout := s.dout ++ s.mc.forwarded (s.mc.phase.classify s.sb l).1 } := by
  cases h : s.mc.phase with
  | idle => simp [s.mcFeed_idle l h, McPhase.classify]
  | tag => exact s.mcFeed_tag l h
  | chk => exact s.mcFeed_chk l h

section
variable {s : State} (len : BitVec 16) (hn : len.toNat ≤ s.din.length)
include hn

/-- With an operation in progress `MC.DATA` classifies its chunk (R257). -/
theorem execMcData_of_operation (hop : s.mc.phase ≠ .idle) :
    execMcData len s = .next { (ended s len.toNat .ok 0) with
      sb := (s.mc.phase.classify s.sb (payload s len.toNat)).2
      hAcc := s.hAcc ++ (s.mc.phase.classify s.sb (payload s len.toNat)).1
      dout := s.dout ++ s.mc.forwarded (s.mc.phase.classify s.sb (payload s len.toNat)).1 } := by
  have htaken : ¬(s.taken len.toNat).mc.phase = .idle := hop
  rw [execMcData, State.withPayload_taken s _ hn, if_neg htaken, State.mcFeed_eq]
  rfl

/-- With none it is refused (R251). -/
theorem execMcData_of_idle (hidle : s.mc.phase = .idle) :
    execMcData len s = .next (ended s len.toNat .illegalCommand 8) := by
  have htaken : (s.taken len.toNat).mc.phase = .idle := hidle
  rw [execMcData, State.withPayload_taken s _ hn, if_pos htaken, State.fail_taken]
  rfl

end

/-! ### Ending an operation -/

/-- The tag that the two-pass finalisation makes of what the Hasher holds (R261). -/
def State.macTag (s : State) : List Byte :=
  Config.hasher.digest (s.mc.opadBytes Config.hasher ++ Config.hasher.digest s.hAcc)

/-- It has `Hd` bytes (R66). -/
theorem State.macTag_length (s : State) : s.macTag.length = Config.hasher.hd := Config.hasher.digest_length _

/-- With a message after the inner pad it is the tag of that message (R250). -/
theorem State.macTag_of_hAcc {s : State} {m : List Byte} (h : s.hAcc = s.mc.ipadBytes Config.hasher ++ m) :
    s.macTag = tagOf s.mc m := by
  rw [State.macTag, h]
  rfl

/-- The finalisation leaves it in its storage (R261). -/
theorem State.tagBytes_mcFinish (s : State) :
    (s.mcFinish Config.hasher).mc.tagBytes Config.hasher = s.macTag := by
  rw [State.mcFinish_eq]
  exact firstBytes_fit_digest _ _

/-- What every end of a check leaves: the window released and zero, the Hasher reset, the unit idle (R262). -/
def State.checkCleared (s : State) : State := { s with hAcc := [], sb := s.sb.clear, mc := s.mc.clear }

section
variable {s : State}

/-- With no operation in progress `MC.END` is refused (R260). -/
theorem execMcEnd_of_idle (hidle : s.mc.phase = .idle) : execMcEnd s = .next (ended s 0 .illegalCommand 8) := by
  rw [execMcEnd, State.macEnd, hidle]
  exact congrArg _ (s.fail_ended _)

/-- On the tag path the tag goes out (R260). -/
theorem execMcEnd_of_tag (htag : s.mc.phase = .tag) :
    execMcEnd s = .next (done { s with hAcc := [], dout := s.dout ++ s.macTag, mc := s.mc.clear } 0) := by
  have hend : s.macEnd Config.hasher = s.macEndTag Config.hasher := by rw [State.macEnd, htag]
  rw [execMcEnd, hend, State.macEndTag, State.tagBytes_mcFinish, State.mcFinish_eq, State.respond_done]
  rfl

variable (hchk : s.mc.phase = .chk)
include hchk

/-- A check over too short a stream (R262). -/
theorem execMcEnd_of_short (hshort : s.sb.cnt < s.sb.n) :
    execMcEnd s = .next (ended s.checkCleared 0 .insufficientLength 5) := by
  have hend : s.macEnd Config.hasher = s.macEndCheck Config.hasher := by rw [State.macEnd, hchk]
  rw [execMcEnd, hend, State.macEndCheck, if_pos hshort, State.fail_ended]
  rfl

/-- A check over a full window: the verdict is a function of whether its first `Hd` bytes are the tag (R262, R263). -/
theorem execMcEnd_of_full (hfull : s.sb.cnt = s.sb.n) :
    execMcEnd s = .next (if firstBytes s.sb.w Config.hasher.hd = s.macTag then done s.checkCleared 0
      else ended s.checkCleared 0 .macMismatch 6) := by
  have hend : s.macEnd Config.hasher = s.macEndCheck Config.hasher := by rw [State.macEnd, hchk]
  have hlen : s.macTag.length = (firstBytes s.sb.w Config.hasher.hd).length := by
    have hd := Config.hasher.hd_le
    simp [State.macTag_length, firstBytes, hd]
  have hdiff : tagDifference s.macTag (firstBytes s.sb.w Config.hasher.hd) ≠ 0 ↔
      firstBytes s.sb.w Config.hasher.hd ≠ s.macTag := by
    rw [Ne, tagDifference_eq_zero hlen, eq_comm]
  rw [execMcEnd, hend, State.macEndCheck, if_neg (by omega)]
  dsimp only
  rw [State.tagBytes_mcFinish, State.mcFinish_eq]
  exact congrArg _ ((if_congr hdiff (State.fail_ended _ _) (State.respond_done _ _)).trans (ite_not ..))

variable (hfull : s.sb.cnt = s.sb.n)
include hfull

/-- The check succeeds (R262). -/
theorem execMcEnd_of_match (htag : firstBytes s.sb.w Config.hasher.hd = s.macTag) :
    execMcEnd s = .next (done s.checkCleared 0) :=
  (execMcEnd_of_full hchk hfull).trans (congrArg _ (if_pos htag))

/-- The check fails (R262). -/
theorem execMcEnd_of_mismatch (htag : firstBytes s.sb.w Config.hasher.hd ≠ s.macTag) :
    execMcEnd s = .next (ended s.checkCleared 0 .macMismatch 6) :=
  (execMcEnd_of_full hchk hfull).trans (congrArg _ (if_neg htag))

end

end Sys2Proof.Machine

namespace Sys2Proof

open Machine

/-- Settles O43: each path on a keyed unit, and the refusals in the order in which they are looked for. -/
theorem mcStartBeginsAnOperation : Obligations.McStartBeginsAnOperation := fun _ quiet =>
  ⟨fun hidle hkey => execMcStart_of_keyed quiet hidle (by simp) hkey,
    fun hidle hsb hkey => execMcStart_of_keyed quiet hidle (fun _ => hsb) hkey,
    fun hidle path => execMcStart_of_not_idle path quiet hidle,
    execMcStart_check_of_window_in_use quiet,
    fun hidle hkey => ⟨execMcStart_of_keyless quiet hidle (by simp) hkey,
      fun hsb => execMcStart_of_keyless quiet hidle (fun _ => hsb) hkey⟩⟩

/-- Settles O44: the classified chunk, on the check path what the window lets through. -/
theorem mcDataAccumulatesTheBody : Obligations.McDataAccumulatesTheBody := by
  refine fun s len hn => ⟨fun htag => ?_, fun hchk => ?_, execMcData_of_idle len hn⟩
  · have hexec := execMcData_of_operation len hn (by simp [htag])
    rw [htag] at hexec
    exact hexec
  · have hlen : (Claims.payload s len.toNat).length = len.toNat := List.length_take_of_le hn
    have hbody := s.sb.feed_fst (Claims.payload s len.toNat)
    have hexec := execMcData_of_operation len hn (by simp [hchk])
    rw [hlen] at hbody
    rw [hchk, McPhase.classify, hbody, Sb.feed_snd_eq_foldl] at hexec
    exact hexec

/-- Settles O45, exit by exit. -/
theorem mcEndAppendsTheTag : Obligations.McEndAppendsTheTag := fun _ => ⟨execMcEnd_of_tag, execMcEnd_of_idle⟩

/-- Settles O46: a short window, and the two verdicts on a full one. -/
theorem mcEndComparesTheTag : Obligations.McEndComparesTheTag := fun _ hchk =>
  ⟨execMcEnd_of_short hchk, execMcEnd_of_match hchk, execMcEnd_of_mismatch hchk⟩

/-- Settles O47: each mismatch leads to the cleared state, in which nothing of the window is left. -/
theorem mismatchRevealsNoPosition : Obligations.MismatchRevealsNoPosition := fun s _ _ hchk hfull hw hw' =>
  ⟨Claims.ended s.checkCleared 0 .macMismatch 6, execMcEnd_of_mismatch hchk hfull hw,
    execMcEnd_of_mismatch hchk hfull hw'⟩

end Sys2Proof
end

section
/-! A MAC operation as a host issues it: its chunks act through their concatenation alone, and its end appends the tag of the
message or compares the last `Hd` bytes with the tag of those before (30_encoding.md R107; 45_mac.md R250, R262, R270 to
R273). -/

namespace Sys2Proof.Machine

open Safety Claims

/-! ### The words of the three commands of an operation -/

theorem decode_encode_mcStart (path : Path) (quiet : Bool) :
    decode (encode (.mcStart path quiet)) = .ok (.mcStart path quiet) := by
  cases path <;> cases quiet <;> rfl

theorem decode_encode_mcData (len : BitVec 16) : decode (encode (.mcData len)) = .ok (.mcData len) := by
  obtain ⟨hunit, hop, harg, hlen⟩ := Laws.EncodeFields.mcData len
  unfold decode
  rw [hunit, hop, harg, hlen]
  rfl

theorem decode_encode_mcEnd : decode (encode .mcEnd) = .ok .mcEnd := rfl

/-! ### The middle of an operation -/

/-- From `s` the core has come to `t` within an operation of unit MC: it waits again, the window is `u`, the Hasher has got
`b`, and what of it is forwarded has gone out (R256, R257). -/
structure Authenticated (s t : State) (u : Sb) (b : List Byte) : Prop where
  ready : Ready t
  mc : t.mc = s.mc
  sb : t.sb = u
  hAcc : t.hAcc = s.hAcc ++ b
  dout : t.dout = s.dout ++ s.mc.forwarded b
  sfx : t.sfx = s.sfx

theorem Authenticated.trans {s t v : State} {u u' : Sb} {b b' : List Byte} (h : Authenticated s t u b)
    (h' : Authenticated t v u' b') : Authenticated s v u' (b ++ b') where
  ready := h'.ready
  mc := h'.mc.trans h.mc
  sb := h'.sb
  hAcc := by rw [h'.hAcc, h.hAcc, List.append_assoc]
  dout := by rw [h'.dout, h.mc, h.dout, Mc.forwarded_append, List.append_assoc]
  sfx := h'.sfx.trans h.sfx

section
variable {s : State} (h : Ready s) (hop : s.mc.phase ≠ .idle)
include h hop

/-- One chunk (R257). -/
theorem issue_mcData {c : List Byte} (hc : c.length ≤ Config.chunkMax) :
    ∃ t, issue ⟨.mcData (payloadLen c), c⟩ s = .next t ∧
      Authenticated s t (s.mc.phase.classify s.sb c).2 (s.mc.phase.classify s.sb c).1 := by
  have hlen := toNat_payloadLen hc
  have htake : c.take (payloadLen c).toNat = c := List.take_of_length_le hlen.ge
  have hdrop : c.drop (payloadLen c).toNat = [] := List.drop_of_length_le hlen.ge
  rw [issue_of_ready h ⟨.mcData (payloadLen c), c⟩ (decode_encode_mcData _)]
  refine ⟨_, execMcData_of_operation _ hlen.le hop, ⟨rfl, hdrop, h.rstReq⟩, rfl, ?_, ?_, ?_, rfl⟩
  all_goals simp only [payload, htake]

/-- The chunks of an operation act as their concatenation (R271). -/
theorem runSeq_mcData {cs : List (List Byte)} (hcs : Chunks cs) :
    ∃ t, runSeq (cs.map fun c => ⟨.mcData (payloadLen c), c⟩) s = .next t ∧
      Authenticated s t (s.mc.phase.classify s.sb cs.flatten).2 (s.mc.phase.classify s.sb cs.flatten).1 := by
  induction cs generalizing s with
  | nil => exact ⟨s, rfl, h, rfl, by simp, by simp, by simp, rfl⟩
  | cons c cs ih =>
    obtain ⟨hc, hrest⟩ := List.forall_mem_cons.mp hcs
    obtain ⟨t, ht, hauth⟩ := issue_mcData h hop hc
    obtain ⟨v, hv, hauth'⟩ := ih hauth.ready (by rw [hauth.mc]; exact hop) hrest
    rw [hauth.mc, hauth.sb] at hauth'
    refine ⟨v, (runSeq_cons ht _).trans hv, ?_⟩
    rw [List.flatten_cons, McPhase.classify_append]
    exact hauth.trans hauth'

end

/-! ### Whole operations -/

/-- From `s` the core has come to `t` by a whole operation of unit MC: it waits again, unit MC is idle
under the same key, `o` has gone out on DOUT and nothing on SFX (R260, R262). -/
structure OperationOver (s t : State) (o : List Byte) : Prop where
  ready : Ready t
  idle : t.mc.phase = .idle
  keyed : t.mc.keyed = s.mc.keyed
  tagOf_eq : ∀ m, tagOf t.mc m = tagOf s.mc m
  dout : t.dout = s.dout ++ o
  sfx : t.sfx = s.sfx

section
variable {s t : State} {path : Path} {quiet : Bool} {u : Sb} {b : List Byte}
  (hauth : Authenticated (s.operationBegun path quiet) t u b)
include hauth

/-- The tag that the end of an operation computes is the tag of its body (R250). -/
theorem Authenticated.macTag : t.macTag = tagOf s.mc b := by
  rw [State.macTag_of_hAcc (m := b) (by rw [hauth.hAcc, hauth.mc]; rfl), hauth.mc]
  rfl

/-- An end of an operation that clears unit MC and puts out `o` ends the whole. -/
theorem Authenticated.over {v : State} {o : List Byte} (hready : Ready v) (hmc : v.mc = t.mc.clear)
    (hdout : v.dout = t.dout ++ o) (hsfx : v.sfx = t.sfx) :
    OperationOver s v ((if quiet then [] else b) ++ o) where
  ready := hready
  idle := by rw [hmc, Mc.clear_phase]
  keyed := by
    rw [hmc, hauth.mc]
    rfl
  tagOf_eq m := by
    rw [hmc, hauth.mc]
    rfl
  dout := by
    rw [hdout, hauth.dout, List.append_assoc]
    rfl
  sfx := hsfx.trans hauth.sfx

end

section
variable {s : State} (h : Ready s)
include h

/-- `MC.START` that begins an operation on a waiting core (R255). -/
theorem issue_mcStart {path : Path} (quiet : Bool) (hidle : s.mc.phase = .idle) (hkey : s.mc.keyed = true)
    (hfree : path = .check → s.sb.phase = .idle) :
    issue ⟨.mcStart path quiet, []⟩ s = .next (s.operationBegun path quiet) := by
  have hexec := execMcStart_of_keyed quiet (s := { s with cmd := [encode (.mcStart path quiet)], din := [] })
    hidle hfree hkey
  rw [issue_of_ready h ⟨.mcStart path quiet, []⟩ (decode_encode_mcStart path quiet)]
  refine hexec.trans ?_
  simp only [State.operationBegun, done, h.cmd, h.din]
  rfl

/-- `MC.END` on a waiting core (R260, R262). -/
theorem issue_mcEnd : issue ⟨.mcEnd, []⟩ s = execMcEnd { s with cmd := [encode .mcEnd], din := [] } :=
  issue_of_ready h ⟨.mcEnd, []⟩ decode_encode_mcEnd

/-- `MC.END` on the check path of a waiting core: nothing goes out, and the window gives the verdict (R262). -/
theorem issue_mcEnd_check (hchk : s.mc.phase = .chk) :
    ∃ v, issue ⟨.mcEnd, []⟩ s = .next v ∧ Ready v ∧ v.mc = s.mc.clear ∧ v.dout = s.dout ∧ v.sfx = s.sfx ∧
      (s.sb.cnt < s.sb.n → v.lastCode = .insufficientLength) ∧
      (s.sb.cnt = s.sb.n →
        v.lastCode = if firstBytes s.sb.w Config.hasher.hd = s.macTag then .ok else .macMismatch) := by
  rw [issue_mcEnd h]
  obtain hshort | hfull := s.sb.cnt_le.lt_or_eq
  · exact ⟨_, execMcEnd_of_short hchk hshort, ⟨rfl, rfl, h.rstReq⟩, rfl, rfl, rfl, fun _ => rfl,
      fun hfull => absurd hfull hshort.ne⟩
  · by_cases htag : firstBytes s.sb.w Config.hasher.hd = s.macTag
    · exact ⟨_, execMcEnd_of_match hchk hfull htag, ⟨rfl, rfl, h.rstReq⟩, rfl, rfl, rfl,
        fun hshort => absurd hfull hshort.ne, fun _ => (if_pos htag).symm⟩
    · exact ⟨_, execMcEnd_of_mismatch hchk hfull htag, ⟨rfl, rfl, h.rstReq⟩, rfl, rfl, rfl,
        fun hshort => absurd hfull hshort.ne, fun _ => (if_neg htag).symm⟩

variable {cs : List (List Byte)} (quiet : Bool) (hidle : s.mc.phase = .idle) (hkey : s.mc.keyed = true) (hcs : Chunks cs)
include hidle hkey hcs

/-- Between `MC.START` and `MC.END`: the core has come to a state `t` in which the whole concatenation is classified. What
`MC.END` then does ends the whole sequence (R255, R257). -/
theorem exists_authenticated {path : Path} (hfree : path = .check → s.sb.phase = .idle) :
    ∃ t, Authenticated (s.operationBegun path quiet) t
        ((operationPhase path).classify (operationWindow s.sb path) cs.flatten).2
        ((operationPhase path).classify (operationWindow s.sb path) cs.flatten).1 ∧
      ∀ v, issue ⟨.mcEnd, []⟩ t = .next v → runSeq (mcStream path quiet cs) s = .next v := by
  have hstart := issue_mcStart h quiet hidle hkey hfree
  have hready : Ready (s.operationBegun path quiet) := ⟨congrArg List.tail h.cmd, h.din, h.rstReq⟩
  have hop : (s.operationBegun path quiet).mc.phase ≠ .idle := by cases path <;> exact nofun
  obtain ⟨t, hdata, hauth⟩ := runSeq_mcData hready hop hcs
  refine ⟨t, hauth, fun v hend => ?_⟩
  rw [mcStream, List.cons_append, runSeq_cons hstart, runSeq_append hdata, runSeq_cons hend]
  rfl

/-- A tag operation puts out the message, unless quiet, and its tag, and leaves the window alone (R250, R260). -/
theorem tagStream :
    ∃ v, runSeq (mcStream .tag quiet cs) s = .next v ∧ v.lastCode = .ok ∧ v.sb = s.sb ∧
      OperationOver s v ((if quiet then [] else cs.flatten) ++ tagOf s.mc cs.flatten) := by
  obtain ⟨t, hauth, hseq⟩ := exists_authenticated h quiet hidle hkey hcs (path := .tag) nofun
  rw [operationPhase, McPhase.classify, operationWindow] at hauth
  have hphase : t.mc.phase = .tag := by
    rw [hauth.mc]
    rfl
  rw [← hauth.macTag]
  exact ⟨_, hseq _ ((issue_mcEnd hauth.ready).trans (execMcEnd_of_tag hphase)), rfl, hauth.sb,
    hauth.over ⟨rfl, rfl, hauth.ready.rstReq⟩ rfl rfl rfl⟩

variable (hfree : s.sb.phase = .idle)
include hfree

/-- Between `MC.START` and `MC.END` on the check path: the window has let all but the last `Hd` bytes through as body and
holds the others (R257, R262). -/
theorem exists_checking :
    ∃ t u, Authenticated (s.operationBegun .check quiet) t u (cs.flatten.take (cs.flatten.length - Config.hasher.hd)) ∧
      u.n = Config.hasher.hd ∧ u.cnt = min cs.flatten.length Config.hasher.hd ∧
      u.held = cs.flatten.drop (cs.flatten.length - Config.hasher.hd) ∧
      ∀ v, issue ⟨.mcEnd, []⟩ t = .next v → runSeq (mcStream .check quiet cs) s = .next v := by
  obtain ⟨t, hauth, hseq⟩ := exists_authenticated h quiet hidle hkey hcs (path := .check) fun _ => hfree
  have hempty : (operationWindow s.sb .check).cnt = 0 := rfl
  have hbody := Sb.feed_fst_of_empty cs.flatten hempty
  rw [operationPhase, McPhase.classify, hbody] at hauth
  exact ⟨t, _, hauth, Sb.feed_n _ _, Sb.feed_cnt_of_empty _ hempty, Sb.feed_held_of_empty _ hempty, hseq⟩

/-- A check puts out its body, unless quiet; its verdict is `InsufficientLength` below `Hd` bytes, and else says whether the
last `Hd` bytes are the tag of those before (R262, R272). -/
theorem checkStream :
    let body := cs.flatten.take (cs.flatten.length - Config.hasher.hd)
    let suffix := cs.flatten.drop (cs.flatten.length - Config.hasher.hd)
    ∃ v, runSeq (mcStream .check quiet cs) s = .next v ∧ OperationOver s v (if quiet then [] else body) ∧
      (cs.flatten.length < Config.hasher.hd → v.lastCode = .insufficientLength) ∧
      (Config.hasher.hd ≤ cs.flatten.length →
        v.lastCode = if suffix = tagOf s.mc body then .ok else .macMismatch) := by
  intro body suffix
  obtain ⟨t, u, hauth, hn, hcnt, hheld, hseq⟩ := exists_checking h quiet hidle hkey hcs hfree
  have hphase : t.mc.phase = .chk := by
    rw [hauth.mc]
    rfl
  obtain ⟨v, hend, hready, hmc, hdout, hsfx, hshort, hfull⟩ := issue_mcEnd_check hauth.ready hphase
  rw [hauth.sb] at hshort hfull
  have hover := hauth.over hready hmc (hdout.trans (List.append_nil _).symm) hsfx
  rw [List.append_nil] at hover
  refine ⟨v, hseq v hend, hover, fun hlt => hshort (by omega), fun hle => ?_⟩
  have hcnt' : u.cnt = Config.hasher.hd := hcnt.trans (Nat.min_eq_right hle)
  have hsuffix : firstBytes u.w Config.hasher.hd = suffix := by rw [← hcnt', ← Sb.held, hheld]
  rw [hfull (hcnt'.trans hn.symm), hsuffix, hauth.macTag]

end

end Sys2Proof.Machine

namespace Sys2Proof

open Machine

/-- Settles O50: the bytes that the tag operation put out split, `Hd` bytes before their end, into the message and its tag. -/
theorem macRoundTrip : Obligations.MacRoundTrip := by
  intro s cs cs' h hidle hfree hkey hcs hcs'
  obtain ⟨t, hrun, hcode, hsb, hover⟩ := tagStream h false hidle hkey hcs
  have hdout : t.dout = s.dout ++ cs.flatten ++ Claims.tagOf s.mc cs.flatten :=
    hover.dout.trans (List.append_assoc ..).symm
  refine ⟨t, hrun, hcode, hdout, fun hstream => ?_⟩
  obtain ⟨v, hrun', hover', -, hverdict⟩ :=
    checkStream hover.ready false hover.idle (hover.keyed.trans hkey) hcs' ((congrArg _ hsb).trans hfree)
  have hsplit : cs'.flatten = cs.flatten ++ Claims.tagOf s.mc cs.flatten := by
    rw [hstream, hdout, List.append_assoc, List.drop_left]
  have htag : (Claims.tagOf s.mc cs.flatten).length = Config.hasher.hd := Config.hasher.digest_length _
  have hbody : cs'.flatten.length - Config.hasher.hd = cs.flatten.length := by
    rw [hsplit, List.length_append, htag, Nat.add_sub_cancel]
  have hlong : Config.hasher.hd ≤ cs'.flatten.length := by
    rw [hsplit, List.length_append, htag]
    exact Nat.le_add_left ..
  have hcode' := hverdict hlong
  have hout := hover'.dout
  rw [hbody, hsplit, List.take_left] at hout
  rw [hbody, hsplit, List.take_left, List.drop_left, hover.tagOf_eq, if_pos rfl] at hcode'
  exact ⟨v, hrun', hcode', hout⟩

/-- Settles O51: at most `Hd` bytes leave no body. -/
theorem shortStreamsNeverMatch : Obligations.ShortStreamsNeverMatch := by
  intro s quiet cs h hidle hfree hkey hcs
  obtain ⟨v, hrun, hover, hshort, hverdict⟩ := checkStream h quiet hidle hkey hcs hfree
  have hsilent : cs.flatten.length ≤ Config.hasher.hd → v.dout = s.dout := fun hle => by
    rw [hover.dout, Nat.sub_eq_zero_of_le hle, List.take_zero, ite_self, List.append_nil]
  refine ⟨v, hrun, fun hlt => ⟨hshort hlt, hsilent hlt.le, hover.sfx⟩, fun heq => ⟨hsilent heq.le, ?_⟩⟩
  have hcode := hverdict heq.ge
  rw [heq, Nat.sub_self, List.take_zero, List.drop_zero] at hcode
  exact hcode

end Sys2Proof
end

section
/-! `ABORT` by the unit it names, each as one update of the whole state (46_system.md R282). -/

namespace Sys2Proof.Machine

open Claims

section
variable (s : State)

/-- `ABORT` of unit MP (R282). -/
theorem execAbort_mp : execAbort .mp s = .next (done { s with mp := s.mp.clear } 0) :=
  congrArg Host.Outcome.next (State.respond_done _ _)

/-- `ABORT` of unit MC, with the window it owns and the Hasher (R282, R264). -/
theorem execAbort_mc :
    execAbort .mc s = .next (done { s with
      mc := s.mc.clear
      hAcc := if s.mc.phase = .idle then s.hAcc else []
      sb := if s.mc.phase = .chk then s.sb.clear else s.sb } 0) := by
  rw [← s.abortMc_eq]
  exact congrArg Host.Outcome.next (State.respond_done _ _)

/-- `ABORT` of unit SB is refused while unit MC owns the window (R282). -/
theorem execAbort_sb_of_owned (howned : s.sb.phase = .owned) :
    execAbort .sb s = .next (ended s 0 .illegalCommand 8) := by
  simp only [execAbort, if_pos howned, State.fail_ended]
  rfl

/-- Else it ends a host stream (R282). -/
theorem execAbort_sb_of_not_owned (howned : s.sb.phase ≠ .owned) :
    execAbort .sb s = .next (done { s with sb := if s.sb.phase = .run then s.sb.clear else s.sb } 0) := by
  simp only [execAbort, if_neg howned, State.respond_done]
  rw [← s.abortSb_eq]
  rfl

/-- Ending the operations of units MC and SB as one update: a window that unit MC has just released is idle, so it is cleared
once (R282). -/
theorem State.abortMc_abortSb :
    s.abortMc.abortSb = { s with
      mc := s.mc.clear
      hAcc := if s.mc.phase = .idle then s.hAcc else []
      sb := if s.mc.phase = .chk ∨ s.sb.phase = .run then s.sb.clear else s.sb } := by
  rw [State.abortSb_eq, State.abortMc_eq]
  by_cases hchk : s.mc.phase = .chk <;> simp [hchk]

/-- `ABORT` of all three units: MP, then MC, then SB (R282). -/
theorem execAbort_all :
    execAbort .all s = .next (done { s with
      mp := s.mp.clear
      mc := s.mc.clear
      hAcc := if s.mc.phase = .idle then s.hAcc else []
      sb := if s.mc.phase = .chk ∨ s.sb.phase = .run then s.sb.clear else s.sb } 0) := by
  simp only [execAbort, State.respond_done, State.abortMc_abortSb]
  rfl

end

end Sys2Proof.Machine

namespace Sys2Proof

open Machine

/-- Settles O14, unit by unit. -/
theorem abortEndsTheOperation : Obligations.AbortEndsTheOperation := fun s =>
  ⟨execAbort_mp s, execAbort_mc s, execAbort_sb_of_owned s, execAbort_sb_of_not_owned s, execAbort_all s⟩

end Sys2Proof
end

section
/-! A whole stream of unit MP as a function of its bytes: what `MP.START`, the chunks and `MP.END` put out, or that the end
fails. What the machine does is this function, and the round trip holds of it (43_mode.md R200 to R212, R221). -/

namespace Sys2Proof.Machine

open Safety Claims

/-! ### Payloads cut for one command each -/

/-- The pieces have at most `n` bytes when the fuel suffices (R107). -/
theorem length_le_of_mem_splitChunks {n fuel : Nat} (hn : 1 ≤ n) {l : List Byte} (hfuel : l.length ≤ fuel) :
    ∀ c ∈ splitChunks n fuel l, c.length ≤ n := by
  induction fuel generalizing l with
  | zero => simp [splitChunks]; omega
  | succ fuel ih =>
    rw [splitChunks]
    split
    · simpa
    · refine List.forall_mem_cons.mpr ⟨List.length_take_le .., ih ?_⟩
      rw [List.length_drop]
      omega

/-- In order they are the payload (R107). -/
theorem splitChunks_flatten (n fuel : Nat) (l : List Byte) : (splitChunks n fuel l).flatten = l := by
  induction fuel generalizing l with
  | zero => simp [splitChunks]
  | succ fuel ih =>
    rw [splitChunks]
    split
    · simp
    · rw [List.flatten_cons, ih, List.take_append_drop]

theorem payloads_chunks (l : List Byte) : Chunks (payloads l) :=
  length_le_of_mem_splitChunks (by decide) le_rfl

@[simp] theorem payloads_flatten (l : List Byte) : (payloads l).flatten = l := splitChunks_flatten _ _ l

/-! ### The end of a stream -/

/-- What the end of a stream puts out by its mode and direction; `none` is `InvalidLength` or `InvalidPadding` (R209 to
R211). -/
def Mp.ending (u : Fc) (m : Mp) : Option (List Byte) :=
  match m.mode, m.dir with
  | .ctr, _ => some (m.endCtr u)
  | _, .encrypt => some (m.endEncrypt u)
  | _, .decrypt => if m.fill = 0 then m.endDecrypt u else none

section
variable (u : Fc) {m : Mp}

theorem Mp.ending_of_ctr (hmode : m.mode = .ctr) : m.ending u = some (m.endCtr u) := by
  rw [Mp.ending, hmode]

theorem Mp.ending_of_encrypt (hmode : m.mode ≠ .ctr) (hdir : m.dir = .encrypt) :
    m.ending u = some (m.endEncrypt u) := by
  cases hm : m.mode with
  | ctr => exact absurd hm hmode
  | ecb | cbc => rw [Mp.ending, hm, hdir]

theorem Mp.ending_of_decrypt (hmode : m.mode ≠ .ctr) (hdir : m.dir = .decrypt) :
    m.ending u = if m.fill = 0 then m.endDecrypt u else none := by
  cases hm : m.mode with
  | ctr => exact absurd hm hmode
  | ecb | cbc => rw [Mp.ending, hm, hdir]

end

section
variable {s : State} (hrun : s.mp.phase = .run)
include hrun

/-- `MP.END` with such an ending puts it out and clears the unit (R208, R212). -/
theorem execMpEnd_of_ending {o : List Byte} (ho : s.mp.ending s.fc = some o) :
    execMpEnd s = .next (done { s with mp := s.mp.clear, dout := s.dout ++ o } 0) := by
  by_cases hmode : s.mp.mode = .ctr
  · rw [Mp.ending_of_ctr _ hmode, Option.some_inj] at ho
    rw [execMpEnd_of_ctr hrun hmode, ho]
  · cases hdir : s.mp.dir with
    | encrypt =>
      rw [Mp.ending_of_encrypt _ hmode hdir, Option.some_inj] at ho
      rw [execMpEnd_of_encrypt hrun hmode hdir, ho]
    | decrypt =>
      rw [Mp.ending_of_decrypt _ hmode hdir, Option.ite_none_right_eq_some] at ho
      exact execMpEnd_of_decrypt_some hrun hmode hdir ho.1 ho.2

/-- Without one it answers an error (R210). -/
theorem execMpEnd_of_no_ending (ho : s.mp.ending s.fc = none) : ∃ t, execMpEnd s = .next t ∧ t.lastCode ≠ .ok := by
  by_cases hmode : s.mp.mode = .ctr
  · rw [Mp.ending_of_ctr _ hmode] at ho
    exact nomatch ho
  · cases hdir : s.mp.dir with
    | encrypt =>
      rw [Mp.ending_of_encrypt _ hmode hdir] at ho
      exact nomatch ho
    | decrypt =>
      rw [Mp.ending_of_decrypt _ hmode hdir] at ho
      by_cases hfill : s.mp.fill = 0
      · rw [if_pos hfill] at ho
        exact ⟨_, execMpEnd_of_decrypt_none hrun hmode hdir hfill ho, nofun⟩
      · exact ⟨_, execMpEnd_of_decrypt_cut hrun hmode hdir hfill, nofun⟩

end

/-! ### The whole stream -/

/-- What a unit that has begun a stream puts out over `l` and at the end; `none` when the end fails. -/
def Mp.stream (u : Fc) (m : Mp) (l : List Byte) : Option (List Byte) :=
  ((m.feed u l).2.ending u).map ((m.feed u l).1 ++ ·)

/-- An encrypt stream never fails (R209, R211). -/
theorem Mp.exists_stream_encrypt (u : Fc) {m : Mp} (hdir : m.dir = .encrypt) (l : List Byte) :
    ∃ c, m.stream u l = some c := by
  obtain ⟨-, -, -, -, hdir', -⟩ := Mp.feed_keeps u m l
  unfold Mp.stream
  by_cases hmode : (m.feed u l).2.mode = .ctr
  · exact ⟨_, by rw [Mp.ending_of_ctr u hmode]; rfl⟩
  · exact ⟨_, by rw [Mp.ending_of_encrypt u hmode (hdir'.trans hdir)]; rfl⟩

/-- A new stream depends on the IV alone of what unit MP held (R200). -/
theorem Mp.begin_congr {m m' : Mp} (hiv : m'.iv = m.iv) (hvalid : m'.ivValid = m.ivValid) (mode : Mode) (dir : Dir)
    (pad : Pad) : m'.begin mode dir pad = m.begin mode dir pad := by
  simp only [Mp.begin, hiv, hvalid]

section
variable {s : State} {mode : Mode} (h : Ready s) (hs : CanStart s mode)
include h hs

/-- A stream of the machine that succeeded has put out what the function says. -/
theorem stream_of_streamOk {dir : Dir} {pad : Pad} {cs : List (List Byte)} (hcs : Chunks cs) {v : State} {o : List Byte}
    (hrun : runSeq (mpStream mode dir pad cs) s = .next v) (hok : StreamOk s v o) :
    (s.mp.begin mode dir pad).stream s.fc cs.flatten = some o := by
  obtain ⟨t₀, hstart, hadv₀⟩ := issue_mpStart h hs dir pad
  obtain ⟨t, hdata, hadv⟩ := runSeq_mpData hadv₀.ready hcs
  rw [hadv₀.fc, hadv₀.mp, Mp.absorb_of_run _ rfl] at hadv
  have hfc : t.fc = s.fc := hadv.fc.trans hadv₀.fc
  obtain ⟨-, -, hphase, -, -, -⟩ := Mp.feed_keeps s.fc (s.mp.begin mode dir pad) cs.flatten
  rw [← hadv.mp, Mp.begin_phase] at hphase
  have hend := issue_of_ready hadv.ready ⟨.mpEnd, []⟩ decode_encode_mpEnd
  rw [Mp.stream, ← hadv.mp, ← hfc]
  cases ho : t.mp.ending t.fc with
  | none =>
    obtain ⟨v', hv', hcode⟩ := execMpEnd_of_no_ending (s := { t with cmd := [encode .mpEnd], din := [] }) hphase ho
    rw [runSeq_mpStream hstart hdata (hend.trans hv')] at hrun
    cases hrun
    exact absurd hok.ok hcode
  | some o' =>
    have hv' := execMpEnd_of_ending (s := { t with cmd := [encode .mpEnd], din := [] }) hphase ho
    rw [runSeq_mpStream hstart hdata (hend.trans hv')] at hrun
    cases hrun
    have hdout : t.dout ++ o' = s.dout ++ o := hok.dout
    rw [hadv.dout, hadv₀.dout, List.append_nil, List.append_assoc, List.append_cancel_left_eq] at hdout
    rw [Option.map_some, hfc, hdout]

/-- The round trip of the function (R221). -/
theorem stream_roundTrip (pad : Pad) (l : List Byte) :
    ∃ c, (s.mp.begin mode .encrypt pad).stream s.fc l = some c ∧
      (s.mp.begin mode .decrypt pad).stream s.fc c = some (if mode ≠ .ctr ∧ pad = .zero
        then l ++ List.replicate ((8 - l.length % 8) % 8) 0 else l) := by
  obtain ⟨c, hc⟩ := Mp.exists_stream_encrypt s.fc (Mp.begin_dir s.mp mode .encrypt pad) l
  obtain ⟨t, o, hrun, hok, hback⟩ := roundTrip h hs (payloads_chunks l) (payloads_chunks c) pad
  have ho := stream_of_streamOk h hs (payloads_chunks l) hrun hok
  rw [payloads_flatten, hc, Option.some_inj] at ho
  obtain ⟨t', hrun', hok'⟩ := hback ((payloads_flatten c).trans ho)
  have hplain := stream_of_streamOk hok.ready (hok.canStart hs) (payloads_chunks c) hrun' hok'
  rw [hok.fc, Mp.begin_congr hok.iv hok.ivValid, payloads_flatten, payloads_flatten] at hplain
  exact ⟨c, hc, hplain⟩

end

end Sys2Proof.Machine
end

section
/-! Host sequences over the units. A command of unit MP leaves unit MC, the window and the Hasher alone, and one of unit MC
leaves units FC and MP alone, so a sequence that takes turns between the two is followed unit by unit, from what the units
hold before to what they hold after (30_encoding.md R107; 46_system.md R290, R291). -/

namespace Sys2Proof.Machine

open Safety Claims

/-! ### What a host sequence gives -/

/-- What the four units and the Hasher hold: the state without its ports and its last response. -/
structure Units where
  fc : Fc
  mp : Mp
  sb : Sb
  mc : Mc
  hAcc : List Byte

def State.units (s : State) : Units := ⟨s.fc, s.mp, s.sb, s.mc, s.hAcc⟩

/-- The core waits and its units hold `x`. -/
def State.At (s : State) (x : Units) : Prop := Ready s ∧ s.units = x

/-- The sequence was answered `OK` throughout, put `o` out and left the core waiting with `x` in its units. -/
def Gives (r : Option (List Byte × State)) (o : List Byte) (x : Units) : Prop := ∃ t, r = some (o, t) ∧ t.At x

/-- What goes on from there gives what it gives from there. -/
theorem Gives.bind {r : Option (List Byte × State)} {o o' : List Byte} {x x' : Units}
    {f : List Byte × State → Option (List Byte × State)} (h : Gives r o x)
    (hf : ∀ t, t.At x → Gives (f (o, t)) o' x') : Gives (r >>= f) o' x' := by
  obtain ⟨t, rfl, ht⟩ := h
  exact hf t ht

/-- Where a sequence has come to its end. -/
theorem State.At.gives {t : State} {x : Units} (h : t.At x) (o : List Byte) : Gives (some (o, t)) o x := ⟨t, rfl, h⟩

/-- A command that the waiting core answers `OK`. -/
theorem gives_of_exec {s t : State} {c : HostCmd} {o : List Byte} {x : Units} (h : Ready s)
    (hd : decode (encode c.instr) = .ok c.instr)
    (hexec : exec c.instr { s with cmd := [encode c.instr], din := c.payload } = .next t) (hok : t.lastCode = .ok)
    (hdout : t.dout = s.dout ++ o) (ht : t.At x) : Gives (issueOk c s) o x := by
  refine ⟨t, ?_, ht⟩
  rw [issueOk, issue_of_ready h c hd, hexec]
  dsimp only
  rw [if_pos hok, hdout, List.drop_left]

/-- The answer behind it. -/
theorem issue_of_issueOk {c : HostCmd} {s t : State} {o : List Byte} (h : issueOk c s = some (o, t)) :
    issue c s = .next t ∧ t.lastCode = .ok := by
  unfold issueOk at h
  split at h
  · next v hv =>
    rw [Option.ite_none_right_eq_some, Option.some_inj, Prod.mk.injEq] at h
    obtain ⟨hok, -, rfl⟩ := h
    exact ⟨hv, hok⟩
  · exact nomatch h
  · exact nomatch h

/-- A first command, and the others from where it ends. -/
theorem Gives.cons {c : HostCmd} {cs : List HostCmd} {s : State} {o o' : List Byte} {x x' : Units}
    (h : Gives (issueOk c s) o x) (hcs : ∀ t, t.At x → Gives (issueAllOk cs t) o' x') :
    Gives (issueAllOk (c :: cs) s) (o ++ o') x' :=
  h.bind fun t ht => (hcs t ht).bind fun _ hv => hv.gives _

/-- A list of commands is its first part and then its second. -/
theorem issueAllOk_append (a b : List HostCmd) (s : State) :
    issueAllOk (a ++ b) s = (do
      let (o, s) ← issueAllOk a s
      let (o', s) ← issueAllOk b s
      some (o ++ o', s)) := by
  induction a generalizing s with
  | nil => simp [issueAllOk]
  | cons c a ih => simp [issueAllOk, ih, Option.bind_assoc, List.append_assoc]

/-- A first part, and the second from where it ends. -/
theorem Gives.append {a b : List HostCmd} {s : State} {o o' : List Byte} {x x' : Units}
    (ha : Gives (issueAllOk a s) o x) (hb : ∀ t, t.At x → Gives (issueAllOk b t) o' x') :
    Gives (issueAllOk (a ++ b) s) (o ++ o') x' := by
  rw [issueAllOk_append]
  exact ha.bind fun t ht => (hb t ht).bind fun _ hv => hv.gives _

/-! ### The commands of unit MP -/

/-- A chunk that one command can carry is that command's payload (R106). -/
theorem take_payloadLen {c : List Byte} (hc : c.length ≤ Config.chunkMax) : c.take (payloadLen c).toNat = c :=
  List.take_of_length_le (toNat_payloadLen hc).ge

/-- Nothing of it is left on DIN (R62). -/
theorem drop_payloadLen {c : List Byte} (hc : c.length ≤ Config.chunkMax) : c.drop (payloadLen c).toNat = [] :=
  List.drop_of_length_le (toNat_payloadLen hc).ge

section
variable {s : State} {x : Units} (h : s.At x)
include h

/-- `MP.START` that begins a stream (R200). -/
theorem issueOk_mpStart {mode : Mode} (dir : Dir) (pad : Pad) (hidle : x.mp.phase = .idle) (hkey : x.fc.keyed = true)
    (hiv : mode ≠ .ecb → x.mp.ivValid = true) :
    Gives (issueOk ⟨.mpStart mode dir pad, []⟩ s) [] { x with mp := x.mp.begin mode dir pad } := by
  obtain ⟨hready, rfl⟩ := h
  exact gives_of_exec hready (decode_encode_mpStart ..) (execMpStart_of_canStart dir pad ⟨hidle, hkey, hiv⟩) rfl
    (List.append_nil _).symm ⟨⟨rfl, rfl, hready.rstReq⟩, rfl⟩

/-- `MP.DATA` in a stream (R201). -/
theorem issueOk_mpData (hrun : x.mp.phase = .run) {c : List Byte} (hc : c.length ≤ Config.chunkMax) :
    Gives (issueOk ⟨.mpData (payloadLen c), c⟩ s) (x.mp.feed x.fc c).1 { x with mp := (x.mp.feed x.fc c).2 } := by
  obtain ⟨hready, rfl⟩ := h
  have hlen := toNat_payloadLen hc
  refine gives_of_exec hready (decode_encode_mpData _) (execMpData_of_run _ hlen.le hrun) rfl ?_
    ⟨⟨rfl, drop_payloadLen hc, hready.rstReq⟩, ?_⟩
  all_goals
    simp only [payload, take_payloadLen hc]
    rfl

/-- `MP.END` of a stream that ends well (R208). -/
theorem issueOk_mpEnd (hrun : x.mp.phase = .run) {o : List Byte} (ho : x.mp.ending x.fc = some o) :
    Gives (issueOk ⟨.mpEnd, []⟩ s) o { x with mp := x.mp.clear } := by
  obtain ⟨hready, rfl⟩ := h
  exact gives_of_exec hready decode_encode_mpEnd
    (execMpEnd_of_ending (s := { s with cmd := [encode .mpEnd], din := [] }) hrun ho) rfl rfl
    ⟨⟨rfl, rfl, hready.rstReq⟩, rfl⟩

end

/-- The chunks of a stream act as their concatenation (R220). -/
theorem issueAllOk_mpChunks {s : State} {x : Units} (h : s.At x) (hrun : x.mp.phase = .run) {cs : List (List Byte)}
    (hcs : Chunks cs) :
    Gives (issueAllOk (cs.map fun c => ⟨.mpData (payloadLen c), c⟩) s) (x.mp.feed x.fc cs.flatten).1
      { x with mp := (x.mp.feed x.fc cs.flatten).2 } := by
  induction cs generalizing s x with
  | nil => exact h.gives []
  | cons c cs ih =>
    obtain ⟨hc, hrest⟩ := List.forall_mem_cons.mp hcs
    obtain ⟨-, -, hphase, -, -, -⟩ := Mp.feed_keeps x.fc x.mp c
    rw [List.flatten_cons, Mp.feed_append]
    exact (issueOk_mpData h hrun hc).cons fun t ht => ih ht (hphase.trans hrun) hrest

/-- A payload of any length (R107). -/
theorem issueAllOk_mpData {s : State} {x : Units} (h : s.At x) (hrun : x.mp.phase = .run) (l : List Byte) :
    Gives (issueAllOk (mpData l) s) (x.mp.feed x.fc l).1 { x with mp := (x.mp.feed x.fc l).2 } := by
  have hgives := issueAllOk_mpChunks h hrun (payloads_chunks l)
  rwa [payloads_flatten] at hgives

/-! ### The commands of unit MC -/

/-- The units once `MC.START` began an operation (R255). -/
def Units.begun (x : Units) (path : Path) (quiet : Bool) : Units :=
  { x with
    sb := operationWindow x.sb path
    mc := { x.mc with path := path, quiet := quiet, phase := operationPhase path }
    hAcc := x.mc.ipadBytes Config.hasher }

/-- The units once an operation has classified `l` (R257). -/
def Units.classified (x : Units) (l : List Byte) : Units :=
  { x with
    sb := (x.mc.phase.classify x.sb l).2
    hAcc := x.hAcc ++ (x.mc.phase.classify x.sb l).1 }

/-- The units once a check has ended (R262). -/
def Units.checkCleared (x : Units) : Units := { x with sb := x.sb.clear, mc := x.mc.clear, hAcc := [] }

section
variable {s : State} {x : Units} (h : s.At x)
include h

/-- `MC.START` that begins an operation (R255). -/
theorem issueOk_mcStart {path : Path} (quiet : Bool) (hidle : x.mc.phase = .idle) (hkey : x.mc.keyed = true)
    (hfree : path = .check → x.sb.phase = .idle) :
    Gives (issueOk ⟨.mcStart path quiet, []⟩ s) [] (x.begun path quiet) := by
  obtain ⟨hready, rfl⟩ := h
  exact gives_of_exec hready (decode_encode_mcStart path quiet) (execMcStart_of_keyed quiet hidle hfree hkey) rfl
    (List.append_nil _).symm ⟨⟨rfl, rfl, hready.rstReq⟩, rfl⟩

/-- `MC.DATA` in an operation (R257). -/
theorem issueOk_mcData (hop : x.mc.phase ≠ .idle) {c : List Byte} (hc : c.length ≤ Config.chunkMax) :
    Gives (issueOk ⟨.mcData (payloadLen c), c⟩ s) (x.mc.forwarded (x.mc.phase.classify x.sb c).1) (x.classified c) := by
  obtain ⟨hready, rfl⟩ := h
  have hlen := toNat_payloadLen hc
  refine gives_of_exec hready (decode_encode_mcData _) (execMcData_of_operation _ hlen.le hop) rfl ?_
    ⟨⟨rfl, drop_payloadLen hc, hready.rstReq⟩, ?_⟩
  all_goals
    simp only [payload, take_payloadLen hc]
    rfl

/-- `MC.END` on the tag path: the tag of the body goes out (R260). -/
theorem issueOk_mcEnd_tag (htag : x.mc.phase = .tag) {b : List Byte}
    (hacc : x.hAcc = x.mc.ipadBytes Config.hasher ++ b) :
    Gives (issueOk ⟨.mcEnd, []⟩ s) (tagOf x.mc b) { x with mc := x.mc.clear, hAcc := [] } := by
  obtain ⟨hready, rfl⟩ := h
  refine gives_of_exec hready decode_encode_mcEnd (execMcEnd_of_tag htag) rfl ?_ ⟨⟨rfl, rfl, hready.rstReq⟩, rfl⟩
  exact congrArg (s.dout ++ ·) (State.macTag_of_hAcc hacc)

/-- `MC.END` on the check path over a window that holds the tag of the body (R262). -/
theorem issueOk_mcEnd_check (hchk : x.mc.phase = .chk) {b : List Byte}
    (hacc : x.hAcc = x.mc.ipadBytes Config.hasher ++ b) (hn : x.sb.n = Config.hasher.hd)
    (hheld : x.sb.held = tagOf x.mc b) :
    Gives (issueOk ⟨.mcEnd, []⟩ s) [] x.checkCleared := by
  obtain ⟨hready, rfl⟩ := h
  have hcnt : s.sb.cnt = Config.hasher.hd :=
    s.sb.held_length.symm.trans ((congrArg List.length hheld).trans (Config.hasher.digest_length _))
  have htag : firstBytes s.sb.w Config.hasher.hd = s.macTag := by
    rw [← hcnt]
    exact hheld.trans (State.macTag_of_hAcc hacc).symm
  exact gives_of_exec hready decode_encode_mcEnd (execMcEnd_of_match hchk (hcnt.trans hn.symm) htag) rfl
    (List.append_nil _).symm ⟨⟨rfl, rfl, hready.rstReq⟩, rfl⟩

end

/-- Two chunks leave the units as their concatenation does (R271). -/
theorem Units.classified_append (x : Units) (a b : List Byte) :
    x.classified (a ++ b) = (x.classified a).classified b := by
  simp only [Units.classified, McPhase.classify_append, List.append_assoc]

/-- The chunks of an operation act as their concatenation (R271). -/
theorem issueAllOk_mcChunks {s : State} {x : Units} (h : s.At x) (hop : x.mc.phase ≠ .idle) {cs : List (List Byte)}
    (hcs : Chunks cs) :
    Gives (issueAllOk (cs.map fun c => ⟨.mcData (payloadLen c), c⟩) s)
      (x.mc.forwarded (x.mc.phase.classify x.sb cs.flatten).1) (x.classified cs.flatten) := by
  induction cs generalizing s x with
  | nil =>
    have hnil : x.classified [] = x := by simp [Units.classified]
    rw [List.flatten_nil, hnil, McPhase.classify_nil, Mc.forwarded_nil]
    exact h.gives []
  | cons c cs ih =>
    obtain ⟨hc, hrest⟩ := List.forall_mem_cons.mp hcs
    rw [List.flatten_cons, Units.classified_append, McPhase.classify_append, Mc.forwarded_append]
    exact (issueOk_mcData h hop hc).cons fun t ht => ih ht hop hrest

/-- A payload of any length (R107). -/
theorem issueAllOk_mcData {s : State} {x : Units} (h : s.At x) (hop : x.mc.phase ≠ .idle) (l : List Byte) :
    Gives (issueAllOk (mcData l) s) (x.mc.forwarded (x.mc.phase.classify x.sb l).1) (x.classified l) := by
  have hgives := issueAllOk_mcChunks h hop (payloads_chunks l)
  rwa [payloads_flatten] at hgives

end Sys2Proof.Machine
end

section
/-! The Authenticated Cipher: `AENC` gives the encrypt stream's bytes and their tag, each `ADEC` gives back what the decrypt
stream makes of them, and the round trip is that of unit MP (46_system.md R290, R291, R293). -/

namespace Sys2Proof.Machine

open Safety Claims

/-! ### What a stream and a check make of their bytes -/

/-- Unit MP in the middle of a stream is running (R200, R202). -/
theorem Mp.feed_begin_phase (u : Fc) (m : Mp) (mode : Mode) (dir : Dir) (pad : Pad) (l : List Byte) :
    ((m.begin mode dir pad).feed u l).2.phase = .run := by
  obtain ⟨-, -, hphase, -, -, -⟩ := Mp.feed_keeps u (m.begin mode dir pad) l
  exact hphase

/-- A stream's bytes are those of its chunks and those of its end. -/
theorem Mp.stream_eq_some_iff {u : Fc} {m : Mp} {l o : List Byte} :
    m.stream u l = some o ↔ ∃ e, (m.feed u l).2.ending u = some e ∧ (m.feed u l).1 ++ e = o := Option.map_eq_some_iff

/-- A window that a check has taken lets the body through and holds the last `Hd` bytes (R230, R262). -/
theorem operationWindow_feed (u : Sb) (b : List Byte) {t : List Byte} (ht : t.length = Config.hasher.hd) :
    ((operationWindow u .check).feed (b ++ t)).1 = b ∧ ((operationWindow u .check).feed (b ++ t)).2.held = t ∧
      ((operationWindow u .check).feed (b ++ t)).2.n = Config.hasher.hd := by
  have hempty : (operationWindow u .check).cnt = 0 := rfl
  have hlen : (b ++ t).length - (operationWindow u .check).n = b.length := by
    rw [List.length_append, ht]
    exact Nat.add_sub_cancel ..
  refine ⟨?_, ?_, Sb.feed_n _ _⟩
  · rw [Sb.feed_fst_of_empty _ hempty, hlen, List.take_left]
  · rw [Sb.feed_held_of_empty _ hempty, hlen, List.drop_left]

theorem tagOf_length (m : Mc) (b : List Byte) : (tagOf m b).length = Config.hasher.hd := Config.hasher.digest_length _

/-- Both an operation of unit MC on either path and a stream in the mode can start (R200, R255). -/
structure Units.CanStart (x : Units) (mode : Mode) : Prop where
  mpIdle : x.mp.phase = .idle
  fcKeyed : x.fc.keyed = true
  iv : mode ≠ .ecb → x.mp.ivValid = true
  mcIdle : x.mc.phase = .idle
  mcKeyed : x.mc.keyed = true
  sbIdle : x.sb.phase = .idle

/-! ### Taking turns -/

/-- Unless quiet an operation forwards its whole body (R256). -/
theorem Mc.forwarded_of_loud {m : Mc} (h : m.quiet = false) (b : List Byte) : m.forwarded b = b := by
  simp [Mc.forwarded, h]

/-- On the tag path a payload is forwarded and given to the Hasher whole (R256, R257). -/
theorem issueAllOk_mcData_tag {s : State} {x : Units} (h : s.At x) (htag : x.mc.phase = .tag)
    (hloud : x.mc.quiet = false) (l : List Byte) :
    Gives (issueAllOk (mcData l) s) l { x with hAcc := x.hAcc ++ l } := by
  have hgives := issueAllOk_mcData h (by simp [htag]) l
  rwa [Mc.forwarded_of_loud hloud, Units.classified, htag] at hgives

/-- The body of `AENC` gives unit MC every byte that unit MP puts out (R290). -/
theorem aencFeed_gives {s : State} {x : Units} (h : s.At x) (hrun : x.mp.phase = .run) (htag : x.mc.phase = .tag)
    (hloud : x.mc.quiet = false) (ps : List (List Byte)) :
    Gives (aencFeed ps s) (x.mp.feed x.fc ps.flatten).1
      { x with mp := (x.mp.feed x.fc ps.flatten).2, hAcc := x.hAcc ++ (x.mp.feed x.fc ps.flatten).1 } := by
  induction ps generalizing s x with
  | nil =>
    rw [List.flatten_nil, Mp.feed_nil, List.append_nil]
    exact h.gives []
  | cons p ps ih =>
    obtain ⟨-, -, hphase, -, -, -⟩ := Mp.feed_keeps x.fc x.mp p
    rw [List.flatten_cons, Mp.feed_append, ← List.append_assoc]
    exact (issueAllOk_mpData h hrun p).bind fun t ht => (issueAllOk_mcData_tag ht htag hloud _).bind fun v hv =>
      (ih hv (hphase.trans hrun) htag hloud).bind fun w hw => hw.gives _

/-- The body of `ADEC` in one pass gives unit MP every byte that leaves the window (R291). -/
theorem adecFeed_gives {s : State} {x : Units} (h : s.At x) (hrun : x.mp.phase = .run) (hchk : x.mc.phase = .chk)
    (hloud : x.mc.quiet = false) (ts : List (List Byte)) :
    Gives (adecFeed ts s) (x.mp.feed x.fc (x.sb.feed ts.flatten).1).1
      { x with
        mp := (x.mp.feed x.fc (x.sb.feed ts.flatten).1).2
        sb := (x.sb.feed ts.flatten).2
        hAcc := x.hAcc ++ (x.sb.feed ts.flatten).1 } := by
  induction ts generalizing s x with
  | nil =>
    rw [List.flatten_nil, Sb.feed_nil, Mp.feed_nil, List.append_nil]
    exact h.gives []
  | cons c ts ih =>
    obtain ⟨-, -, hphase, -, -, -⟩ := Mp.feed_keeps x.fc x.mp (x.sb.feed c).1
    have hdata := issueAllOk_mcData h (by simp [hchk]) c
    rw [Mc.forwarded_of_loud hloud, Units.classified, hchk] at hdata
    rw [List.flatten_cons, Sb.feed_append, Mp.feed_append, ← List.append_assoc]
    exact hdata.bind fun t ht => (issueAllOk_mpData ht hrun _).bind fun v hv =>
      (ih hv (hphase.trans hrun) hchk hloud).bind fun w hw => hw.gives _

/-! ### The three sequences -/

section
variable {s : State} {x : Units} (h : s.At x) {mode : Mode} (hx : x.CanStart mode)
include h hx

/-- `MP.ONESHOT` of a stream that ends well (R107). -/
theorem mpOneshot_gives {dir : Dir} {pad : Pad} {l o : List Byte}
    (ho : (x.mp.begin mode dir pad).stream x.fc l = some o) :
    Gives (issueAllOk (mpOneshot mode dir pad l) s) o
      { x with mp := ((x.mp.begin mode dir pad).feed x.fc l).2.clear } := by
  obtain ⟨e, hend, rfl⟩ := Mp.stream_eq_some_iff.mp ho
  have hrun := Mp.feed_begin_phase x.fc x.mp mode dir pad l
  refine (issueOk_mpStart h dir pad hx.mpIdle hx.fcKeyed hx.iv).cons fun t ht => ?_
  refine (issueAllOk_mpData ht rfl l).append fun v hv => ?_
  rw [← List.append_nil e]
  exact (issueOk_mpEnd hv hrun hend).cons fun w hw => hw.gives []

/-- A quiet `MC.ONESHOT` that checks a message and its tag (R262). -/
theorem mcOneshot_check_gives (b : List Byte) :
    Gives (issueAllOk (mcOneshot .check true (b ++ tagOf x.mc b)) s) []
      ((x.begun .check true).classified (b ++ tagOf x.mc b)).checkCleared := by
  obtain ⟨hbody, hheld, hn⟩ := operationWindow_feed x.sb b (tagOf_length x.mc b)
  have hacc : ((x.begun .check true).classified (b ++ tagOf x.mc b)).hAcc = x.mc.ipadBytes Config.hasher ++ b :=
    congrArg (x.mc.ipadBytes Config.hasher ++ ·) hbody
  refine (issueOk_mcStart h true hx.mcIdle hx.mcKeyed fun _ => hx.sbIdle).cons fun t ht => ?_
  refine (issueAllOk_mcData ht nofun _).append fun v hv => ?_
  exact (issueOk_mcEnd_check hv rfl hacc hn hheld).cons fun w hw => hw.gives []

end

/-- The units after `AENC` of `l`: both operations over, keys and IV kept (R290). -/
def Units.encrypted (x : Units) (mode : Mode) (pad : Pad) (l : List Byte) : Units :=
  { x with
    mp := ((x.mp.begin mode .encrypt pad).feed x.fc l).2.clear
    mc := (x.begun .tag false).mc.clear
    hAcc := [] }

section
variable {x : Units} {mode : Mode} (pad : Pad) (l : List Byte)

/-- Both can start again (R200, R255). -/
theorem Units.CanStart.encrypted (hx : x.CanStart mode) : (x.encrypted mode pad l).CanStart mode := by
  obtain ⟨-, hvalid, -, -, -, -⟩ := Mp.feed_keeps x.fc (x.mp.begin mode .encrypt pad) l
  exact ⟨rfl, hx.fcKeyed, fun hmode => hvalid.trans (hx.iv hmode), rfl, hx.mcKeyed, hx.sbIdle⟩

/-- A stream starts as it would have before (R200). -/
theorem Units.encrypted_begin (dir : Dir) :
    (x.encrypted mode pad l).mp.begin mode dir pad = x.mp.begin mode dir pad := by
  obtain ⟨hiv, hvalid, -, -, -, -⟩ := Mp.feed_keeps x.fc (x.mp.begin mode .encrypt pad) l
  exact Mp.begin_congr hiv hvalid mode dir pad

end

/-- The units after `ADEC` of the stream `c` and its tag (R291). -/
def Units.decrypted (x : Units) (mode : Mode) (pad : Pad) (quiet : Bool) (c : List Byte) : Units :=
  { ((x.begun .check quiet).classified (c ++ tagOf x.mc c)).checkCleared with
    mp := ((x.mp.begin mode .decrypt pad).feed x.fc c).2.clear }

section
variable {s : State} {x : Units} (h : s.At x) {mode : Mode} (hx : x.CanStart mode) {pad : Pad}
include h hx

/-- `AENC` gives what the encrypt stream puts out, and its tag (R290). -/
theorem aenc_gives {cs : List (List Byte)} {c : List Byte}
    (hc : (x.mp.begin mode .encrypt pad).stream x.fc cs.flatten = some c) :
    Gives (aenc mode pad cs s) (c ++ tagOf x.mc c) (x.encrypted mode pad cs.flatten) := by
  obtain ⟨e, hend, rfl⟩ := Mp.stream_eq_some_iff.mp hc
  have hrun := Mp.feed_begin_phase x.fc x.mp mode .encrypt pad cs.flatten
  unfold aenc
  refine (issueOk_mpStart h .encrypt pad hx.mpIdle hx.fcKeyed hx.iv).bind fun t₁ h₁ => ?_
  refine (issueOk_mcStart (path := .tag) h₁ false hx.mcIdle hx.mcKeyed nofun).bind fun t₂ h₂ => ?_
  refine (aencFeed_gives h₂ rfl rfl rfl cs).bind fun t₃ h₃ => ?_
  refine (issueOk_mpEnd h₃ hrun hend).bind fun t₄ h₄ => ?_
  refine (issueAllOk_mcData_tag h₄ rfl rfl e).bind fun t₅ h₅ => ?_
  exact (issueOk_mcEnd_tag h₅ rfl (List.append_assoc ..)).bind fun t₆ h₆ => h₆.gives _

variable {c p : List Byte} (hp : (x.mp.begin mode .decrypt pad).stream x.fc c = some p)
include hp

/-- `ADEC` in two passes over a stream and its tag (R291 (a)). -/
theorem adecTwoPass_gives :
    Gives (adecTwoPass mode pad (c ++ tagOf x.mc c) s) p (x.decrypted mode pad true c) := by
  have hcut : (c ++ tagOf x.mc c).take ((c ++ tagOf x.mc c).length - Config.hasher.hd) = c := by
    rw [List.length_append, tagOf_length, Nat.add_sub_cancel, List.take_left]
  unfold adecTwoPass
  rw [hcut]
  refine (mcOneshot_check_gives h hx c).bind fun t ht => ?_
  exact mpOneshot_gives ht ⟨hx.mpIdle, hx.fcKeyed, hx.iv, rfl, hx.mcKeyed, rfl⟩ hp

/-- `ADEC` in one pass over them, in any chunks (R291 (b)). -/
theorem adecOnePass_gives {ts : List (List Byte)} (hts : ts.flatten = c ++ tagOf x.mc c) :
    Gives (adecOnePass mode pad ts s) p (x.decrypted mode pad false c) := by
  obtain ⟨e, hend, rfl⟩ := Mp.stream_eq_some_iff.mp hp
  have hrun := Mp.feed_begin_phase x.fc x.mp mode .decrypt pad c
  obtain ⟨hbody, hheld, hn⟩ := operationWindow_feed x.sb c (tagOf_length x.mc c)
  have hfeed (t : State) (ht : t.At { (x.begun .check false) with mp := x.mp.begin mode .decrypt pad }) :=
    adecFeed_gives ht rfl rfl rfl ts
  simp only [hts, Units.begun, hbody] at hfeed
  unfold adecOnePass
  refine (issueOk_mcStart h false hx.mcIdle hx.mcKeyed fun _ => hx.sbIdle).bind fun t₁ h₁ => ?_
  refine (issueOk_mpStart h₁ .decrypt pad hx.mpIdle hx.fcKeyed hx.iv).bind fun t₂ h₂ => ?_
  refine (hfeed t₂ h₂).bind fun t₃ h₃ => ?_
  obtain ⟨t₄, hcheck, h₄⟩ := issueOk_mcEnd_check h₃ rfl rfl hn hheld
  obtain ⟨hissue, hok⟩ := issue_of_issueOk hcheck
  simp only [hissue, hok, if_true]
  exact (issueOk_mpEnd h₄ hrun hend).bind fun t₅ h₅ => h₅.gives _

end

end Sys2Proof.Machine

namespace Sys2Proof

open Machine

/-- Settles O60: `AENC` leaves both units as it found them but for the operation's settings, so each `ADEC` starts the decrypt
stream that undoes the encrypt stream. -/
theorem authenticatedRoundTrip : Obligations.AuthenticatedRoundTrip := by
  intro s mode pad cs cs' h hs hmc hkey hsb expected
  obtain ⟨c, hc, hp⟩ := stream_roundTrip h hs pad cs.flatten
  have hat : s.At s.units := ⟨h, rfl⟩
  have hcan : s.units.CanStart mode := ⟨hs.idle, hs.keyed, hs.iv, hmc, hkey, hsb⟩
  obtain ⟨t, henc, ht⟩ := aenc_gives hat hcan hc
  have hcan' := hcan.encrypted pad cs.flatten
  have hp' : ((s.units.encrypted mode pad cs.flatten).mp.begin mode .decrypt pad).stream s.fc c = some expected := by
    rw [Units.encrypted_begin]
    exact hp
  refine ⟨_, t, henc, ?_, fun hts => ?_⟩
  · obtain ⟨u, hu, -⟩ := adecTwoPass_gives ht hcan' hp'
    exact ⟨u, hu⟩
  · obtain ⟨u, hu, -⟩ := adecOnePass_gives ht hcan' hp' hts
    exact ⟨u, hu⟩

end Sys2Proof
end

section
/-! The error exits of the commands, said once (60_exceptions.md R310 to R312): what a command has made of the state when it
answers an error, and that every command either answers `OK` or leaves by one of these exits. -/

namespace Sys2Proof.Machine

open Claims

/-! ### The exits of a command -/

/-- The codes of an error found before or outside an operation (R311). -/
def refusalCodes : List Code := [.noKey, .invalidKeyLength, .noIV, .illegalCommand]

/-- `ErrorState s i c u`: command `i`, run from `s`, answers the error `c`, having made `u` of the elements other than its
payload's and its response's. A refusal changes nothing; the end of a stream clears the unit, the end of a check the window
too (R311). -/
inductive ErrorState (s : State) : Instr → Code → State → Prop
  | refused {i : Instr} {c : Code} (hc : c ∈ refusalCodes) : ErrorState s i c s
  | cutStream : ErrorState s .mpEnd .invalidLength { s with mp := s.mp.clear }
  | badPadding : ErrorState s .mpEnd .invalidPadding { s with mp := s.mp.clear }
  | shortWindow : ErrorState s .sbEnd .insufficientLength { s with sb := s.sb.clear }
  | shortCheck (hchk : s.mc.phase = .chk) : ErrorState s .mcEnd .insufficientLength s.checkCleared
  | mismatch (hchk : s.mc.phase = .chk) : ErrorState s .mcEnd .macMismatch s.checkCleared

/-- The state in which command `i` ends when run from `s`: answered `OK`, or by an error exit. -/
inductive Exit (i : Instr) (s : State) : State → Prop
  | ok {t : State} {aux : BitVec 16} (hrsp : t.rsp = s.rsp ++ [responseWord .ok aux]) : Exit i s t
  | error {c : Code} {u : State} (he : ErrorState s i c u) : Exit i s (ended u i.len.toNat c (responseWord c 0))

/-- The command answers a next state, in which it has ended by one of its exits. -/
def Exits (i : Instr) (s : State) (r : Result) : Prop := ∃ t, r = .next t ∧ Exit i s t

section
variable {i : Instr} {s t t' : State} {c : Code}

theorem Exit.exits (h : Exit i s t) : Exits i s (.next t) := ⟨t, rfl, h⟩

/-- The successful end of a command without a payload, RSP as before the command until then (R95). -/
theorem exit_done {u : State} (hrsp : u.rsp = s.rsp) : Exit i s (done u 0) :=
  .ok (aux := 0) (congrArg (· ++ [responseWord .ok 0]) hrsp)

/-- A test ends by an exit when both its branches do. -/
theorem Exit.ite {p : Prop} [Decidable p] (h : Exit i s t) (h' : Exit i s t') : Exit i s (if p then t else t') := by
  split
  · exact h
  · exact h'

/-- The refusal of a command that took its payload (R310). -/
theorem exit_of_refusal_taken (hc : c ∈ refusalCodes) : Exit i s ((s.taken i.len.toNat).fail c) :=
  .error (.refused hc)

/-- The error exit of a command without a payload (R310). -/
theorem exit_of_error {u : State} (hi : i.len = 0) (he : ErrorState s i c u) : Exit i s (u.fail c) := by
  have hexit : Exit i s (ended u i.len.toNat c (responseWord c 0)) := .error he
  rw [hi] at hexit
  exact hexit

/-- The refusal of a command without a payload (R310). -/
theorem exit_of_refusal (hi : i.len = 0) (hc : c ∈ refusalCodes) : Exit i s (s.fail c) :=
  exit_of_error hi (.refused hc)

/-- A command with its payload on DIN ends by an exit when what it does with the payload does (R62). -/
theorem exits_withPayload {run : State → State} (hn : i.len.toNat ≤ s.din.length)
    (h : Exit i s (run (s.taken i.len.toNat))) : Exits i s (.next (s.withPayload i.len.toNat run)) := by
  rw [State.withPayload_taken s run hn]
  exact h.exits

end

/-! ### The commands with a payload -/

section
variable {s : State}

theorem execFcSetkey_exits (len : BitVec 16) (hn : len.toNat ≤ s.din.length) :
    Exits (.fcSetkey len) s (execFcSetkey len s) := by
  refine exits_withPayload hn ?_
  exact .ite (exit_of_refusal_taken (by decide)) (.ite (exit_of_refusal_taken (by decide)) (.ok rfl))

/-- The block commands, under any sequence of round keys (R160, R161). -/
theorem blockCommand_exit {i : Instr} (ks : List (BitVec 48)) : Exit i s ((s.taken i.len.toNat).blockCommand ks) := by
  unfold State.blockCommand
  exact .ite (.ok rfl) (exit_of_refusal_taken (by decide))

theorem execMpData_exits (len : BitVec 16) (hn : len.toNat ≤ s.din.length) :
    Exits (.mpData len) s (execMpData len s) := by
  refine exits_withPayload hn ?_
  exact .ite (exit_of_refusal_taken (by decide)) (.ok rfl)

theorem execSbData_exits (len : BitVec 16) (hn : len.toNat ≤ s.din.length) :
    Exits (.sbData len) s (execSbData len s) := by
  refine exits_withPayload hn ?_
  exact .ite (exit_of_refusal_taken (by decide)) (.ok rfl)

theorem macSetkey_exit (H : Hasher) (len : BitVec 16) :
    Exit (.mcSetkey len) s ((s.taken len.toNat).macSetkey H len.toNat) := by
  unfold State.macSetkey
  dsimp only
  rw [State.macHashKey_snd]
  exact .ite (exit_of_refusal_taken (by decide)) (.ite (exit_of_refusal_taken (by decide)) (.ok rfl))

theorem execMcData_exits (len : BitVec 16) (hn : len.toNat ≤ s.din.length) :
    Exits (.mcData len) s (execMcData len s) := by
  refine exits_withPayload hn ?_
  rw [State.mcFeed_eq]
  exact .ite (exit_of_refusal_taken (by decide)) (.ok rfl)

end

/-! ### The commands without one -/

section
variable (s : State)

/-- `RDSR` of a register answers `OK`, of any other index it is refused (R281). -/
theorem readStatus_exit (H : Hasher) (idx : BitVec 8) : Exit (.rdsr idx) s (s.readStatus H idx) := by
  unfold State.readStatus
  split
  · exact .ok rfl
  · exact exit_of_refusal rfl (by decide)

/-- `ABORT` is refused for an owned window alone (R282). -/
theorem execAbort_exits (u : AbortUnit) : Exits (.abort u) s (execAbort u s) := by
  cases u with
  | all => exact ⟨_, execAbort_all s, exit_done rfl⟩
  | mp => exact ⟨_, execAbort_mp s, exit_done rfl⟩
  | mc => exact ⟨_, execAbort_mc s, exit_done rfl⟩
  | sb =>
    by_cases howned : s.sb.phase = .owned
    · exact ⟨_, execAbort_sb_of_owned s howned, .error (.refused (c := .illegalCommand) (by decide))⟩
    · exact ⟨_, execAbort_sb_of_not_owned s howned, exit_done rfl⟩

theorem execFcRmkey_exits : Exits .fcRmkey s (execFcRmkey s) :=
  Exit.exits (.ite (exit_of_refusal rfl (by decide)) (.ok rfl))

theorem execMpStart_exits (mode : Mode) (dir : Dir) (pad : Pad) :
    Exits (.mpStart mode dir pad) s (execMpStart mode dir pad s) :=
  Exit.exits (.ite (exit_of_refusal rfl (by decide)) (.ite (exit_of_refusal rfl (by decide))
    (.ite (exit_of_refusal rfl (by decide)) (.ok rfl))))

/-- The end of an ECB or CBC decrypt stream: cut inside a block, badly padded, or released (R210). -/
theorem mpEndDecrypt_exit : Exit .mpEnd s s.mpEndDecrypt := by
  unfold State.mpEndDecrypt
  refine .ite (exit_of_error rfl .cutStream) ?_
  split
  · exact exit_of_error rfl .badPadding
  · exact .ok rfl

theorem execMpEnd_exits : Exits .mpEnd s (execMpEnd s) := by
  refine Exit.exits (.ite (exit_of_refusal rfl (by decide)) ?_)
  split
  · exact .ok rfl
  · exact .ok rfl
  · exact mpEndDecrypt_exit s

theorem execSbStart_exits (n : BitVec 8) : Exits (.sbStart n) s (execSbStart n s) := by
  refine Exit.exits ?_
  split
  · exact .ite (exit_of_refusal rfl (by decide)) (.ok rfl)
  · exact exit_of_refusal rfl (by decide)

theorem execSbEnd_exits : Exits .sbEnd s (execSbEnd s) :=
  Exit.exits (.ite (exit_of_refusal rfl (by decide)) (.ite (exit_of_error rfl .shortWindow) (.ok rfl)))

theorem execMcRmkey_exits : Exits .mcRmkey s (execMcRmkey s) :=
  Exit.exits (.ite (exit_of_refusal rfl (by decide)) (.ok rfl))

theorem execMcStart_exits (path : Path) (quiet : Bool) : Exits (.mcStart path quiet) s (execMcStart path quiet s) := by
  refine Exit.exits ?_
  unfold State.macStart
  refine .ite (exit_of_refusal rfl (by decide)) (.ite (exit_of_refusal rfl (by decide))
    (.ite (exit_of_refusal rfl (by decide)) ?_))
  cases path with
  | tag => exact .ok rfl
  | check => exact .ok rfl

/-- The end of a MAC operation: on the check path a short window, a match or a mismatch (R260, R262). -/
theorem execMcEnd_exits : Exits .mcEnd s (execMcEnd s) := by
  cases hphase : s.mc.phase with
  | idle => exact ⟨_, execMcEnd_of_idle hphase, .error (.refused (c := .illegalCommand) (by decide))⟩
  | tag => exact ⟨_, execMcEnd_of_tag hphase, exit_done rfl⟩
  | chk =>
    rcases s.sb.cnt_le.lt_or_eq with hshort | hfull
    · exact ⟨_, execMcEnd_of_short hphase hshort, .error (.shortCheck hphase)⟩
    · exact ⟨_, execMcEnd_of_full hphase hfull, .ite (exit_done rfl) (.error (.mismatch hphase))⟩

end

/-- Every command with its payload on DIN ends by one of its exits: one lemma per command. -/
theorem exec_exits (i : Instr) {s : State} (hn : i.len.toNat ≤ s.din.length) : Exits i s (exec i s) := by
  cases i with
  | nop | fcHaskey | mpRmiv | mcHaskey => exact ⟨_, rfl, .ok rfl⟩
  | rdsr idx => exact (readStatus_exit s _ idx).exits
  | abort u => exact execAbort_exits s u
  | fcSetkey len => exact execFcSetkey_exits len hn
  | fcRmkey => exact execFcRmkey_exits s
  | fcEncblk | fcDecblk => exact exits_withPayload hn (blockCommand_exit _)
  | mpSetiv => exact exits_withPayload hn (.ok rfl)
  | mpStart mode dir pad => exact execMpStart_exits s mode dir pad
  | mpData len => exact execMpData_exits len hn
  | mpEnd => exact execMpEnd_exits s
  | sbStart n => exact execSbStart_exits s n
  | sbData len => exact execSbData_exits len hn
  | sbEnd => exact execSbEnd_exits s
  | mcSetkey len => exact exits_withPayload hn (macSetkey_exit _ len)
  | mcRmkey => exact execMcRmkey_exits s
  | mcStart path quiet => exact execMcStart_exits s path quiet
  | mcData len => exact execMcData_exits len hn
  | mcEnd => exact execMcEnd_exits s

/-! ### What an error leaves -/

/-- No refusal has a code of an error found at the end of a stream (R311). -/
theorem bits_of_refusal {c : Code} (hc : c ∈ refusalCodes) : c.bits.toNat ∉ [3, 4] ∧ c.bits.toNat ∉ [5, 6] := by
  revert c
  decide

section
variable {i : Instr} {s u : State} {c : Code} (h : ErrorState s i c u)
include h

/-- Before its response an error exit has put no word on RSP (R310). -/
theorem ErrorState.rsp_eq : u.rsp = s.rsp := by
  cases h <;> rfl

/-- No error exit puts a byte out (R312). -/
theorem ErrorState.out_eq : u.dout = s.dout ∧ u.sfx = s.sfx := by
  cases h <;> exact ⟨rfl, rfl⟩

/-- No error exit removes a key or the IV (R312). -/
theorem ErrorState.keeps_keys : u.fc = s.fc ∧ u.mp.iv = s.mp.iv ∧ u.mp.ivValid = s.mp.ivValid ∧
    u.mc.keyed = s.mc.keyed ∧ u.mc.ipad = s.mc.ipad ∧ u.mc.opad = s.mc.opad := by
  cases h <;> exact ⟨rfl, rfl, rfl, rfl, rfl, rfl⟩

/-- An error exit changes its command's unit alone, and the end of a check the window that the operation owned (R312). -/
theorem ErrorState.keeps_other_units : (i.unit ≠ 2 → u.mp = s.mp) ∧ (i.unit ≠ 4 → u.mc = s.mc) ∧
    (i.unit ≠ 3 → ¬(i = .mcEnd ∧ s.mc.phase = .chk) → u.sb = s.sb) := by
  cases h with
  | refused => exact ⟨fun _ => rfl, fun _ => rfl, fun _ _ => rfl⟩
  | cutStream | badPadding => exact ⟨fun hunit => absurd rfl hunit, fun _ => rfl, fun _ _ => rfl⟩
  | shortWindow => exact ⟨fun _ => rfl, fun _ => rfl, fun hunit => absurd rfl hunit⟩
  | shortCheck hchk | mismatch hchk =>
    exact ⟨fun _ => rfl, fun hunit => absurd rfl hunit, fun _ hend => absurd ⟨rfl, hchk⟩ hend⟩

/-- After a code of the first kind nothing has changed (R311). -/
theorem ErrorState.eq_of_refusal (hc : c.bits.toNat ∈ [1, 2, 7, 8]) : u = s := by
  cases h with
  | refused => rfl
  | cutStream | badPadding | shortWindow | shortCheck | mismatch => exact absurd hc (by decide)

/-- After `InvalidLength` or `InvalidPadding` unit MP is clear (R311). -/
theorem ErrorState.eq_of_badStream (hc : c.bits.toNat ∈ [3, 4]) : u = { s with mp := s.mp.clear } := by
  cases h with
  | refused href => exact absurd hc (bits_of_refusal href).1
  | cutStream | badPadding => rfl
  | shortWindow | shortCheck | mismatch => exact absurd hc (by decide)

/-- After `InsufficientLength` or `MacMismatch` the window is released, and after a check unit MC is clear too (R311). -/
theorem ErrorState.eq_of_failedWindow (hc : c.bits.toNat ∈ [5, 6]) :
    (i ≠ .mcEnd ∧ u = { s with sb := s.sb.clear }) ∨ (i = .mcEnd ∧ u = s.checkCleared) := by
  cases h with
  | refused href => exact absurd hc (bits_of_refusal href).2
  | cutStream | badPadding => exact absurd hc (by decide)
  | shortWindow => exact .inl ⟨nofun, rfl⟩
  | shortCheck | mismatch => exact .inr ⟨rfl, rfl⟩

end

/-- A command whose response code is not `OK` has left by an error exit with that code (R310). -/
theorem exec_error (i : Instr) {s : State} (hn : i.len.toNat ≤ s.din.length) :
    ∃ t q, exec i s = .next t ∧ t.rsp = s.rsp ++ [q] ∧
      (q.extractLsb' 0 4 ≠ 0 → ∃ c u, ErrorState s i c u ∧ t = ended u i.len.toNat c q ∧ q.extractLsb' 0 4 = c.bits) := by
  obtain ⟨t, ht, hexit⟩ := exec_exits i hn
  cases hexit with
  | ok hrsp => exact ⟨t, _, ht, hrsp, fun hne => absurd (responseWord_code .ok _) hne⟩
  | error he => exact ⟨_, _, ht, congrArg (· ++ _) he.rsp_eq, fun _ => ⟨_, _, he, rfl, responseWord_code _ 0⟩⟩

/-- A code whose number is in a list without 0 is not `OK` (R96). -/
theorem ne_zero_of_toNat_mem {x : BitVec 4} {l : List Nat} (h : x.toNat ∈ l) (hl : 0 ∉ l) : x ≠ 0 := by
  rintro rfl
  exact hl h

end Sys2Proof.Machine

namespace Sys2Proof

open Machine

/-- Settles O10: an error exit puts nothing out, keeps keys and IV, and changes its command's unit alone. -/
theorem errorsReleaseNothing : Obligations.ErrorsReleaseNothing := by
  intro i s _ hn
  obtain ⟨t, q, ht, hrsp, herror⟩ := exec_error i hn
  refine ⟨t, q, ht, hrsp, fun hne => ?_⟩
  obtain ⟨c, u, he, rfl, -⟩ := herror hne
  obtain ⟨hdout, hsfx⟩ := he.out_eq
  obtain ⟨hfc, hiv, hivValid, hkeyed, hipad, hopad⟩ := he.keeps_keys
  exact ⟨hdout, hsfx, hfc, hiv, hivValid, hkeyed, hipad, hopad, he.keeps_other_units⟩

/-- Settles O11: the error exits of each kind of code, each as one update of the state. -/
theorem errorsArePrecise : Obligations.ErrorsArePrecise := by
  intro i s _ hn hrx
  obtain ⟨t, q, ht, hrsp, herror⟩ := exec_error i hn
  refine ⟨t, q, ht, hrsp, fun hcode => ?_, fun hcode => ?_, fun hcode => ?_⟩
  all_goals
    obtain ⟨c, u, he, rfl, hbits⟩ := herror (ne_zero_of_toNat_mem hcode (by decide))
    rw [hbits] at hcode
  · obtain rfl := he.eq_of_refusal hcode
    simp [Claims.ended, hrx]
  · obtain rfl := he.eq_of_badStream hcode
    exact ⟨rfl, rfl, rfl, rfl, rfl, rfl, rfl⟩
  · obtain ⟨hi, rfl⟩ | ⟨hi, rfl⟩ := he.eq_of_failedWindow hcode
    · exact ⟨rfl, rfl, rfl, rfl, fun hend => absurd hend hi, fun _ => ⟨rfl, rfl⟩, rfl, rfl, rfl, rfl⟩
    · exact ⟨rfl, rfl, rfl, rfl, fun _ => ⟨rfl, rfl⟩, fun hend => absurd hi hend, rfl, rfl, rfl, rfl⟩

end Sys2Proof
end

section
/-! What the control part of a state determines (70_reset_and_hazards.md R351). Two states with the same control part and as
much on each port are related, unit by unit, below; every operation of a unit takes related states to related ones, puts out as
many bytes in both and tests nothing else, so every command does, but for the two ends that look at data. -/

namespace Sys2Proof.Machine

open Safety

/-! ### States with the same control part -/

/-- Two states of unit MP that differ in the IV, the chain and the buffers' bytes alone (R351). -/
structure Mp.SameControl (m m' : Mp) : Prop where
  ivValid : m.ivValid = m'.ivValid
  phase : m.phase = m'.phase
  mode : m.mode = m'.mode
  dir : m.dir = m'.dir
  pad : m.pad = m'.pad
  prevValid : m.prevValid = m'.prevValid
  fill : m.fill = m'.fill

/-- Two windows that differ in their bytes alone (R351). -/
structure Sb.SameControl (u u' : Sb) : Prop where
  phase : u.phase = u'.phase
  n : u.n = u'.n
  cnt : u.cnt = u'.cnt

/-- Two states of unit MC that differ in the pads and the digests alone (R351). -/
structure Mc.SameControl (m m' : Mc) : Prop where
  keyed : m.keyed = m'.keyed
  phase : m.phase = m'.phase
  path : m.path = m'.path
  quiet : m.quiet = m'.quiet

/-- Two states that differ in key bytes, data bytes and values computed from them alone, with as many bytes on each port
(R351). -/
structure State.SameControl (s s' : State) : Prop where
  fcKeyed : s.fc.keyed = s'.fc.keyed
  mp : s.mp.SameControl s'.mp
  sb : s.sb.SameControl s'.sb
  mc : s.mc.SameControl s'.mc
  lastCode : s.lastCode = s'.lastCode
  cmd : s.cmd = s'.cmd
  din : s.din.length = s'.din.length
  dout : s.dout.length = s'.dout.length
  sfx : s.sfx.length = s'.sfx.length
  rsp : s.rsp = s'.rsp
  rstReq : s.rstReq = s'.rstReq

/-- That is what it means to have one control part. -/
theorem shape_eq_iff {s s' : State} : shape s = shape s' ↔ s.SameControl s' := by
  rw [shape, shape, Shape.mk.injEq]
  constructor
  · rintro ⟨hfc, hiv, hmp, hmode, hdir, hpad, hprev, hfill, hsb, hn, hcnt, hmc, hop, hpath, hquiet, hlast, hcmd, hdin, hdout,
      hsfx, hrsp, hrst⟩
    exact ⟨hfc, ⟨hiv, hmp, hmode, hdir, hpad, hprev, hfill⟩, ⟨hsb, hn, hcnt⟩, ⟨hmc, hop, hpath, hquiet⟩, hlast, hcmd, hdin,
      hdout, hsfx, hrsp, hrst⟩
  · rintro ⟨hfc, ⟨hiv, hmp, hmode, hdir, hpad, hprev, hfill⟩, ⟨hsb, hn, hcnt⟩, ⟨hmc, hop, hpath, hquiet⟩, hlast, hcmd, hdin,
      hdout, hsfx, hrsp, hrst⟩
    exact ⟨hfc, hiv, hmp, hmode, hdir, hpad, hprev, hfill, hsb, hn, hcnt, hmc, hop, hpath, hquiet, hlast, hcmd, hdin, hdout,
      hsfx, hrsp, hrst⟩

/-! ### Unit MP -/

namespace Mp.SameControl

variable {m m' : Mp} (h : m.SameControl m')
include h

theorem clear : m.clear.SameControl m'.clear := ⟨h.ivValid, rfl, h.mode, h.dir, h.pad, rfl, rfl⟩

/-- An IV installed or removed (R190, R191). -/
theorem withIv (iv iv' : Block) (valid : Bool) :
    ({ m with iv := iv, ivValid := valid } : Mp).SameControl { m' with iv := iv', ivValid := valid } :=
  { h with ivValid := rfl }

theorem begin (mode : Mode) (dir : Dir) (pad : Pad) : (m.begin mode dir pad).SameControl (m'.begin mode dir pad) :=
  ⟨h.ivValid, rfl, rfl, rfl, rfl, rfl, rfl⟩

variable (u u' : Fc)

/-- Flushing puts out a block or nothing, as `mp_prev_valid` says (R202). -/
theorem flushPrev_length : (m.flushPrev u).1.length = (m'.flushPrev u').1.length := by
  rw [Mp.flushPrev_length, Mp.flushPrev_length, h.prevValid]

/-- Whether a byte completes a block is told by `mp_fill` (R202). -/
theorem byteStep (b b' : Byte) :
    (m.byteStep u b).1.length = (m'.byteStep u' b').1.length ∧ (m.byteStep u b).2.SameControl (m'.byteStep u' b').2 := by
  by_cases hfill : m.fill.val + 1 < 8
  · rw [Mp.byteStep_of_lt u m b hfill, Mp.byteStep_of_lt u' m' b' (h.fill ▸ hfill)]
    exact ⟨rfl, { h with fill := by simp [h.fill] }⟩
  · have hlast : m.fill.val = 7 := by omega
    rw [Mp.byteStep_of_last u m b hlast, Mp.byteStep_of_last u' m' b' (h.fill ▸ hlast), m.flushPrev_snd u, m'.flushPrev_snd u']
    exact ⟨h.flushPrev_length u u', ⟨h.ivValid, h.phase, h.mode, h.dir, h.pad, rfl, rfl⟩⟩

/-- Chunks of one length put out as many bytes (R201). -/
theorem feed {l l' : List Byte} (hl : l.length = l'.length) :
    (m.feed u l).1.length = (m'.feed u' l').1.length ∧ (m.feed u l).2.SameControl (m'.feed u' l').2 := by
  induction l generalizing m m' l' with
  | nil =>
    obtain rfl : l' = [] := List.length_eq_zero_iff.mp hl.symm
    exact ⟨rfl, h⟩
  | cons b bs ih =>
    obtain ⟨b', bs', rfl⟩ := List.exists_cons_of_length_eq_add_one hl.symm
    obtain ⟨hout, hstep⟩ := h.byteStep u u' b b'
    obtain ⟨houts, hfeed⟩ := ih hstep (Nat.succ.inj hl)
    refine ⟨?_, hfeed⟩
    rw [Mp.feed_cons, Mp.feed_cons, List.length_append, List.length_append, hout, houts]

/-- The end of an encrypt stream pads by scheme and fill (R209). -/
theorem endEncrypt_length : (m.endEncrypt u).length = (m'.endEncrypt u').length := by
  have htail : m.tail = [] ↔ m'.tail = [] := by rw [Mp.tail_eq_nil_iff, Mp.tail_eq_nil_iff, h.fill]
  by_cases hempty : m.pad = .zero ∧ m.tail = []
  · obtain ⟨hpad, hnil⟩ := hempty
    rw [Mp.endEncrypt_of_empty u m hpad hnil, Mp.endEncrypt_of_empty u' m' (h.pad ▸ hpad) (htail.mp hnil)]
    exact h.flushPrev_length u u'
  · have hempty' : ¬(m'.pad = .zero ∧ m'.tail = []) := by rwa [← htail, ← h.pad]
    rw [Mp.endEncrypt_of_tail u m hempty, Mp.endEncrypt_of_tail u' m' hempty', List.length_append, List.length_append,
      h.flushPrev_length u u', Vector.length_toList, Vector.length_toList]

/-- The end of a CTR stream puts out the tail's bytes (R211). -/
theorem endCtr_length : (m.endCtr u).length = (m'.endCtr u').length := by
  simp [Mp.endCtr_eq, h.flushPrev_length u u', h.fill]

end Mp.SameControl

/-! ### Unit SB -/

namespace Sb.SameControl

variable {u u' : Sb} (h : u.SameControl u')
include h

theorem clear : u.clear.SameControl u'.clear := ⟨rfl, h.n, rfl⟩

/-- Chunks of one length push as many bytes out of the window (R233). -/
theorem feed {l l' : List Byte} (hl : l.length = l'.length) :
    (u.feed l).1.length = (u'.feed l').1.length ∧ (u.feed l).2.SameControl (u'.feed l').2 := by
  refine ⟨?_, ?_, ?_, ?_⟩
  · rw [Sb.feed_fst_length, Sb.feed_fst_length, h.n, h.cnt, hl]
  · rw [Sb.feed_phase, Sb.feed_phase, h.phase]
  · rw [Sb.feed_n, Sb.feed_n, h.n]
  · rw [Sb.feed_cnt, Sb.feed_cnt, h.n, h.cnt, hl]

/-- The suffix has as many bytes as the window retains (R234). -/
theorem suffix_length : u.suffix.length = u'.suffix.length := by
  simp [Sb.suffix, firstBytes, h.n]

/-- In every phase chunks of one length are split alike into body and window (R257). -/
theorem classify (p : McPhase) {l l' : List Byte} (hl : l.length = l'.length) :
    (p.classify u l).1.length = (p.classify u' l').1.length ∧ (p.classify u l).2.SameControl (p.classify u' l').2 := by
  cases p with
  | idle => exact ⟨rfl, h⟩
  | tag => exact ⟨hl, h⟩
  | chk => exact h.feed hl

end Sb.SameControl

/-- A window that begins a stream is told by its length and its owner (R232, R255). -/
theorem Sb.sameControl_begin (u u' : Sb) {n : Nat} (hn : n ≤ 64) (phase : SbPhase) :
    (u.begin n hn phase).SameControl (u'.begin n hn phase) := ⟨rfl, rfl, rfl⟩

/-- The window released or kept, as a test of the control part says (R282). -/
theorem Sb.SameControl.clear_ite {u u' : Sb} (h : u.SameControl u') {p p' : Prop} [Decidable p] [Decidable p'] (hp : p ↔ p') :
    (if p then u.clear else u).SameControl (if p' then u'.clear else u') := by
  by_cases hclear : p
  · rw [if_pos hclear, if_pos (hp.mp hclear)]
    exact h.clear
  · rw [if_neg hclear, if_neg (mt hp.mpr hclear)]
    exact h

/-! ### Unit MC -/

namespace Mc.SameControl

variable {m m' : Mc} (h : m.SameControl m')
include h

theorem clear : m.clear.SameControl m'.clear := ⟨h.keyed, rfl, h.path, h.quiet⟩

theorem installKey (k k' : List Byte) : (m.installKey k).SameControl (m'.installKey k') :=
  ⟨rfl, h.phase, h.path, h.quiet⟩

theorem removeKey : m.removeKey.SameControl m'.removeKey := ⟨rfl, h.phase, h.path, h.quiet⟩

/-- An operation begun (R255). -/
theorem begin (path : Path) (quiet : Bool) (phase : McPhase) :
    ({ m with path := path, quiet := quiet, phase := phase } : Mc).SameControl
      { m' with path := path, quiet := quiet, phase := phase } := ⟨h.keyed, rfl, rfl, rfl⟩

/-- What of a body goes out is told by `mc_quiet` (R256). -/
theorem forwarded_length {b b' : List Byte} (hb : b.length = b'.length) :
    (m.forwarded b).length = (m'.forwarded b').length := by
  unfold Mc.forwarded
  rw [h.quiet]
  split
  · rfl
  · exact hb

end Mc.SameControl

/-! ### The exits and branches of a command -/

namespace State.SameControl

variable {s s' t t' : State}

/-- A test of the control part has one outcome in both states. -/
theorem ite {p p' : Prop} [Decidable p] [Decidable p'] (hp : p ↔ p') (h : s.SameControl s') (h' : t.SameControl t') :
    (if p then s else t).SameControl (if p' then s' else t') := by
  by_cases htest : p
  · rw [if_pos htest, if_pos (hp.mp htest)]
    exact h
  · rw [if_neg htest, if_neg (mt hp.mpr htest)]
    exact h'

variable (h : s.SameControl s')
include h

theorem withFc {u u' : Fc} (hkeyed : u.keyed = u'.keyed) :
    ({ s with fc := u } : State).SameControl { s' with fc := u' } := { h with fcKeyed := hkeyed }

theorem withMp {m m' : Mp} (hmp : m.SameControl m') :
    ({ s with mp := m } : State).SameControl { s' with mp := m' } := { h with mp := hmp }

theorem withSb {u u' : Sb} (hsb : u.SameControl u') :
    ({ s with sb := u } : State).SameControl { s' with sb := u' } := { h with sb := hsb }

theorem withMc {m m' : Mc} (hmc : m.SameControl m') :
    ({ s with mc := m } : State).SameControl { s' with mc := m' } := { h with mc := hmc }

/-- What the Hasher holds is computed from data (R351). -/
theorem withHAcc (a a' : List Byte) : ({ s with hAcc := a } : State).SameControl { s' with hAcc := a' } := { h with }

theorem answer (c : Code) (aux : BitVec 16) : (s.answer c aux).SameControl (s'.answer c aux) :=
  { h with rsp := congrArg (· ++ _) h.rsp, cmd := congrArg List.tail h.cmd }

theorem respond (c : Code) (aux : BitVec 16) : (s.respond c aux).SameControl (s'.respond c aux) :=
  { h.answer c aux with lastCode := rfl }

theorem fail (c : Code) : (s.fail c).SameControl (s'.fail c) := { h.respond c 0 with }

theorem finish : s.finish.SameControl s'.finish := { h.respond .ok 0 with }

theorem out {b b' : List Byte} (hb : b.length = b'.length) : (s.out b).SameControl (s'.out b') :=
  { h with dout := by simp [h.dout, hb] }

theorem sfxOut {b b' : List Byte} (hb : b.length = b'.length) : (s.sfxOut b).SameControl (s'.sfxOut b') :=
  { h with sfx := by simp [h.sfx, hb] }

/-- Payloads of one length are taken, or waited for, in both states; then the command runs on payloads of that length (R62,
R350(c)). -/
theorem withPayload {run : State → State} (n : Nat)
    (hrun : ∀ {u u' : State}, u.SameControl u' → u.rxbuf.length = u'.rxbuf.length → (run u).SameControl (run u')) :
    (s.withPayload n run).SameControl (s'.withPayload n run) := by
  refine .ite (by rw [h.din]) h (hrun { h with din := by simp [h.din] } ?_)
  simp [h.din]

end State.SameControl

/-- The two commands answer next states with one control part. -/
def SameEvents (r r' : Result) : Prop := ∃ t t', r = .next t ∧ r' = .next t' ∧ t.SameControl t'

theorem State.SameControl.sameEvents {t t' : State} (h : t.SameControl t') : SameEvents (.next t) (.next t') :=
  ⟨t, t', rfl, rfl, h⟩

/-! ### Unit SYS -/

/-- The status registers show the control part alone (R55 to R59). -/
theorem State.SameControl.statusRegister_eq {s s' : State} (h : s.SameControl s') (H : Hasher) (idx : BitVec 8) :
    statusRegister H s idx = statusRegister H s' idx := by
  have h0 : sr0 s = sr0 s' := by
    simp only [sr0, h.lastCode, h.mc.phase, h.sb.phase, h.mp.phase, h.mc.keyed, h.mp.ivValid, h.fcKeyed]
  have h1 : sr1 s = sr1 s' := by simp only [sr1, h.mp.prevValid, h.mp.fill, h.mp.pad, h.mp.dir, h.mp.mode]
  have h2 : sr2 s = sr2 s' := by simp only [sr2, h.sb.cnt, h.sb.n]
  have h3 : sr3 s = sr3 s' := by simp only [sr3, h.mc.quiet, h.mc.path]
  rw [statusRegister, statusRegister, h0, h1, h2, h3]

section
variable {s s' : State} (h : s.SameControl s')
include h

theorem readStatus_sameControl (H : Hasher) (idx : BitVec 8) : (s.readStatus H idx).SameControl (s'.readStatus H idx) := by
  unfold State.readStatus
  rw [h.statusRegister_eq]
  split
  · exact h.answer _ _
  · exact h.fail _

theorem abortMp_sameControl : s.abortMp.SameControl s'.abortMp := h.withMp h.mp.clear

theorem abortMc_sameControl : s.abortMc.SameControl s'.abortMc := by
  rw [State.abortMc_eq, State.abortMc_eq]
  exact ((h.withMc h.mc.clear).withHAcc _ _).withSb (h.sb.clear_ite (by rw [h.mc.phase]))

theorem abortSb_sameControl : s.abortSb.SameControl s'.abortSb := by
  rw [State.abortSb_eq, State.abortSb_eq]
  exact h.withSb (h.sb.clear_ite (by rw [h.sb.phase]))

theorem execAbort_sameEvents (u : AbortUnit) : SameEvents (execAbort u s) (execAbort u s') := by
  refine State.SameControl.sameEvents ?_
  cases u with
  | all => exact (abortSb_sameControl (abortMc_sameControl (abortMp_sameControl h))).respond _ _
  | mp => exact (abortMp_sameControl h).respond _ _
  | mc => exact (abortMc_sameControl h).respond _ _
  | sb => exact .ite (by rw [h.sb.phase]) (h.fail _) ((abortSb_sameControl h).respond _ _)

/-! ### Unit FC -/

theorem execFcSetkey_sameEvents (len : BitVec 16) : SameEvents (execFcSetkey len s) (execFcSetkey len s') := by
  refine State.SameControl.sameEvents (h.withPayload _ fun hu _ => ?_)
  refine .ite (by rw [hu.mp.phase]) (hu.fail _) (.ite Iff.rfl (hu.fail _) ?_)
  exact (hu.withFc (by rw [Fc.installKey_keyed, Fc.installKey_keyed])).finish

theorem execFcRmkey_sameEvents : SameEvents (execFcRmkey s) (execFcRmkey s') := by
  refine State.SameControl.sameEvents (.ite (by rw [h.mp.phase]) (h.fail _) ?_)
  exact (h.withFc rfl).respond _ _

theorem execFcHaskey_sameEvents : SameEvents (execFcHaskey s) (execFcHaskey s') := by
  rw [execFcHaskey, execFcHaskey, h.fcKeyed]
  exact (h.respond _ _).sameEvents

/-- A block command puts out a block when keyed, whatever the schedule and the block (R160, R161). -/
theorem blockCommand_sameControl (ks ks' : List (BitVec 48)) : (s.blockCommand ks).SameControl (s'.blockCommand ks') := by
  cases hkey : s.fc.keyed with
  | true =>
    rw [State.blockCommand_keyed ks hkey, State.blockCommand_keyed ks' (h.fcKeyed ▸ hkey)]
    exact ((h.withFc (by exact h.fcKeyed)).out (by simp)).finish
  | false =>
    rw [State.blockCommand_keyless ks hkey, State.blockCommand_keyless ks' (h.fcKeyed ▸ hkey)]
    exact h.fail _

/-! ### The commands of unit MP -/

theorem execMpSetiv_sameEvents : SameEvents (execMpSetiv s) (execMpSetiv s') := by
  refine State.SameControl.sameEvents (h.withPayload _ fun hu _ => ?_)
  exact (hu.withMp (hu.mp.withIv _ _ true)).finish

theorem execMpRmiv_sameEvents : SameEvents (execMpRmiv s) (execMpRmiv s') := by
  refine State.SameControl.sameEvents ?_
  exact (h.withMp (h.mp.withIv _ _ false)).respond _ _

theorem execMpStart_sameEvents (mode : Mode) (dir : Dir) (pad : Pad) :
    SameEvents (execMpStart mode dir pad s) (execMpStart mode dir pad s') := by
  refine State.SameControl.sameEvents (.ite (by rw [h.mp.phase]) (h.fail _) (.ite (by rw [h.fcKeyed]) (h.fail _)
    (.ite (by rw [h.mp.ivValid]) (h.fail _) ?_)))
  exact (h.withMp (h.mp.begin mode dir pad)).respond _ _

theorem execMpData_sameEvents (len : BitVec 16) : SameEvents (execMpData len s) (execMpData len s') := by
  refine State.SameControl.sameEvents (h.withPayload _ fun {u u'} hu hrx => .ite (by rw [hu.mp.phase]) (hu.fail _) ?_)
  obtain ⟨hout, hmp⟩ := hu.mp.feed u.fc u'.fc hrx
  exact ((hu.withMp hmp).out hout).finish

/-- The end of a stream whose bytes out are as many in both states (R208). -/
theorem clearMp_out_sameControl {b b' : List Byte} (hb : b.length = b'.length) :
    (({ s with mp := s.mp.clear } : State).out b |>.respond .ok 0).SameControl
      (({ s' with mp := s'.mp.clear } : State).out b' |>.respond .ok 0) :=
  ((h.withMp h.mp.clear).out hb).respond _ _

/-- Under `ZERO` the end of a decrypt stream looks at no data: no filler is checked or removed (R182, R210). -/
theorem mpEndDecrypt_sameControl (hpad : s.mp.pad = .zero) : s.mpEndDecrypt.SameControl s'.mpEndDecrypt := by
  have hend : s.mp.endDecrypt s.fc = some (s.mp.flushPrev s.fc).1 := by rw [Mp.endDecrypt, hpad]; rfl
  have hend' : s'.mp.endDecrypt s'.fc = some (s'.mp.flushPrev s'.fc).1 := by rw [Mp.endDecrypt, ← h.mp.pad, hpad]; rfl
  rw [State.mpEndDecrypt, State.mpEndDecrypt, hend, hend']
  refine .ite (by rw [h.mp.fill]) ?_ (clearMp_out_sameControl h (h.mp.flushPrev_length s.fc s'.fc))
  exact (h.withMp h.mp.clear).fail _

/-- The stream ends alike in every mode and direction, but under `LEN` in an ECB or CBC decryption (R351). -/
theorem execMpEnd_sameEvents (hi : dataDependentEnd .mpEnd s = false) : SameEvents (execMpEnd s) (execMpEnd s') := by
  by_cases hrun : s.mp.phase = .run
  case neg =>
    rw [execMpEnd, execMpEnd, if_pos hrun, if_pos (h.mp.phase ▸ hrun)]
    exact (h.fail _).sameEvents
  have hrun' : s'.mp.phase = .run := h.mp.phase ▸ hrun
  by_cases hmode : s.mp.mode = .ctr
  · rw [execMpEnd_of_ctr hrun hmode, execMpEnd_of_ctr hrun' (h.mp.mode ▸ hmode)]
    exact (clearMp_out_sameControl h (h.mp.endCtr_length s.fc s'.fc)).sameEvents
  have hmode' : s'.mp.mode ≠ .ctr := h.mp.mode ▸ hmode
  cases hdir : s.mp.dir with
  | encrypt =>
    rw [execMpEnd_of_encrypt hrun hmode hdir, execMpEnd_of_encrypt hrun' hmode' (h.mp.dir ▸ hdir)]
    exact (clearMp_out_sameControl h (h.mp.endEncrypt_length s.fc s'.fc)).sameEvents
  | decrypt =>
    have hpad : s.mp.pad = .zero := by
      cases hp : s.mp.pad with
      | zero => rfl
      | len => simp [dataDependentEnd, hrun, hmode, hdir, hp] at hi
    rw [execMpEnd_of_decrypt hrun hmode hdir, execMpEnd_of_decrypt hrun' hmode' (h.mp.dir ▸ hdir)]
    exact (mpEndDecrypt_sameControl h hpad).sameEvents

/-! ### The commands of unit SB -/

theorem execSbStart_sameEvents (n : BitVec 8) : SameEvents (execSbStart n s) (execSbStart n s') := by
  refine State.SameControl.sameEvents ?_
  split
  · next hn =>
    refine .ite (by rw [h.sb.phase]) (h.fail _) ?_
    exact (h.withSb (s.sb.sameControl_begin s'.sb hn .run)).respond _ _
  · exact h.fail _

theorem execSbData_sameEvents (len : BitVec 16) : SameEvents (execSbData len s) (execSbData len s') := by
  refine State.SameControl.sameEvents (h.withPayload _ fun hu hrx => .ite (by rw [hu.sb.phase]) (hu.fail _) ?_)
  obtain ⟨hout, hsb⟩ := hu.sb.feed hrx
  exact ((hu.withSb hsb).out hout).finish

theorem execSbEnd_sameEvents : SameEvents (execSbEnd s) (execSbEnd s') := by
  have hclear := h.withSb h.sb.clear
  refine State.SameControl.sameEvents (.ite (by rw [h.sb.phase]) (h.fail _) (.ite (by rw [h.sb.cnt, h.sb.n]) ?_ ?_))
  · exact hclear.fail _
  · exact (hclear.sfxOut h.sb.suffix_length).respond _ _

/-! ### The commands of unit MC -/

/-- Whether a key is hashed first shows on no port (R252). -/
theorem macSetkey_sameControl (H : Hasher) (len : Nat) : (s.macSetkey H len).SameControl (s'.macSetkey H len) := by
  unfold State.macSetkey
  dsimp only
  rw [State.macHashKey_snd, State.macHashKey_snd]
  refine .ite (by rw [h.mc.phase]) (h.fail _) (.ite Iff.rfl (h.fail _) ?_)
  exact ((h.withHAcc _ _).withMc (h.mc.installKey _ _)).finish

theorem execMcRmkey_sameEvents : SameEvents (execMcRmkey s) (execMcRmkey s') := by
  refine State.SameControl.sameEvents (.ite (by rw [h.mc.phase]) (h.fail _) ?_)
  exact (h.withMc h.mc.removeKey).respond _ _

theorem execMcHaskey_sameEvents : SameEvents (execMcHaskey s) (execMcHaskey s') := by
  rw [execMcHaskey, execMcHaskey, h.mc.keyed]
  exact (h.respond _ _).sameEvents

theorem macStart_sameControl (H : Hasher) (path : Path) (quiet : Bool) :
    (s.macStart H path quiet).SameControl (s'.macStart H path quiet) := by
  unfold State.macStart
  refine .ite (by rw [h.mc.phase]) (h.fail _) (.ite (by rw [h.sb.phase]) (h.fail _)
    (.ite (by rw [h.mc.keyed]) (h.fail _) ?_))
  cases path with
  | tag => exact ((h.withHAcc _ _).withMc (h.mc.begin .tag quiet .tag)).respond _ _
  | check =>
    have hsb := s.sb.sameControl_begin s'.sb H.hd_le .owned
    exact (((h.withHAcc _ _).withSb hsb).withMc (h.mc.begin .check quiet .chk)).respond _ _

/-- Chunks of one length release as many bytes (R257). -/
theorem mcFeed_sameControl {l l' : List Byte} (hl : l.length = l'.length) : (s.mcFeed l).SameControl (s'.mcFeed l') := by
  obtain ⟨hbody, hsb⟩ := h.sb.classify s.mc.phase hl
  rw [State.mcFeed_eq, State.mcFeed_eq, ← h.mc.phase]
  exact ((h.withSb hsb).withHAcc _ _).out (h.mc.forwarded_length hbody)

theorem execMcData_sameEvents (len : BitVec 16) : SameEvents (execMcData len s) (execMcData len s') := by
  refine State.SameControl.sameEvents (h.withPayload _ fun hu hrx => .ite (by rw [hu.mc.phase]) (hu.fail _) ?_)
  exact (mcFeed_sameControl hu hrx).finish

/-- The tag has `Hd` bytes whatever was hashed; a check is the end that looks at data (R351). -/
theorem execMcEnd_sameEvents (hi : dataDependentEnd .mcEnd s = false) : SameEvents (execMcEnd s) (execMcEnd s') := by
  cases hphase : s.mc.phase with
  | idle =>
    rw [execMcEnd, execMcEnd, State.macEnd, State.macEnd, ← h.mc.phase, hphase]
    exact (h.fail _).sameEvents
  | tag =>
    rw [execMcEnd_of_tag hphase, execMcEnd_of_tag (h.mc.phase ▸ hphase)]
    have hlen : s.macTag.length = s'.macTag.length := by rw [State.macTag_length, State.macTag_length]
    have hend := (((h.withMc h.mc.clear).withHAcc [] []).out hlen).respond .ok 0
    exact hend.sameEvents
  | chk => simp [dataDependentEnd, hphase] at hi

/-! ### Every command -/

/-- A command that is no documented exception ends with one control part in both states: one lemma per command. -/
theorem exec_sameEvents (i : Instr) (hi : dataDependentEnd i s = false) : SameEvents (exec i s) (exec i s') := by
  cases i with
  | nop => exact (h.answer _ _).sameEvents
  | rdsr idx => exact (readStatus_sameControl h _ idx).sameEvents
  | abort u => exact execAbort_sameEvents h u
  | fcSetkey len => exact execFcSetkey_sameEvents h len
  | fcRmkey => exact execFcRmkey_sameEvents h
  | fcHaskey => exact execFcHaskey_sameEvents h
  | fcEncblk | fcDecblk => exact (h.withPayload _ fun hu _ => blockCommand_sameControl hu _ _).sameEvents
  | mpSetiv => exact execMpSetiv_sameEvents h
  | mpRmiv => exact execMpRmiv_sameEvents h
  | mpStart mode dir pad => exact execMpStart_sameEvents h mode dir pad
  | mpData len => exact execMpData_sameEvents h len
  | mpEnd => exact execMpEnd_sameEvents h hi
  | sbStart n => exact execSbStart_sameEvents h n
  | sbData len => exact execSbData_sameEvents h len
  | sbEnd => exact execSbEnd_sameEvents h
  | mcSetkey len => exact (h.withPayload _ fun hu _ => macSetkey_sameControl hu _ _).sameEvents
  | mcRmkey => exact execMcRmkey_sameEvents h
  | mcHaskey => exact execMcHaskey_sameEvents h
  | mcStart path quiet => exact (macStart_sameControl h _ path quiet).sameEvents
  | mcData len => exact execMcData_sameEvents h len
  | mcEnd => exact execMcEnd_sameEvents h hi

end

end Sys2Proof.Machine

namespace Sys2Proof

open Machine

/-- Settles O58: having one control part is kept by every command but the two documented ends. -/
theorem portEventsAreDataIndependent : Obligations.PortEventsAreDataIndependent := by
  intro i s s' hshape hi
  obtain ⟨t, t', ht, ht', hsame⟩ := exec_sameEvents (shape_eq_iff.mp hshape) i hi
  exact ⟨t, t', ht, ht', shape_eq_iff.mpr hsame⟩

end Sys2Proof
end

section
/-! The command words read and written: the decoder undoes the encoder, and a word that decodes to a command is that command's
own word (30_encoding.md R90 to R104). A step runs the command that its word spells, or waits for its payload. -/

namespace Sys2Proof

open Machine

/-! ### From the command to its word and back -/

theorem decode_encode_rdsr {idx : BitVec 8} (hidx : idx.toNat ≤ 5) : decode (encode (.rdsr idx)) = .ok (.rdsr idx) := by
  obtain ⟨hunit, hop, harg, hlen⟩ := Laws.EncodeFields.rdsr idx
  unfold decode
  rw [hunit, hop, harg, hlen]
  simp [Instr.unit, Instr.op, Instr.arg, Instr.len, accept, hidx]

theorem decode_encode_abort (u : AbortUnit) : decode (encode (.abort u)) = .ok (.abort u) := by
  cases u <;> rfl

theorem decode_encode_fcSetkey (len : BitVec 16) : decode (encode (.fcSetkey len)) = .ok (.fcSetkey len) := by
  obtain ⟨hunit, hop, harg, hlen⟩ := Laws.EncodeFields.fcSetkey len
  unfold decode
  rw [hunit, hop, harg, hlen]
  rfl

theorem decode_encode_mcSetkey (len : BitVec 16) : decode (encode (.mcSetkey len)) = .ok (.mcSetkey len) := by
  obtain ⟨hunit, hop, harg, hlen⟩ := Laws.EncodeFields.mcSetkey len
  unfold decode
  rw [hunit, hop, harg, hlen]
  rfl

/-- Settles O1, command by command. -/
theorem decodeEncodeRoundTrip : Obligations.DecodeEncodeRoundTrip := by
  intro i hwf
  cases i with
  | nop | fcRmkey | fcHaskey | fcEncblk | fcDecblk | mpSetiv | mpRmiv | mpEnd | sbEnd | mcRmkey | mcHaskey | mcEnd => rfl
  | rdsr idx => exact decode_encode_rdsr (of_decide_eq_true hwf)
  | abort u => exact decode_encode_abort u
  | fcSetkey len => exact decode_encode_fcSetkey len
  | mpStart mode dir pad => exact decode_encode_mpStart mode dir pad
  | mpData len => exact decode_encode_mpData len
  | sbStart n => exact decode_encode_sbStart (of_decide_eq_true hwf)
  | sbData len => exact decode_encode_sbData len
  | mcSetkey len => exact decode_encode_mcSetkey len
  | mcStart path quiet => exact decode_encode_mcStart path quiet
  | mcData len => exact decode_encode_mcData len

/-! ### From the word to its command and back -/

/-- A word is its four fields one after the other (R90). -/
theorem commandWord_fields (w : Word) : commandWord (unitField w) (opField w) (argField w) (lenField w) = w := by
  unfold commandWord unitField opField argField lenField
  rw [BitVec.append_assoc, BitVec.append_assoc]
  rw [BitVec.extractLsb'_append_extractLsb'_eq_extractLsb' (show 16 = 0 + 16 from rfl),
    BitVec.extractLsb'_append_extractLsb'_eq_extractLsb' (show 24 = 0 + 24 from rfl),
    BitVec.extractLsb'_append_extractLsb'_eq_extractLsb' (show 28 = 0 + 28 from rfl)]
  exact BitVec.extractLsb'_eq_self

/-- The word spells the command: the command is well formed and its four fields are the word's. -/
structure Spells (w : Word) (i : Instr) : Prop where
  wellFormed : i.wellFormed = true
  unit : i.unit = unitField w
  op : i.op = opField w
  arg : i.arg = argField w
  len : i.len = lenField w

/-- Such a word is the command's only one (R90). -/
theorem Spells.encode_eq {w : Word} {i : Instr} (h : Spells w i) : encode i = w := by
  rw [encode, h.unit, h.op, h.arg, h.len, commandWord_fields]

/-- The decoder's answer is a command that the word spells, or a refusal. -/
def ReadsWord (w : Word) (r : Except DecodeError Instr) : Prop := ∀ i, r = .ok i → Spells w i

theorem readsWord_error (w : Word) (e : DecodeError) : ReadsWord w (.error e) := nofun

/-- A row of the table reads the word when its command has the word's `unit` and `op`, and its `arg` and `len` by the
constraints that it tests (R91). -/
theorem readsWord_accept {w : Word} {i : Instr} {argOk lenOk : Bool} (hunit : (unitField w).toNat = i.unit.toNat)
    (hop : (opField w).toNat = i.op.toNat) (harg : argOk = true → i.arg = argField w ∧ i.wellFormed = true)
    (hlen : lenOk = true → i.len = lenField w) : ReadsWord w (accept argOk lenOk i) := by
  cases argOk with
  | false => exact readsWord_error w _
  | true =>
    cases lenOk with
    | false => exact readsWord_error w _
    | true =>
      intro j hj
      obtain rfl : i = j := Except.ok.inj hj
      obtain ⟨harg, hwf⟩ := harg rfl
      exact ⟨hwf, BitVec.eq_of_toNat_eq hunit.symm, BitVec.eq_of_toNat_eq hop.symm, harg, hlen rfl⟩

section
variable {w : Word} {i : Instr} (hunit : (unitField w).toNat = i.unit.toNat) (hop : (opField w).toNat = i.op.toNat)
  (hwf : i.wellFormed = true)
include hunit hop hwf

/-- A row without operands (R92, R93). -/
theorem readsWord_fixed (harg : i.arg = 0) {n : BitVec 16} (hlen : i.len = n) :
    ReadsWord w (accept (argField w == 0) (lenField w == n) i) :=
  readsWord_accept hunit hop (fun h => ⟨harg.trans (eq_of_beq h).symm, hwf⟩) fun h => hlen.trans (eq_of_beq h).symm

/-- A row whose only operand is the payload length (R92, R93). -/
theorem readsWord_payload (harg : i.arg = 0) (hlen : i.len = lenField w) :
    ReadsWord w (accept (argField w == 0) true i) :=
  readsWord_accept hunit hop (fun h => ⟨harg.trans (eq_of_beq h).symm, hwf⟩) fun _ => hlen

end

/-! ### The operands that are names -/

/-- A named unit of `ABORT` has the `arg` it was read from (R93). -/
theorem AbortUnit.toArg_of_ofArg {arg : BitVec 8} {u : AbortUnit} (h : AbortUnit.ofArg arg = some u) :
    u.toArg = arg := by
  revert arg u
  decide

/-- A mode has the bits it was read from (R93). -/
theorem Mode.toBits_of_ofBits {b : BitVec 2} {mode : Mode} (h : Mode.ofBits b = some mode) : mode.toBits = b := by
  revert b mode
  decide

@[simp] theorem Dir.toBit_ofBit (b : Bool) : (Dir.ofBit b).toBit = b := by cases b <;> rfl
@[simp] theorem Pad.toBit_ofBit (b : Bool) : (Pad.ofBit b).toBit = b := by cases b <;> rfl
@[simp] theorem Path.toBit_ofBit (b : Bool) : (Path.ofBit b).toBit = b := by cases b <;> rfl

/-- The `arg` of `MP.START` is its reserved bits, scheme, direction and mode (R93). -/
theorem mpStart_arg (arg : BitVec 8) :
    arg.extractLsb' 4 4 ++ BitVec.ofBool (arg.getLsbD 3) ++ BitVec.ofBool (arg.getLsbD 2) ++ arg.extractLsb' 0 2 = arg := by
  revert arg
  decide

/-- The `arg` of `MC.START` is its reserved bits, the quiet bit and the path (R93). -/
theorem mcStart_arg (arg : BitVec 8) :
    arg.extractLsb' 2 6 ++ BitVec.ofBool (arg.getLsbD 1) ++ BitVec.ofBool (arg.getLsbD 0) = arg := by
  revert arg
  decide

/-! ### Reading unit by unit -/

section
variable {w : Word}

/-- The row of `ABORT` (R93). -/
theorem readsWord_decodeAbort (hu : (unitField w).toNat = 0) (ho : (opField w).toNat = 2) :
    ReadsWord w (decodeAbort (argField w) (lenField w)) := by
  unfold decodeAbort
  cases harg : AbortUnit.ofArg (argField w) with
  | none => exact readsWord_error w _
  | some u => exact readsWord_accept hu ho (fun _ => ⟨AbortUnit.toArg_of_ofArg harg, rfl⟩) fun h => (eq_of_beq h).symm

/-- The row of `MP.START` (R93). -/
theorem readsWord_decodeMpStart (hu : (unitField w).toNat = 2) (ho : (opField w).toNat = 2) :
    ReadsWord w (decodeMpStart (argField w) (lenField w)) := by
  unfold decodeMpStart
  cases hmode : Mode.ofBits ((argField w).extractLsb' 0 2) with
  | none => exact readsWord_error w _
  | some mode =>
    refine readsWord_accept hu ho (fun h => ⟨?_, rfl⟩) fun h => (eq_of_beq h).symm
    have hhigh : (argField w).extractLsb' 4 4 = 0 := eq_of_beq h
    have harg := mpStart_arg (argField w)
    rw [hhigh, ← Mode.toBits_of_ofBits hmode] at harg
    simpa only [Instr.arg, Pad.toBit_ofBit, Dir.toBit_ofBit] using harg

/-- The row of `MC.START` (R93). -/
theorem readsWord_mcStart (hu : (unitField w).toNat = 4) (ho : (opField w).toNat = 3) :
    ReadsWord w (accept ((argField w).extractLsb' 2 6 == 0) (lenField w == 0)
      (.mcStart (Path.ofBit ((argField w).getLsbD 0)) ((argField w).getLsbD 1))) := by
  refine readsWord_accept hu ho (fun h => ⟨?_, rfl⟩) fun h => (eq_of_beq h).symm
  have hhigh : (argField w).extractLsb' 2 6 = 0 := eq_of_beq h
  have harg := mcStart_arg (argField w)
  rw [hhigh] at harg
  simpa only [Instr.arg, Path.toBit_ofBit] using harg

/-- Unit SYS (R94). -/
theorem readsWord_unit_sys (hu : (unitField w).toNat = 0) : ReadsWord w (decode w) := by
  unfold decode
  rw [hu]
  match ho : (opField w).toNat with
  | 0 => exact readsWord_fixed hu ho rfl rfl rfl
  | 1 => exact readsWord_accept hu ho (fun h => ⟨rfl, h⟩) fun h => (eq_of_beq h).symm
  | 2 => exact readsWord_decodeAbort hu ho
  | _ + 3 => exact readsWord_error w _

/-- Unit FC (R94). -/
theorem readsWord_unit_fc (hu : (unitField w).toNat = 1) : ReadsWord w (decode w) := by
  unfold decode
  rw [hu]
  match ho : (opField w).toNat with
  | 0 => exact readsWord_payload hu ho rfl rfl rfl
  | 1 | 2 | 3 | 4 => exact readsWord_fixed hu ho rfl rfl rfl
  | _ + 5 => exact readsWord_error w _

/-- Unit MP (R94). -/
theorem readsWord_unit_mp (hu : (unitField w).toNat = 2) : ReadsWord w (decode w) := by
  unfold decode
  rw [hu]
  match ho : (opField w).toNat with
  | 0 | 1 | 4 => exact readsWord_fixed hu ho rfl rfl rfl
  | 2 => exact readsWord_decodeMpStart hu ho
  | 3 => exact readsWord_payload hu ho rfl rfl rfl
  | _ + 5 => exact readsWord_error w _

/-- Unit SB (R94). -/
theorem readsWord_unit_sb (hu : (unitField w).toNat = 3) : ReadsWord w (decode w) := by
  unfold decode
  rw [hu]
  match ho : (opField w).toNat with
  | 0 => exact readsWord_accept hu ho (fun h => ⟨rfl, h⟩) fun h => (eq_of_beq h).symm
  | 1 => exact readsWord_payload hu ho rfl rfl rfl
  | 2 => exact readsWord_fixed hu ho rfl rfl rfl
  | _ + 3 => exact readsWord_error w _

/-- Unit MC (R94). -/
theorem readsWord_unit_mc (hu : (unitField w).toNat = 4) : ReadsWord w (decode w) := by
  unfold decode
  rw [hu]
  match ho : (opField w).toNat with
  | 0 | 4 => exact readsWord_payload hu ho rfl rfl rfl
  | 1 | 2 | 5 => exact readsWord_fixed hu ho rfl rfl rfl
  | 3 => exact readsWord_mcStart hu ho
  | _ + 6 => exact readsWord_error w _

end

/-- A word that decodes to a command spells it: one lemma per unit. -/
theorem spells_of_decode {w : Word} {i : Instr} (h : decode w = .ok i) : Spells w i := by
  have hread : ReadsWord w (decode w) := by
    match hu : (unitField w).toNat with
    | 0 => exact readsWord_unit_sys hu
    | 1 => exact readsWord_unit_fc hu
    | 2 => exact readsWord_unit_mp hu
    | 3 => exact readsWord_unit_sb hu
    | 4 => exact readsWord_unit_mc hu
    | n + 5 =>
      rw [decode_of_unit_ge (by omega)]
      exact readsWord_error w _
  exact hread i h

/-- Settles O2: the word spells the command, so it is the command's word. -/
theorem encodeDecodeRoundTrip : Obligations.EncodeDecodeRoundTrip := fun _ _ h =>
  ⟨(spells_of_decode h).wellFormed, (spells_of_decode h).encode_eq⟩

/-- Settles O4, word by word. -/
theorem writtenOutWordsDecode : Obligations.WrittenOutWordsDecode :=
  ⟨rfl, rfl, rfl, rfl, rfl, rfl, rfl, rfl, rfl, rfl, rfl⟩

/-! ### The step of a command word -/

/-- With no reset asserted a step runs the command at the head of CMD (R342). -/
theorem step_of_decoded {s : State} {w : Word} {rest : List Word} {i : Instr} (hr : s.rstReq = false)
    (hc : s.cmd = w :: rest) (hd : decode w = .ok i) : step s = exec i s := by
  simp [step, hr, hc, hd]

/-- A command whose payload is not all on DIN waits (R350(c)). -/
theorem exec_of_short {i : Instr} {s : State} (h : s.din.length < i.len.toNat) : exec i s = .next s := by
  cases i with
  | fcSetkey | fcEncblk | fcDecblk | mpSetiv | mpData | sbData | mcSetkey | mcData =>
    exact congrArg Host.Outcome.next (State.withPayload_of_lt _ h)
  | _ => exact absurd h (Nat.not_lt_zero _)

/-- Settles O5: it is the step of a command word. -/
theorem stepRunsDecodedCommand : Obligations.StepRunsDecodedCommand := fun _ _ _ _ => step_of_decoded

/-- Settles O7: a command and a reserved word alike wait for the payload that the word announces. -/
theorem coreWaitsForInput : Obligations.CoreWaitsForInput := by
  refine ⟨fun s hr hc => by simp [step, hr, hc], fun s w rest hr hc hshort => ?_⟩
  cases hd : decode w with
  | ok i =>
    rw [← (spells_of_decode hd).len] at hshort
    rw [step_of_decoded hr hc hd, exec_of_short hshort]
  | error e => rw [step_of_reserved hr hc hd, execReserved, State.withPayload_of_lt _ hshort]

end Sys2Proof
end

section
/-! The key schedule of unit FC round by round: after any number of rounds the halves are those of the key rotated by the
amounts so far, and each round key stored is their compression (41_feistel.md R147, R150). What the schedule reads of the key
is what `PC1` reads. -/

namespace Sys2Proof.Machine

open Claims

/-! ### The rounds of the schedule -/

/-- The sum of the rotation amounts of the first `n` rounds (R147). -/
def rotationsBefore (n : Nat) : Nat := (tableROT.toList.take n).sum

theorem rotationsBefore_succ {n : Nat} (hn : n < 16) : rotationsBefore (n + 1) = rotationsBefore n + tableROT[n] := by
  have hlen : n < tableROT.toList.length := by simpa using hn
  rw [rotationsBefore, List.sum_take_succ _ _ hlen, Vector.getElem_toList]
  rfl

/-- Round key `r` from the two halves of the key (R150). -/
def roundKey (c d : BitVec 28) (r : Nat) : BitVec 48 :=
  permute (rotl c (rotationsBefore (r + 1)) ++ rotl d (rotationsBefore (r + 1)) : BitVec 56) tablePC2

/-- Unit FC after `n` rounds of the schedule, begun in `u`: the halves rotated, the first `n` round keys stored, the rest as it
was (R150). -/
structure Fc.Scheduled (u v : Fc) (n : Nat) : Prop where
  c : v.c = rotl u.c (rotationsBefore n)
  d : v.d = rotl u.d (rotationsBefore n)
  rk : ∀ r : Fin 16, r.val < n → v.rk[r.val] = roundKey u.c u.d r.val

/-- Before the first round nothing is rotated and nothing stored. -/
theorem Fc.scheduled_zero (u : Fc) : u.Scheduled u 0 where
  c := (rotl_of_dvd u.c (Nat.dvd_zero 28)).symm
  d := (rotl_of_dvd u.d (Nat.dvd_zero 28)).symm
  rk := nofun

/-- One round more (R150). -/
theorem Fc.Scheduled.round {u v : Fc} {n : Fin 16} (h : u.Scheduled v n.val) :
    u.Scheduled (v.scheduleRound n) (n.val + 1) := by
  have hc : rotl v.c tableROT[n.val] = rotl u.c (rotationsBefore (n.val + 1)) := by
    rw [h.c, rotl_rotl, rotationsBefore_succ n.isLt]
  have hd : rotl v.d tableROT[n.val] = rotl u.d (rotationsBefore (n.val + 1)) := by
    rw [h.d, rotl_rotl, rotationsBefore_succ n.isLt]
  refine ⟨hc, hd, fun r hr => ?_⟩
  simp only [Fc.scheduleRound, Vector.getElem_set, hc, hd]
  by_cases hlast : n.val = r.val
  · rw [if_pos hlast, ← hlast, roundKey]
  · rw [if_neg hlast]
    exact h.rk r (by omega)

/-- All the rounds (R150). -/
theorem Fc.scheduled_all (u : Fc) : u.Scheduled ((List.finRange 16).foldl Fc.scheduleRound u) 16 := by
  have hrounds (n : Nat) (hn : n ≤ 16) : u.Scheduled (((List.finRange 16).take n).foldl Fc.scheduleRound u) n := by
    induction n with
    | zero => exact u.scheduled_zero
    | succ n ih =>
      have hlen : n < (List.finRange 16).length := by simpa using hn
      rw [List.take_succ_eq_append_getElem hlen, List.foldl_append]
      simpa using (ih (by omega)).round (n := ⟨n, by omega⟩)
  have hall := hrounds 16 le_rfl
  rwa [List.take_of_length_le (by simp)] at hall

/-- An installed key has the round keys of the two halves that `PC1` makes of it (R150). -/
theorem Fc.installKey_rk (u : Fc) (key : Block) (r : Fin 16) :
    (u.installKey key).rk[r.val] =
      roundKey ((permute (n := 64) (bits key) tablePC1).extractLsb' 28 28)
        ((permute (n := 64) (bits key) tablePC1).extractLsb' 0 28) r.val :=
  (Fc.scheduled_all _).rk r r.isLt

/-- Besides the round keys the installation writes the halves, which it leaves zero, and the unit is keyed (R150). -/
theorem Fc.installKey_eq (u : Fc) (key : Block) :
    u.installKey key = { u with keyed := true, rk := (u.installKey key).rk, c := 0, d := 0 } := by
  obtain ⟨hl, hr⟩ := u.installKey_keeps key
  have heta (v : Fc) : v = Fc.mk v.keyed v.rk v.c v.d v.l v.r := rfl
  refine (heta _).trans ?_
  rw [Fc.installKey_keyed, Fc.installKey_c, Fc.installKey_d, hl, hr]

/-! ### What `PC1` reads -/

/-- `PC1` reads the last bit of no byte (R141). -/
theorem tablePC1_avoids_parity (j : Fin 56) : (tablePC1[j.val]).val % 8 ≠ 7 := by
  revert j
  decide

/-- Two bytes that agree above their last bit agree bit by bit there. -/
theorem getLsbD_succ_of_ushiftRight {x y : Byte} (h : x >>> 1 = y >>> 1) (k : Nat) :
    x.getLsbD (k + 1) = y.getLsbD (k + 1) := by
  have hbit := congrArg (·.getLsbD k) h
  simpa [Nat.add_comm] using hbit

/-- So two keys that agree but for the last bits of their bytes are one key to `PC1` (R150 (a)). -/
theorem permute_bits_PC1_congr {key key' : Block} (h : ∀ k : Fin 8, key[k.val] >>> 1 = key'[k.val] >>> 1) :
    permute (n := 64) (bits key) tablePC1 = permute (n := 64) (bits key') tablePC1 := by
  refine eq_of_getMsbD fun j hj => ?_
  have hread := tablePC1_avoids_parity ⟨j, hj⟩
  obtain ⟨i, hi⟩ : ∃ i, i = tablePC1[j] := ⟨_, rfl⟩
  rw [getMsbD_permute _ _ _ hj, getMsbD_permute _ _ _ hj, ← hi, getMsbD_bits key i, getMsbD_bits key' i, bit, bit]
  have hpos : 7 - i.val % 8 = 6 - i.val % 8 + 1 := by
    have hne : i.val % 8 ≠ 7 := hi ▸ hread
    omega
  rw [hpos]
  exact getLsbD_succ_of_ushiftRight (h ⟨i.val / 8, by omega⟩) _

/-- The schedule reads the key through `PC1` alone (R150). -/
theorem Fc.installKey_congr (u : Fc) {key key' : Block}
    (h : permute (n := 64) (bits key) tablePC1 = permute (n := 64) (bits key') tablePC1) :
    u.installKey key = u.installKey key' := by
  simp only [Fc.installKey, Fc.loadKey, h]

/-! ### The command -/

section
variable {s : State} (hrun : s.mp.phase ≠ .run)
include hrun

/-- With no stream running `FC.SETKEY` installs a key of 8 bytes (R150). -/
theorem execFcSetkey_of_key (hn : 8 ≤ s.din.length) :
    execFcSetkey 8 s = .next { ended s 8 .ok 0 with fc := s.fc.installKey (blockPayload s) } := by
  have hpayload : (8 : BitVec 16).toNat ≤ s.din.length := hn
  have htaken : ¬(s.taken (8 : BitVec 16).toNat).mp.phase = .run := hrun
  have hlen : ¬(8 : BitVec 16).toNat ∉ Config.fcKeyLens := by decide
  rw [execFcSetkey, State.withPayload_taken s _ hpayload, if_neg hlen, if_neg htaken]
  rfl

/-- It refuses a key of any other length (R150, D12). -/
theorem execFcSetkey_of_length {len : BitVec 16} (hlen : len ≠ 8) (hn : len.toNat ≤ s.din.length) :
    execFcSetkey len s = .next (ended s len.toNat .invalidKeyLength 2) := by
  have htaken : ¬(s.taken len.toNat).mp.phase = .run := hrun
  have hnot : len.toNat ∉ Config.fcKeyLens := fun hmem =>
    hlen (BitVec.eq_of_toNat_eq (List.mem_singleton.mp hmem))
  rw [execFcSetkey, State.withPayload_taken s _ hn, if_pos hnot, if_neg htaken, State.fail_taken]
  rfl

end

end Sys2Proof.Machine

namespace Sys2Proof

open Machine

/-- Settles O15: the installed unit with the round keys of the schedule, and the refusal of other lengths. -/
theorem setkeyInstallsTheSchedule : Obligations.SetkeyInstallsTheSchedule := by
  refine ⟨fun s hrun hn => ⟨(s.fc.installKey (Claims.blockPayload s)).rk, ?_, fun r => ?_⟩,
    fun s len hrun hlen hn => execFcSetkey_of_length hrun hlen hn⟩
  · rw [← Fc.installKey_eq]
    exact execFcSetkey_of_key hrun hn
  · exact Fc.installKey_rk s.fc _ r

/-- Settles O21: the keys agree at every bit that `PC1` reads. -/
theorem parityBitsAreNeverRead : Obligations.ParityBitsAreNeverRead := fun u _ _ h =>
  u.installKey_congr (permute_bits_PC1_congr h)

end Sys2Proof
end

section
/-! The last exits not yet written as one update of the whole state: the two commands that only answer, the refusals of
`SB.START`, and the installation of a MAC key (46_system.md R280, R281; 44_suffix.md R232; 45_mac.md R252). -/

namespace Sys2Proof.Machine

open Claims

/-! ### The commands that only answer -/

/-- The word that answers `OK` is its `aux` above 16 zero bits (R95). -/
theorem responseWord_ok (aux : BitVec 16) : responseWord .ok aux = aux ++ (0 : BitVec 16) := by
  rw [responseWord, BitVec.append_assoc]
  rfl

/-- `NOP` (R280). -/
theorem execNop_eq (s : State) : execNop s = .next { s with rsp := s.rsp ++ [0], cmd := s.cmd.tail } := rfl

/-- `RDSR` of a register (R281). -/
theorem execRdsr_of_some {s : State} {idx : BitVec 8} {v : BitVec 16}
    (hv : statusRegister Config.hasher s idx = some v) :
    execRdsr idx s = .next { s with rsp := s.rsp ++ [v ++ (0 : BitVec 16)], cmd := s.cmd.tail } := by
  rw [execRdsr, State.readStatus_of_some hv, ← responseWord_ok]
  rfl

/-- `RDSR` of an index that names none (R281). -/
theorem execRdsr_of_gt (s : State) {idx : BitVec 8} (hidx : 5 < idx.toNat) :
    execRdsr idx s = .next (ended s 0 .illegalCommand 8) := by
  rw [execRdsr, State.readStatus, statusRegister_of_gt _ s hidx]
  exact congrArg _ (s.fail_ended _)

/-! ### The refusals of `SB.START` -/

/-- A length above `NMAX` is refused in every phase (R102, R104). -/
theorem execSbStart_of_gt (s : State) {n : BitVec 8} (hn : 64 < n.toNat) :
    execSbStart n s = .next (ended s 0 .illegalCommand 8) := by
  rw [execSbStart, dif_neg (Nat.not_le.mpr hn), State.fail_ended]
  rfl

/-- A busy or owned unit refuses every length (R231). -/
theorem execSbStart_of_not_idle {s : State} (n : BitVec 8) (hidle : s.sb.phase ≠ .idle) :
    execSbStart n s = .next (ended s 0 .illegalCommand 8) := by
  rcases Nat.lt_or_ge 64 n.toNat with hgt | hle
  · exact execSbStart_of_gt s hgt
  · rw [execSbStart, dif_pos hle, if_pos hidle, State.fail_ended]
    rfl

/-! ### The installation of a MAC key -/

/-- The key, or its digest when it is longer than a block: what is extended to `k0` (R252). -/
def macKey (h : Hasher) (key : List Byte) : List Byte := if h.hb < key.length then h.digest key else key

/-- That is what `MC.SETKEY` extends (R252). -/
theorem State.macHashKey_fst (h : Hasher) (s : State) : (s.macHashKey h).1 = macKey h s.rxbuf := by
  unfold State.macHashKey macKey
  split <;> rfl

/-- It fits in a block (R252). -/
theorem macKey_length_le (h : Hasher) (key : List Byte) : (macKey h key).length ≤ h.hb := by
  unfold macKey
  split
  · rw [h.digest_length]
    exact h.hd_le_hb
  · omega

/-- `k0` has exactly a block's length (R252). -/
theorem macKeyBlock_macKey_length (h : Hasher) (key : List Byte) : (macKeyBlock h (macKey h key)).length = h.hb :=
  macKeyBlock_length h (macKey_length_le h key)

/-- Byte `k` of a key extended with zero bytes, within its block (R252). -/
theorem getElem_macKeyBlock (h : Hasher) (key : List Byte) {k : Nat} (hk : k < (macKeyBlock h key).length) :
    (macKeyBlock h key)[k] = key.getD k 0 := by
  simp only [macKeyBlock, rep, List.getElem_append, List.getElem_replicate]
  split
  · next hlt => simp [hlt]
  · next hge => simp [Nat.le_of_not_lt hge]

/-- A pad holds the bytes of its block, each xored with the pad constant (R252). -/
theorem getElem_pad_of_lt (v : Byte) {k0 : List Byte} (k : Fin 128) (hk : k.val < k0.length) :
    (fit 128 (xorEach v k0))[k.val] = k0[k.val] ^^^ v := by
  simp [xorEach, hk]

/-- Above them its storage is zero (log entry 9). -/
theorem getElem_pad_of_ge (v : Byte) {k0 : List Byte} (k : Fin 128) (hk : k0.length ≤ k.val) :
    (fit 128 (xorEach v k0))[k.val] = 0 := by
  simp [xorEach, hk]

section
variable {s : State} (len : BitVec 16) (hn : len.toNat ≤ s.din.length)
include hn

/-- On an idle unit a key of at least one byte is installed (R252). -/
theorem execMcSetkey_of_key (hidle : s.mc.phase = .idle) (hlen : len ≠ 0) :
    execMcSetkey len s = .next { ended s len.toNat .ok 0 with
      hAcc := if Config.hasher.hb < len.toNat then [] else s.hAcc
      mc := s.mc.installKey (macKeyBlock Config.hasher (macKey Config.hasher (payload s len.toNat))) } := by
  have htaken : ¬(s.taken len.toNat).mc.phase ≠ .idle := not_not_intro hidle
  have hpos : len.toNat ≠ 0 := fun h => hlen (BitVec.eq_of_toNat_eq h)
  have hlt := len.isLt
  have hlength : ¬(len.toNat < Config.mcKeyMin ∨ Config.mcKeyMax < len.toNat) := by
    simp only [Config.mcKeyMin, Config.mcKeyMax]
    omega
  have hrx : (s.taken len.toNat).rxbuf.length = len.toNat := List.length_take_of_le hn
  rw [execMcSetkey, State.withPayload_taken s _ hn, State.macSetkey, if_neg htaken, if_neg hlength]
  dsimp only
  rw [State.macHashKey_fst, State.macHashKey_snd, hrx]
  rfl

/-- An empty key is refused (R252). -/
theorem execMcSetkey_of_empty (hidle : s.mc.phase = .idle) (hlen : len = 0) :
    execMcSetkey len s = .next (ended s 0 .invalidKeyLength 2) := by
  have htaken : ¬(s.taken len.toNat).mc.phase ≠ .idle := not_not_intro hidle
  have hlength : len.toNat < Config.mcKeyMin ∨ Config.mcKeyMax < len.toNat := by
    rw [hlen]
    decide
  rw [execMcSetkey, State.withPayload_taken s _ hn, State.macSetkey, if_neg htaken, if_pos hlength, State.fail_taken, hlen]
  rfl

/-- During an operation every key is refused (R251). -/
theorem execMcSetkey_of_not_idle (hidle : s.mc.phase ≠ .idle) :
    execMcSetkey len s = .next (ended s len.toNat .illegalCommand 8) := by
  have htaken : (s.taken len.toNat).mc.phase ≠ .idle := hidle
  rw [execMcSetkey, State.withPayload_taken s _ hn, State.macSetkey, if_pos htaken, State.fail_taken]
  rfl

end

/-- The pads of an installed key, byte by byte below `Hb` and zero above (R252, log entry 9). -/
theorem installedPad_bytes (v : Byte) (key : List Byte) (k : Fin 128) :
    (k.val < Config.hasher.hb →
      (fit 128 (xorEach v (macKeyBlock Config.hasher (macKey Config.hasher key))))[k.val] = k0Byte key k.val ^^^ v) ∧
    (Config.hasher.hb ≤ k.val →
      (fit 128 (xorEach v (macKeyBlock Config.hasher (macKey Config.hasher key))))[k.val] = 0) := by
  have hlen := macKeyBlock_macKey_length Config.hasher key
  refine ⟨fun hlt => ?_, fun hge => getElem_pad_of_ge v k (hlen.trans_le hge)⟩
  rw [getElem_pad_of_lt v k (hlt.trans_eq hlen.symm), getElem_macKeyBlock]
  rfl

end Sys2Proof.Machine

namespace Sys2Proof

open Machine

/-- Settles O12: each answer, and the refusal of an index that names no register. -/
theorem nopAndRdsrOnlyAnswer : Obligations.NopAndRdsrOnlyAnswer := by
  refine fun s => ⟨execNop_eq s, fun idx hidx => ?_, fun idx hidx => execRdsr_of_gt s hidx⟩
  obtain ⟨v, hv⟩ := statusRegister_of_le Config.hasher s hidx
  exact ⟨v, hv, execRdsr_of_some hv⟩

/-- Settles O37: the start and the two refusals. -/
theorem sbStartBeginsAStream : Obligations.SbStartBeginsAStream := fun s n =>
  ⟨fun hn hidle => execSbStart_of_idle hn hidle, execSbStart_of_not_idle n, execSbStart_of_gt s⟩

/-- Settles O42: the installed key, its pads byte by byte, and the two refusals. -/
theorem mcSetkeyStoresThePads : Obligations.McSetkeyStoresThePads := by
  refine fun s len hn => ⟨fun hidle hlen => ⟨_, _, execMcSetkey_of_key len hn hidle hlen, fun k => ?_⟩,
    execMcSetkey_of_not_idle len hn, execMcSetkey_of_empty len hn⟩
  obtain ⟨hilow, hihigh⟩ := installedPad_bytes 0x36 (Claims.payload s len.toNat) k
  obtain ⟨holow, hohigh⟩ := installedPad_bytes 0x5c (Claims.payload s len.toNat) k
  exact ⟨fun hlt => ⟨hilow hlt, holow hlt⟩, fun hge => ⟨hihigh hge, hohigh hge⟩⟩

end Sys2Proof
end

section
/-! What the streams put out, as functions of their bytes: how much has been released in the middle, the blockwise
encryption, the keystream, the tag and the verdict (43_mode.md R203 to R211; 45_mac.md R250, R262). -/

namespace Sys2Proof.Machine

open Safety Claims

/-! ### The middle of a stream, counted -/

/-- Whole blocks and a short tail, counted. -/
theorem joinBlocks_append_length (xs : List Block) {t : List Byte} (ht : t.length ≤ 7) :
    (joinBlocks xs ++ t).length / 8 = xs.length ∧ (joinBlocks xs ++ t).length % 8 = t.length := by
  rw [List.length_append, joinBlocks_length]
  omega

/-- What a unit that has read `l` holds, and how much it has put out (R206). -/
theorem Mp.Gathered.counts {u : Fc} {m : Mp} {c : Block} {xs : List Block} {l o : List Byte}
    (h : m.Gathered u c xs l o) :
    m.fill.val = l.length % 8 ∧ (m.prevValid = true ↔ 1 ≤ l.length / 8) ∧ o.length = 8 * (l.length / 8 - 1) := by
  obtain ⟨hblocks, htail⟩ := joinBlocks_append_length xs m.tail_length_le
  rw [← h.input] at hblocks htail
  have hout := congrArg List.length h.output
  rw [List.length_append, Mp.flushPrev_length, joinBlocks_length, modeBlocks_length] at hout
  rw [hblocks, htail, Mp.tail_length]
  cases hheld : m.prevValid with
  | true =>
    rw [hheld, if_pos rfl] at hout
    have hpos : 1 ≤ xs.length := by omega
    exact ⟨rfl, iff_of_true rfl hpos, by omega⟩
  | false =>
    rw [hheld, h.held hheld] at hout
    rw [h.held hheld]
    exact ⟨rfl, iff_of_false nofun nofun, hout⟩

/-- `MP.START` and the chunks of a stream bring the unit to where it has read their concatenation (R200, R201). -/
theorem runSeq_mpStart_mpData {s : State} {mode : Mode} {cs : List (List Byte)} (h : Ready s) (hs : CanStart s mode)
    (hcs : Chunks cs) (dir : Dir) (pad : Pad) :
    ∃ t xs o, runSeq (⟨.mpStart mode dir pad, []⟩ :: cs.map fun c => ⟨.mpData (payloadLen c), c⟩) s = .next t ∧
      Advanced s t ((s.mp.begin mode dir pad).feed s.fc cs.flatten).2 o ∧
      t.mp.Gathered s.fc (s.mp.begin mode dir pad).chain xs cs.flatten o := by
  obtain ⟨t₀, hstart, hadv₀⟩ := issue_mpStart h hs dir pad
  obtain ⟨t, hdata, hadv⟩ := runSeq_mpData hadv₀.ready hcs
  rw [hadv₀.fc, hadv₀.mp, Mp.absorb_of_run _ rfl] at hadv
  obtain ⟨xs, hgath⟩ := (Mp.gathered_begin s.fc s.mp mode dir pad).feed cs.flatten
  have hadv' := hadv₀.trans hadv
  rw [← hadv'.mp] at hgath
  exact ⟨t, xs, _, (runSeq_cons hstart _).trans hdata, hadv', hgath⟩

/-! ### Blockwise encryption -/

/-- Whole blocks cut again (R68). -/
theorem blocksOf_joinBlocks (xs : List Block) : blocksOf xs.length (joinBlocks xs) = xs := by
  induction xs with
  | nil => rfl
  | cons x xs ih =>
    have hlen : x.toList.length = 8 := x.length_toList
    have hfit : fit 8 (x.toList ++ joinBlocks xs) = x := by
      ext k hk : 1
      simp [List.getElem?_append_left (hk.trans_eq hlen.symm), hk]
    rw [joinBlocks_cons, List.length_cons, blocksOf, hfit, List.drop_left' hlen, ih]

/-- The padded message of whole blocks and a short tail is these blocks and those the tail is padded to (R209). -/
theorem paddedMessage_joinBlocks (pad : Pad) (xs : List Block) {t : List Byte} (ht : t.length ≤ 7) :
    paddedMessage pad (joinBlocks xs ++ t) = joinBlocks (xs ++ padBlocks pad t) := by
  have hcut : 8 * ((joinBlocks xs ++ t).length / 8) = (joinBlocks xs).length := by
    rw [(joinBlocks_append_length xs ht).1, joinBlocks_length]
  rw [paddedMessage, hcut, List.take_left, List.drop_left, joinBlocks_append, joinBlocks_padBlocks pad ht]

/-- Cut into blocks, it is they. -/
theorem blocksOf_paddedMessage (pad : Pad) (xs : List Block) {t : List Byte} (ht : t.length ≤ 7) :
    blocksOf ((paddedMessage pad (joinBlocks xs ++ t)).length / 8) (paddedMessage pad (joinBlocks xs ++ t)) =
      xs ++ padBlocks pad t := by
  rw [paddedMessage_joinBlocks pad xs ht, joinBlocks_length, Nat.mul_div_cancel_left _ (by decide), blocksOf_joinBlocks]

section
variable (u : Fc) (c : Block) (xs : List Block)

/-- In ECB each block is enciphered by itself (R203). -/
theorem modeBlocks_ecb_encrypt : (modeBlocks u .ecb .encrypt c xs).1 = xs.map u.encrypt := by
  induction xs generalizing c with
  | nil => rfl
  | cons x xs ih => exact congrArg _ (ih _)

/-- In CBC each block is chained with the enciphered block before (R204). -/
theorem modeBlocks_cbc_encrypt : (modeBlocks u .cbc .encrypt c xs).1 = cbcBlocks u c xs := by
  induction xs generalizing c with
  | nil => rfl
  | cons x xs ih => exact congrArg _ (ih _)

end

/-- An ECB or CBC encrypt stream puts out the blocks of the padded message through the block function (R209). -/
theorem encryptStream_blocks {s : State} {mode : Mode} {cs : List (List Byte)} (h : Ready s) (hs : CanStart s mode)
    (hcs : Chunks cs) (pad : Pad) (hmode : mode ≠ .ctr) :
    let blocks := blocksOf ((paddedMessage pad cs.flatten).length / 8) (paddedMessage pad cs.flatten)
    ∃ t, runSeq (mpStream mode .encrypt pad cs) s = .next t ∧
      StreamOk s t (joinBlocks (modeBlocks s.fc mode .encrypt (s.mp.begin mode .encrypt pad).chain blocks).1) := by
  obtain ⟨t, xs, tail, hrun, hcut, htail, hok⟩ := encryptStream h hs hcs pad hmode
  refine ⟨t, hrun, ?_⟩
  rw [hcut, blocksOf_paddedMessage pad xs htail]
  exact hok

/-! ### The keystream -/

/-- The first block of the keystream is that of the counter itself (R205). -/
theorem keystreamByte_of_lt (u : Fc) (c : Block) {k : Nat} (hk : k < 8) :
    keystreamByte u c k = (u.encrypt c)[k] := by
  have hblock : bytes (n := 8) ((bits c : BitVec 64) + BitVec.ofNat 64 (k / 8)) = c := by
    rw [Nat.div_eq_of_lt hk, BitVec.add_zero, bytes_bits]
  simp only [keystreamByte, hblock, Nat.mod_eq_of_lt hk]

/-- The others are those of the next counter (R205). -/
theorem keystreamByte_add_block (u : Fc) (c : Block) (k : Nat) :
    keystreamByte u c (k + 8) = keystreamByte u (counterNext c) k := by
  have hcount : (bits c : BitVec 64) + BitVec.ofNat 64 (k / 8 + 1) = bits c + 1 + BitVec.ofNat 64 (k / 8) := by
    rw [Nat.add_comm, BitVec.ofNat_add, BitVec.add_assoc]
    rfl
  simp only [keystreamByte, counterNext, bits_bytes, Nat.add_mod_right, Nat.add_div_right k (show 0 < 8 by decide), hcount]

/-- At most a block under the keystream is that much of it xored with the enciphered counter (R205, R211). -/
theorem zipWith_xor_keystream (u : Fc) (c : Block) {t : List Byte} (ht : t.length ≤ 8) :
    List.zipWith (· ^^^ ·) t (u.encrypt c).toList = t.mapIdx fun k b => b ^^^ keystreamByte u c k := by
  refine List.ext_getElem (by simpa using ht) fun k hk _ => ?_
  have hlt : k < 8 := by simp at hk; omega
  simp [keystreamByte_of_lt u c hlt]

/-- Blocks and a short tail through CTR from the counter `c` on are their bytes xored with the keystream (R205, R211). -/
theorem modeBlocks_ctr (u : Fc) (dir : Dir) (c : Block) (xs : List Block) {t : List Byte} (ht : t.length ≤ 7) :
    joinBlocks (modeBlocks u .ctr dir c xs).1 ++
        List.zipWith (· ^^^ ·) t (u.encrypt (modeBlocks u .ctr dir c xs).2).toList =
      (joinBlocks xs ++ t).mapIdx fun k b => b ^^^ keystreamByte u c k := by
  induction xs generalizing c with
  | nil => exact zipWith_xor_keystream u c (by omega)
  | cons x xs ih =>
    have hlen : x.toList.length = 8 := x.length_toList
    have hblock : modeBlock u .ctr dir c x = (xorBytes x (u.encrypt c), counterNext c) := rfl
    have hfirst : (xorBytes x (u.encrypt c)).toList = x.toList.mapIdx fun k b => b ^^^ keystreamByte u c k := by
      rw [← zipWith_xor_keystream u c hlen.le]
      exact List.ext_getElem (by simp) fun k _ _ => by simp
    rw [modeBlocks_cons, hblock, joinBlocks_cons, joinBlocks_cons, List.append_assoc, List.append_assoc, ih,
      List.mapIdx_append (ys := joinBlocks xs ++ t), hfirst, hlen]
    simp only [keystreamByte_add_block]

end Sys2Proof.Machine

namespace Sys2Proof

open Machine

/-- Settles O31: the counts of a unit that has read the chunks. -/
theorem releasedSoFar : Obligations.ReleasedSoFar := by
  intro s mode dir pad cs h hs hcs
  obtain ⟨t, xs, o, hrun, hadv, hgath⟩ := runSeq_mpStart_mpData h hs hcs dir pad
  obtain ⟨hfill, hheld, hout⟩ := hgath.counts
  refine ⟨t, hrun, ?_, hfill, hheld, ?_⟩
  · rw [hadv.mp, Mp.feed_begin_phase]
  · rw [hadv.dout, List.length_append, hout]

/-- Settles O34: the block function of each mode along the blocks of the padded message. -/
theorem encryptStreamIsBlockwise : Obligations.EncryptStreamIsBlockwise := by
  intro s pad cs h hcs blocks
  refine ⟨fun hs => ?_, fun hs => ?_⟩
  · obtain ⟨t, hrun, hok⟩ := encryptStream_blocks h hs hcs pad (by decide)
    rw [modeBlocks_ecb_encrypt] at hok
    exact ⟨t, hrun, hok.ok, hok.dout⟩
  · obtain ⟨t, hrun, hok⟩ := encryptStream_blocks h hs hcs pad (by decide)
    rw [modeBlocks_cbc_encrypt] at hok
    exact ⟨t, hrun, hok.ok, hok.dout⟩

/-- Settles O35: the stream's blocks and tail through CTR from the IV on. -/
theorem ctrStreamIsKeystreamXor : Obligations.CtrStreamIsKeystreamXor := by
  intro s dir pad cs h hs hcs
  obtain ⟨t, xs, tail, hrun, hcut, htail, hok⟩ := ctrStream h hs hcs dir pad rfl
  rw [modeBlocks_ctr s.fc dir _ xs htail, ← hcut] at hok
  exact ⟨t, hrun, hok.ok, hok.dout⟩

/-- Settles O48: the tag operation. -/
theorem tagStreamIsMac : Obligations.TagStreamIsMac := by
  intro s quiet cs h hidle hkey hcs
  obtain ⟨t, hrun, hcode, hsb, hover⟩ := tagStream h quiet hidle hkey hcs
  exact ⟨t, hrun, hcode, hover.idle, hsb, hover.dout.trans (List.append_assoc ..).symm⟩

/-- Settles O49: the check operation over at least `Hd` bytes. -/
theorem checkStreamVerdict : Obligations.CheckStreamVerdict := by
  intro s quiet cs h hidle hfree hkey hcs hlong body suffix
  obtain ⟨t, hrun, hover, -, hverdict⟩ := checkStream h quiet hidle hkey hcs hfree
  exact ⟨t, hrun, hover.sfx, hover.dout, hverdict hlong⟩

end Sys2Proof
end

section
/-! What a command can make of the four units, said once: it changes nothing, or it does one of seventeen things, each under the
condition on the phases that its rule names (41_feistel.md to 46_system.md). What every step keeps is derived from this case
split. -/

namespace Sys2Proof.Machine

open Claims Safety

/-! ### The effects of a command -/

/-- `Effect s i u`: command `i`, run from `s`, can make `u` of the units, the Hasher and SFX. The other ports, `rxbuf` and
`last_code` do not matter here. -/
inductive Effect (s : State) (i : Instr) : State → Prop
  | none : Effect s i s
  /-- `FC.SETKEY` (R150) -/
  | installKey (hi : i.unit = 1) (hrun : s.mp.phase ≠ .run) (key : Block) : Effect s i { s with fc := s.fc.installKey key }
  /-- `FC.RMKEY` (R151) -/
  | removeKey (hi : i.unit = 1) (hrun : s.mp.phase ≠ .run) : Effect s i { s with fc := s.fc.removeKey }
  /-- `FC.ENCBLK` and `FC.DECBLK` (R157) -/
  | cipherBlock (hi : i.unit = 1) : Effect s i { s with fc := { s.fc with l := 0, r := 0 } }
  /-- `MP.SETIV` (R190) -/
  | setIv (hi : i.unit = 2) (iv : Block) : Effect s i { s with mp := { s.mp with iv := iv, ivValid := true } }
  /-- `MP.RMIV` (R191) -/
  | removeIv (hi : i.unit = 2) : Effect s i { s with mp := { s.mp with iv := zeroBytes 8, ivValid := false } }
  /-- `MP.START` (R200) -/
  | beginStream (hi : i.unit = 2) (hkey : s.fc.keyed = true) (mode : Mode) (dir : Dir) (pad : Pad) :
      Effect s i { s with mp := s.mp.begin mode dir pad }
  /-- `MP.DATA` (R201) -/
  | feedStream (hi : i.unit = 2) (hrun : s.mp.phase = .run) (l : List Byte) :
      Effect s i { s with mp := (s.mp.feed s.fc l).2 }
  /-- `MP.END` and `ABORT` of unit MP (R208, R282) -/
  | endStream (hi : i.unit ∈ [0, 2]) : Effect s i { s with mp := s.mp.clear }
  /-- `SB.START` (R232) -/
  | beginWindow (hi : i.unit = 3) (hidle : s.sb.phase = .idle) (n : Nat) (hn : n ≤ 64) :
      Effect s i { s with sb := s.sb.begin n hn .run }
  /-- `SB.DATA` (R233) -/
  | feedWindow (hi : i.unit = 3) (hrun : s.sb.phase = .run) (l : List Byte) : Effect s i { s with sb := (s.sb.feed l).2 }
  /-- `SB.END` and `ABORT` of unit SB (R234, R282) -/
  | endWindow (hi : i.unit ∈ [0, 3]) (hrun : s.sb.phase = .run) (o : List Byte) :
      Effect s i { s with sb := s.sb.clear, sfx := s.sfx ++ o }
  /-- `MC.SETKEY` (R252) -/
  | installPads (hi : i.unit = 4) (hidle : s.mc.phase = .idle) (k0 : List Byte) (hlen : k0.length = Config.hasher.hb)
      (acc : List Byte) : Effect s i { s with hAcc := acc, mc := s.mc.installKey k0 }
  /-- `MC.RMKEY` (R253) -/
  | removePads (hi : i.unit = 4) (hidle : s.mc.phase = .idle) : Effect s i { s with mc := s.mc.removeKey }
  /-- `MC.START` (R255) -/
  | beginOperation (path : Path) (quiet : Bool) (hi : i = .mcStart path quiet) (hidle : s.mc.phase = .idle)
      (hkey : s.mc.keyed = true) (hfree : path = .check → s.sb.phase = .idle) (acc : List Byte) :
      Effect s i { s with
        hAcc := acc
        sb := operationWindow s.sb path
        mc := { s.mc with path := path, quiet := quiet, phase := operationPhase path } }
  /-- `MC.DATA` (R257) -/
  | feedOperation (hi : i.unit = 4) (l acc : List Byte) :
      Effect s i { s with hAcc := acc, sb := (s.mc.phase.classify s.sb l).2 }
  /-- `MC.END` and `ABORT` of unit MC (R260, R262, R282) -/
  | endOperation (hi : i.unit ∈ [0, 4]) (acc : List Byte) :
      Effect s i { s with hAcc := acc, mc := s.mc.clear, sb := if s.mc.phase = .chk then s.sb.clear else s.sb }
  /-- `ABORT` of all units (R282) -/
  | abortAll (hi : i.unit = 0) (acc : List Byte) :
      Effect s i { s with
        mp := s.mp.clear
        mc := s.mc.clear
        hAcc := acc
        sb := if s.mc.phase = .chk ∨ s.sb.phase = .run then s.sb.clear else s.sb }

/-- The units and the Hasher of `t` are those of `u`, and `rxbuf` is zero or as in `u`. -/
structure SameUnits (t u : State) : Prop where
  units : t.units = u.units
  rxbuf : t.rxbuf = [] ∨ t.rxbuf = u.rxbuf

/-- The command answers a next state, which it reaches by one of its effects. -/
def HasEffect (i : Instr) (s : State) (r : Result) : Prop :=
  ∃ t u, r = .next t ∧ Effect s i u ∧ t.sfx = u.sfx ∧ SameUnits t u

section
variable {i : Instr} {s t u : State} {r : Result}

/-- A command that waits has none (R350(c)). -/
theorem hasEffect_of_waiting (hr : r = .next s) : HasEffect i s r := ⟨s, s, hr, .none, rfl, rfl, .inr rfl⟩

/-- An exit that zeroes `rxbuf` (R50). -/
theorem hasEffect_of_zeroed (hr : r = .next t) (he : Effect s i u) (hsfx : t.sfx = u.sfx) (hunits : t.units = u.units)
    (hrx : t.rxbuf = []) : HasEffect i s r := ⟨t, u, hr, he, hsfx, hunits, .inl hrx⟩

/-- An error exit (R310). -/
theorem hasEffect_of_ended {n : Nat} {c : Code} {q : Word} (hr : r = .next (ended u n c q)) (he : Effect s i u) :
    HasEffect i s r := hasEffect_of_zeroed hr he rfl rfl rfl

/-- A refusal (R310). -/
theorem hasEffect_of_refused {n : Nat} {c : Code} {q : Word} (hr : r = .next (ended s n c q)) : HasEffect i s r :=
  hasEffect_of_ended hr .none

/-- The successful end of a command without a payload, whatever went out on DOUT (R95). -/
theorem hasEffect_of_done {q : Word} {o : List Byte} (hr : r = .next (done { u with dout := o } q)) (he : Effect s i u) :
    HasEffect i s r := ⟨_, u, hr, he, rfl, rfl, .inr rfl⟩

end

/-! ### The effect of each command -/

section
variable (s : State)

theorem execAbort_hasEffect (a : AbortUnit) : HasEffect (.abort a) s (execAbort a s) := by
  cases a with
  | all => exact hasEffect_of_done (execAbort_all s) (.abortAll rfl _)
  | mp => exact hasEffect_of_done (execAbort_mp s) (.endStream (by decide))
  | mc => exact hasEffect_of_done (execAbort_mc s) (.endOperation (by decide) _)
  | sb =>
    by_cases howned : s.sb.phase = .owned
    · exact hasEffect_of_refused (execAbort_sb_of_owned s howned)
    · have hexec := execAbort_sb_of_not_owned s howned
      by_cases hrun : s.sb.phase = .run
      · rw [if_pos hrun] at hexec
        exact ⟨_, _, hexec, .endWindow (by decide) hrun [], (List.append_nil _).symm, rfl, .inr rfl⟩
      · rw [if_neg hrun] at hexec
        exact hasEffect_of_done hexec .none

theorem execRdsr_hasEffect (idx : BitVec 8) : HasEffect (.rdsr idx) s (execRdsr idx s) := by
  rcases Nat.lt_or_ge 5 idx.toNat with hgt | hle
  · exact hasEffect_of_refused (execRdsr_of_gt s hgt)
  · obtain ⟨v, hv⟩ := statusRegister_of_le Config.hasher s hle
    exact ⟨_, s, execRdsr_of_some hv, .none, rfl, rfl, .inr rfl⟩

theorem execFcSetkey_hasEffect (len : BitVec 16) (hn : len.toNat ≤ s.din.length) :
    HasEffect (.fcSetkey len) s (execFcSetkey len s) := by
  by_cases hrun : s.mp.phase = .run
  · exact hasEffect_of_refused (execFcSetkey_of_run len hrun hn)
  · by_cases hlen : len = 8
    · subst hlen
      exact hasEffect_of_zeroed (execFcSetkey_of_key hrun hn) (.installKey rfl hrun _) rfl rfl rfl
    · exact hasEffect_of_refused (execFcSetkey_of_length hrun hlen hn)

theorem execFcRmkey_hasEffect : HasEffect .fcRmkey s (execFcRmkey s) := by
  by_cases hrun : s.mp.phase = .run
  · exact hasEffect_of_refused (execFcRmkey_of_run hrun)
  · exact hasEffect_of_done (execFcRmkey_of_not_run hrun) (.removeKey rfl hrun)

/-- The block commands, under any sequence of round keys (R160, R161). -/
theorem blockCommand_hasEffect {i : Instr} {ks : List (BitVec 48)} {r : Result} (hi : i.unit = 1)
    (hr : r = .next ((s.taken 8).blockCommand ks)) : HasEffect i s r := by
  cases hkey : s.fc.keyed with
  | true =>
    rw [State.blockCommand_taken_keyed ks hkey] at hr
    exact hasEffect_of_zeroed hr (.cipherBlock hi) rfl rfl rfl
  | false =>
    rw [State.blockCommand_taken_keyless ks hkey] at hr
    exact hasEffect_of_refused hr

theorem execMpStart_hasEffect (mode : Mode) (dir : Dir) (pad : Pad) :
    HasEffect (.mpStart mode dir pad) s (execMpStart mode dir pad s) := by
  by_cases hrun : s.mp.phase = .run
  · exact hasEffect_of_refused (execMpStart_of_run mode dir pad hrun)
  · have hidle : s.mp.phase = .idle := by
      cases hphase : s.mp.phase with
      | idle => rfl
      | run => exact absurd hphase hrun
    cases hkey : s.fc.keyed with
    | false => exact hasEffect_of_refused (execMpStart_of_keyless mode dir pad hrun hkey)
    | true =>
      by_cases hiv : mode ≠ .ecb ∧ s.mp.ivValid = false
      · exact hasEffect_of_refused (execMpStart_of_no_iv mode dir pad hrun hkey hiv.1 hiv.2)
      · have hstart : CanStart s mode := ⟨hidle, hkey, fun hmode => by simpa [hmode] using hiv⟩
        exact hasEffect_of_done (execMpStart_of_canStart dir pad hstart) (.beginStream rfl hkey mode dir pad)

theorem execMpData_hasEffect (len : BitVec 16) (hn : len.toNat ≤ s.din.length) :
    HasEffect (.mpData len) s (execMpData len s) := by
  by_cases hrun : s.mp.phase = .run
  · exact hasEffect_of_zeroed (execMpData_of_run len hn hrun) (.feedStream rfl hrun _) rfl rfl rfl
  · exact hasEffect_of_refused (execMpData_of_not_run len hn hrun)

theorem execMpEnd_hasEffect : HasEffect .mpEnd s (execMpEnd s) := by
  have hclear : Effect s .mpEnd { s with mp := s.mp.clear } := .endStream (by decide)
  by_cases hrun : s.mp.phase = .run
  · by_cases hmode : s.mp.mode = .ctr
    · exact hasEffect_of_done (execMpEnd_of_ctr hrun hmode) hclear
    · cases hdir : s.mp.dir with
      | encrypt => exact hasEffect_of_done (execMpEnd_of_encrypt hrun hmode hdir) hclear
      | decrypt =>
        by_cases hfill : s.mp.fill = 0
        · cases ho : s.mp.endDecrypt s.fc with
          | none => exact hasEffect_of_ended (execMpEnd_of_decrypt_none hrun hmode hdir hfill ho) hclear
          | some o => exact hasEffect_of_done (execMpEnd_of_decrypt_some hrun hmode hdir hfill ho) hclear
        · exact hasEffect_of_ended (execMpEnd_of_decrypt_cut hrun hmode hdir hfill) hclear
  · exact hasEffect_of_refused (execMpEnd_of_not_run hrun)

theorem execSbStart_hasEffect (n : BitVec 8) : HasEffect (.sbStart n) s (execSbStart n s) := by
  by_cases hidle : s.sb.phase = .idle
  · rcases Nat.lt_or_ge 64 n.toNat with hgt | hle
    · exact hasEffect_of_refused (execSbStart_of_gt s hgt)
    · exact hasEffect_of_done (execSbStart_of_idle hle hidle) (.beginWindow rfl hidle n.toNat hle)
  · exact hasEffect_of_refused (execSbStart_of_not_idle n hidle)

theorem execSbData_hasEffect (len : BitVec 16) (hn : len.toNat ≤ s.din.length) :
    HasEffect (.sbData len) s (execSbData len s) := by
  by_cases hrun : s.sb.phase = .run
  · exact hasEffect_of_zeroed (execSbData_of_run len hn hrun) (.feedWindow rfl hrun _) rfl rfl rfl
  · exact hasEffect_of_refused (execSbData_of_not_run len hn hrun)

theorem execSbEnd_hasEffect : HasEffect .sbEnd s (execSbEnd s) := by
  by_cases hrun : s.sb.phase = .run
  · rcases s.sb.cnt_le.lt_or_eq with hshort | hfull
    · exact ⟨_, _, execSbEnd_of_short hrun hshort, .endWindow (by decide) hrun [], (List.append_nil _).symm, rfl, .inl rfl⟩
    · exact hasEffect_of_done (execSbEnd_of_full hrun hfull) (.endWindow (by decide) hrun _)
  · exact hasEffect_of_refused (execSbEnd_of_not_run hrun)

theorem execMcSetkey_hasEffect (len : BitVec 16) (hn : len.toNat ≤ s.din.length) :
    HasEffect (.mcSetkey len) s (execMcSetkey len s) := by
  by_cases hidle : s.mc.phase = .idle
  · by_cases hlen : len = 0
    · exact hasEffect_of_refused (execMcSetkey_of_empty len hn hidle hlen)
    · exact hasEffect_of_zeroed (execMcSetkey_of_key len hn hidle hlen)
        (.installPads rfl hidle _ (macKeyBlock_macKey_length _ _) _) rfl rfl rfl
  · exact hasEffect_of_refused (execMcSetkey_of_not_idle len hn hidle)

theorem execMcRmkey_hasEffect : HasEffect .mcRmkey s (execMcRmkey s) := by
  by_cases hidle : s.mc.phase = .idle
  · exact hasEffect_of_done (execMcRmkey_of_idle hidle) (.removePads rfl hidle)
  · exact hasEffect_of_refused (execMcRmkey_of_not_idle hidle)

theorem execMcStart_hasEffect (path : Path) (quiet : Bool) :
    HasEffect (.mcStart path quiet) s (execMcStart path quiet s) := by
  by_cases hidle : s.mc.phase = .idle
  · by_cases hfree : path = .check → s.sb.phase = .idle
    · cases hkey : s.mc.keyed with
      | true =>
        exact ⟨_, _, execMcStart_of_keyed quiet hidle hfree hkey, .beginOperation path quiet rfl hidle hkey hfree _,
          rfl, rfl, .inr rfl⟩
      | false => exact hasEffect_of_refused (execMcStart_of_keyless quiet hidle hfree hkey)
    · obtain ⟨rfl, hused⟩ := Classical.not_imp.mp hfree
      exact hasEffect_of_refused (execMcStart_check_of_window_in_use quiet hused)
  · exact hasEffect_of_refused (execMcStart_of_not_idle path quiet hidle)

theorem execMcData_hasEffect (len : BitVec 16) (hn : len.toNat ≤ s.din.length) :
    HasEffect (.mcData len) s (execMcData len s) := by
  by_cases hidle : s.mc.phase = .idle
  · exact hasEffect_of_refused (execMcData_of_idle len hn hidle)
  · exact hasEffect_of_zeroed (execMcData_of_operation len hn hidle) (.feedOperation rfl _ _) rfl rfl rfl

theorem execMcEnd_hasEffect : HasEffect .mcEnd s (execMcEnd s) := by
  have hclear : Effect s .mcEnd _ := .endOperation (by decide) []
  cases hphase : s.mc.phase with
  | idle => exact hasEffect_of_refused (execMcEnd_of_idle hphase)
  | tag =>
    rw [hphase] at hclear
    exact hasEffect_of_done (execMcEnd_of_tag hphase) hclear
  | chk =>
    rw [hphase, if_pos rfl] at hclear
    rcases s.sb.cnt_le.lt_or_eq with hshort | hfull
    · exact hasEffect_of_ended (execMcEnd_of_short hphase hshort) hclear
    · by_cases htag : firstBytes s.sb.w Config.hasher.hd = s.macTag
      · exact hasEffect_of_done (execMcEnd_of_match hphase hfull htag) hclear
      · exact hasEffect_of_ended (execMcEnd_of_mismatch hphase hfull htag) hclear

/-- Every command has one of the effects: one lemma per command. -/
theorem exec_hasEffect (i : Instr) : HasEffect i s (exec i s) := by
  rcases Nat.lt_or_ge s.din.length i.len.toNat with hshort | hn
  · exact hasEffect_of_waiting (exec_of_short hshort)
  · cases i with
    | nop | fcHaskey | mcHaskey => exact ⟨_, s, rfl, .none, rfl, rfl, .inr rfl⟩
    | rdsr idx => exact execRdsr_hasEffect s idx
    | abort a => exact execAbort_hasEffect s a
    | fcSetkey len => exact execFcSetkey_hasEffect s len hn
    | fcRmkey => exact execFcRmkey_hasEffect s
    | fcEncblk => exact blockCommand_hasEffect s rfl (execFcEncblk_of_payload hn)
    | fcDecblk => exact blockCommand_hasEffect s rfl (execFcDecblk_of_payload hn)
    | mpSetiv => exact hasEffect_of_zeroed (execMpSetiv_of_payload hn) (.setIv rfl _) rfl rfl rfl
    | mpRmiv => exact ⟨_, _, execMpRmiv_eq s, .removeIv rfl, rfl, rfl, .inr rfl⟩
    | mpStart mode dir pad => exact execMpStart_hasEffect s mode dir pad
    | mpData len => exact execMpData_hasEffect s len hn
    | mpEnd => exact execMpEnd_hasEffect s
    | sbStart n => exact execSbStart_hasEffect s n
    | sbData len => exact execSbData_hasEffect s len hn
    | sbEnd => exact execSbEnd_hasEffect s
    | mcSetkey len => exact execMcSetkey_hasEffect s len hn
    | mcRmkey => exact execMcRmkey_hasEffect s
    | mcStart path quiet => exact execMcStart_hasEffect s path quiet
    | mcData len => exact execMcData_hasEffect s len hn
    | mcEnd => exact execMcEnd_hasEffect s

end

/-- So has every step without reset: waiting and a reserved word change no unit (R102, R325). -/
theorem step_hasEffect {s t : State} (hr : s.rstReq = false) (h : step s = .next t) :
    ∃ i u, Effect s i u ∧ SameUnits t u := by
  obtain ⟨hreset, -⟩ | ⟨-, -, rfl⟩ | ⟨-, w, rest, i, -, -, hexec⟩ | ⟨-, w, rest, e, -, -, rfl⟩ := step_cases h
  · exact absurd (hr.symm.trans hreset) (by decide)
  · exact ⟨.nop, _, .none, rfl, .inr rfl⟩
  · obtain ⟨t', u, ht', he, -, hsame⟩ := exec_hasEffect s i
    rw [hexec] at ht'
    cases ht'
    exact ⟨i, u, he, hsame⟩
  · refine ⟨.nop, s, .none, ?_⟩
    obtain ⟨-, hwait⟩ | ⟨-, hrun⟩ := s.withPayload_cases (lenField w).toNat fun s => s.fail .illegalCommand
    · rw [hwait]
      exact ⟨rfl, .inr rfl⟩
    · rw [hrun]
      exact ⟨rfl, .inl rfl⟩

end Sys2Proof.Machine
end

section
/-! What every step keeps: the three invariants, the keys in use, and the elements of the other units, each read off the effects
of a command (70_reset_and_hazards.md R330, R340, R341, R345; 10_state.md R33, R40, R41, R46). -/

namespace Sys2Proof.Machine

open Claims Safety

/-! ### From the effects to the step -/

/-- Such a state is the other with its own ports, `rxbuf` and `last_code`. -/
theorem SameUnits.eq_update {t u : State} (h : SameUnits t u) :
    t = { u with
      lastCode := t.lastCode, rxbuf := t.rxbuf, cmd := t.cmd, din := t.din, dout := t.dout, sfx := t.sfx, rsp := t.rsp
      rstReq := t.rstReq } := by
  obtain ⟨hunits, -⟩ := h
  cases t
  cases u
  simp only [State.units, Units.mk.injEq] at hunits
  obtain ⟨rfl, rfl, rfl, rfl, rfl⟩ := hunits
  rfl

/-- The reset event leaves the units as they are right after reset (R330). -/
theorem sameUnits_resetEvent (s : State) : SameUnits s.resetEvent State.reset := ⟨rfl, .inl rfl⟩

/-- What holds after the reset event and after every effect, and is about the units, holds after every step (R330, R342). -/
theorem step_keeps {P : State → Prop} {s t : State} (hreset : P s.resetEvent)
    (heffect : ∀ i u, Effect s i u → P u) (hsame : ∀ u v, SameUnits v u → P u → P v) (h : step s = .next t) : P t := by
  cases hr : s.rstReq with
  | true =>
    rw [step, if_pos hr] at h
    cases h
    exact hreset
  | false =>
    obtain ⟨i, u, he, hunits⟩ := step_hasEffect hr h
    exact hsame u t hunits (heffect i u he)

/-! ### The window and the pads -/

/-- A chunk of an operation keeps the window's owner and its length (R257). -/
@[simp] theorem McPhase.classify_phase (p : McPhase) (u : Sb) (l : List Byte) : (p.classify u l).2.phase = u.phase := by
  cases p with
  | idle | tag => rfl
  | chk => exact u.feed_phase l

@[simp] theorem McPhase.classify_n (p : McPhase) (u : Sb) (l : List Byte) : (p.classify u l).2.n = u.n := by
  cases p with
  | idle | tag => rfl
  | chk => exact u.feed_n l

/-- Only a check writes the window (R257). -/
theorem McPhase.classify_of_ne_chk {p : McPhase} (h : p ≠ .chk) (u : Sb) (l : List Byte) : (p.classify u l).2 = u := by
  cases p with
  | idle | tag => rfl
  | chk => exact absurd rfl h

/-- The window is zero from its fill count on (R40). -/
def Sb.ZeroAbove (u : Sb) : Prop := ∀ k : Fin 64, u.cnt ≤ k.val → u.w[k.val] = 0

theorem Sb.ZeroAbove.byteStep {u : Sb} (h : u.ZeroAbove) (b : Byte) : (u.byteStep b).2.ZeroAbove := by
  intro k hk
  obtain ⟨hlt, hstep⟩ | ⟨-, -, hstep⟩ | ⟨hfull, -, hstep⟩ := u.byteStep_cases b
  · rw [hstep] at hk ⊢
    have hk : u.cnt + 1 ≤ k.val := hk
    rw [Sb.getElem_hold, if_neg (by omega)]
    exact h k (by omega)
  · rw [hstep] at hk ⊢
    exact h k hk
  · rw [hstep] at hk ⊢
    have hk : u.cnt ≤ k.val := hk
    rw [Sb.getElem_shift, dif_neg (by omega), if_neg (by omega)]
    exact h k hk

theorem Sb.ZeroAbove.feed {u : Sb} (h : u.ZeroAbove) (l : List Byte) : (u.feed l).2.ZeroAbove := by
  induction l generalizing u with
  | nil => exact h
  | cons b bs ih => exact ih (h.byteStep b)

theorem Sb.ZeroAbove.classify {u : Sb} (h : u.ZeroAbove) (p : McPhase) (l : List Byte) : (p.classify u l).2.ZeroAbove := by
  cases p with
  | idle | tag => exact h
  | chk => exact h.feed l

/-- A cleared window is. -/
theorem Sb.zeroAbove_clear (u : Sb) : u.clear.ZeroAbove := fun k _ => getElem_zeroBytes 64 k.val k.isLt

/-- So is a fresh one. -/
theorem Sb.zeroAbove_begin (u : Sb) (n : Nat) (hn : n ≤ 64) (p : SbPhase) : (u.begin n hn p).ZeroAbove :=
  fun k _ => getElem_zeroBytes 64 k.val k.isLt

/-! ### The block in assembly -/

/-- The block in assembly is zero from its fill count on (R33). -/
def Mp.ZeroAbove (m : Mp) : Prop := ∀ k : Fin 8, m.fill ≤ k → m.cur[k.val] = 0

theorem Mp.ZeroAbove.byteStep {m : Mp} (h : m.ZeroAbove) (u : Fc) (b : Byte) : (m.byteStep u b).2.ZeroAbove := by
  intro k hk
  obtain ⟨hlt, hstep⟩ | ⟨-, hstep⟩ := Mp.byteStep_cases u m b
  · rw [hstep] at hk ⊢
    have hk : m.fill.val + 1 ≤ k.val := hk
    have hne : m.fill.val ≠ k.val := by omega
    have hle : m.fill ≤ k := Fin.le_def.mpr (by omega)
    exact (Vector.getElem_set_ne m.fill.isLt k.isLt hne).trans (h k hle)
  · rw [hstep]
    exact getElem_zeroBytes 8 k.val k.isLt

theorem Mp.ZeroAbove.feed {m : Mp} (h : m.ZeroAbove) (u : Fc) (l : List Byte) : (m.feed u l).2.ZeroAbove := by
  induction l generalizing m with
  | nil => exact h
  | cons b bs ih => exact ih (h.byteStep u b)

/-! ### Keys in use -/

/-- No effect changes the schedule while a stream runs (R340). -/
theorem Effect.keeps_schedule {s u : State} {i : Instr} (he : Effect s i u) (hrun : s.mp.phase = .run) :
    u.fc.rk = s.fc.rk ∧ u.fc.keyed = s.fc.keyed := by
  cases he with
  | installKey _ hidle | removeKey _ hidle => exact absurd hrun hidle
  | _ => exact ⟨rfl, rfl⟩

/-- No effect changes the pads while an operation is in progress (R340). -/
theorem Effect.keeps_pads {s u : State} {i : Instr} (he : Effect s i u) (hop : s.mc.phase ≠ .idle) :
    u.mc.ipad = s.mc.ipad ∧ u.mc.opad = s.mc.opad ∧ u.mc.keyed = s.mc.keyed := by
  cases he with
  | installPads _ hidle | removePads _ hidle => exact absurd hidle hop
  | _ => exact ⟨rfl, rfl, rfl⟩

/-! ### The other units -/

section
variable {s u : State} {i : Instr} (he : Effect s i u)
include he

/-- A command of unit FC leaves the other units alone (R341). -/
theorem Effect.frame_fc (hunit : i.unit = 1) :
    u.mp = s.mp ∧ u.sb = s.sb ∧ u.mc = s.mc ∧ u.hAcc = s.hAcc ∧ u.sfx = s.sfx := by
  cases he with
  | none | installKey | removeKey | cipherBlock => exact ⟨rfl, rfl, rfl, rfl, rfl⟩
  | beginOperation _ _ hi => simp [hi, Instr.unit] at hunit
  | _ hi => simp [hunit] at hi

/-- So does a command of unit MP (R341). -/
theorem Effect.frame_mp (hunit : i.unit = 2) :
    u.fc = s.fc ∧ u.sb = s.sb ∧ u.mc = s.mc ∧ u.hAcc = s.hAcc ∧ u.sfx = s.sfx := by
  cases he with
  | none | setIv | removeIv | beginStream | feedStream | endStream => exact ⟨rfl, rfl, rfl, rfl, rfl⟩
  | beginOperation _ _ hi => simp [hi, Instr.unit] at hunit
  | _ hi => simp [hunit] at hi

/-- So does a command of unit SB (R341). -/
theorem Effect.frame_sb (hunit : i.unit = 3) : u.fc = s.fc ∧ u.mp = s.mp ∧ u.mc = s.mc ∧ u.hAcc = s.hAcc := by
  cases he with
  | none | beginWindow | feedWindow | endWindow => exact ⟨rfl, rfl, rfl, rfl⟩
  | beginOperation _ _ hi => simp [hi, Instr.unit] at hunit
  | _ hi => simp [hunit] at hi

/-- A command of unit MC leaves units FC and MP alone, and the window but for a check in progress or begun (R341). -/
theorem Effect.frame_mc (hunit : i.unit = 4) :
    u.fc = s.fc ∧ u.mp = s.mp ∧ u.sfx = s.sfx ∧
      (s.mc.phase ≠ .chk → (∀ quiet, i ≠ .mcStart .check quiet) → u.sb = s.sb) := by
  cases he with
  | none | installPads | removePads => exact ⟨rfl, rfl, rfl, fun _ _ => rfl⟩
  | beginOperation path quiet hi =>
    refine ⟨rfl, rfl, rfl, fun _ hstart => ?_⟩
    cases path with
    | tag => rfl
    | check => exact absurd hi (hstart quiet)
  | feedOperation => exact ⟨rfl, rfl, rfl, fun hchk _ => McPhase.classify_of_ne_chk hchk s.sb _⟩
  | endOperation => exact ⟨rfl, rfl, rfl, fun hchk _ => if_neg hchk⟩
  | _ hi => simp [hunit] at hi

end

end Sys2Proof.Machine

namespace Sys2Proof.Safety

open Machine

/-! ### The phases -/

section
variable {s : State} (h : Phases Config.hasher s)
include h

/-- A window that unit MC does not own is not being checked through (R46). -/
theorem Phases.not_chk (howned : s.sb.phase ≠ .owned) : s.mc.phase ≠ .chk := fun hchk => howned (h.chkOwned.mp hchk)

/-- With no check in progress the window is not owned (R46). -/
theorem Phases.not_owned (hchk : s.mc.phase ≠ .chk) : s.sb.phase ≠ .owned := fun howned => hchk (h.chkOwned.mpr howned)

/-- After the end of an operation, which releases at least a window under check, none is owned (R264). -/
theorem Phases.not_owned_released {p : Prop} [Decidable p] (hp : s.mc.phase = .chk → p) :
    (if p then s.sb.clear else s.sb).phase ≠ .owned := by
  split
  · exact nofun
  · next hnot => exact h.not_owned fun hchk => hnot (hp hchk)

/-- A chunk of an operation leaves an idle window alone (R46, R257). -/
theorem Phases.classify_idle (hidle : s.sb.phase = .idle) (l : List Byte) : (s.mc.phase.classify s.sb l).2 = s.sb :=
  McPhase.classify_of_ne_chk (h.not_chk (by simp [hidle])) s.sb l

/-- Every effect keeps the phases consistent (R46, R340). -/
theorem Phases.effect {i : Instr} {u : State} (he : Effect s i u) : Phases Config.hasher u := by
  cases he with
  | none => exact h
  | cipherBlock | setIv | removeIv => exact { h with }
  | installKey => exact { h with runKeyed := fun _ => rfl }
  | removeKey _ hrun => exact { h with runKeyed := fun hr => absurd hr hrun }
  | beginStream _ hkey => exact { h with runKeyed := fun _ => hkey }
  | feedStream _ hrun => exact { h with runKeyed := fun _ => h.runKeyed hrun }
  | endStream => exact { h with runKeyed := nofun }
  | beginWindow _ hidle =>
    have hchk := h.not_chk (by simp [hidle])
    exact { h with chkOwned := iff_of_false hchk nofun, chkLength := fun hc => absurd hc hchk }
  | feedWindow _ hrun =>
    have hchk := h.not_chk (by simp [hrun])
    exact { h with
      chkOwned := iff_of_false hchk (by simp [hrun])
      chkLength := fun hc => absurd hc hchk }
  | endWindow _ hrun =>
    have hchk := h.not_chk (by simp [hrun])
    exact { h with chkOwned := iff_of_false hchk nofun, chkLength := fun hc => absurd hc hchk }
  | installPads => exact { h with opKeyed := fun _ => rfl }
  | removePads _ hidle => exact { h with opKeyed := fun hop => absurd hidle hop }
  | beginOperation path quiet _ hidle hkey =>
    cases path with
    | tag =>
      exact {
        runKeyed := h.runKeyed
        opKeyed := fun _ => hkey
        chkOwned := iff_of_false nofun (h.not_owned (by simp [hidle]))
        chkLength := nofun
        chkPath := nofun
        tagPath := fun _ => rfl }
    | check =>
      exact {
        runKeyed := h.runKeyed
        opKeyed := fun _ => hkey
        chkOwned := iff_of_true rfl rfl
        chkLength := fun _ => rfl
        chkPath := fun _ => rfl
        tagPath := nofun }
  | feedOperation =>
    exact { h with
      chkOwned := by simpa using h.chkOwned
      chkLength := by simpa using h.chkLength }
  | endOperation =>
    exact {
      runKeyed := h.runKeyed
      opKeyed := fun hop => absurd rfl hop
      chkOwned := iff_of_false nofun (h.not_owned_released id)
      chkLength := nofun
      chkPath := nofun
      tagPath := nofun }
  | abortAll =>
    exact {
      runKeyed := nofun
      opKeyed := fun hop => absurd rfl hop
      chkOwned := iff_of_false nofun (h.not_owned_released .inl)
      chkLength := nofun
      chkPath := nofun
      tagPath := nofun }

end

/-- They are about the units. -/
theorem Phases.of_sameUnits {t u : State} (h : Phases Config.hasher u) (hsame : SameUnits t u) : Phases Config.hasher t := by
  rw [hsame.eq_update]
  exact { h with }

/-! ### Zeroing -/

/-- A released window is zero when it is idle, as it was before (R235). -/
theorem Zeroed.released {s : State} (h : Zeroed s) {p : Prop} [Decidable p]
    (hidle : (if p then s.sb.clear else s.sb).phase = .idle) : (if p then s.sb.clear else s.sb).w = zeroBytes 64 := by
  split
  · rfl
  · next hnot =>
    rw [if_neg hnot] at hidle
    exact h.sbW hidle

/-- Every effect leaves nothing behind (R345). -/
theorem Zeroed.effect {s u : State} {i : Instr} (h : Zeroed s) (hphases : Phases Config.hasher s) (he : Effect s i u) :
    Zeroed u := by
  cases he with
  | none => exact h
  | installKey _ _ key =>
    obtain ⟨hl, hr⟩ := s.fc.installKey_keeps key
    exact { h with fcC := rfl, fcD := rfl, fcL := hl.trans h.fcL, fcR := hr.trans h.fcR, fcRk := nofun }
  | removeKey => exact { h with fcC := rfl, fcD := rfl, fcL := rfl, fcR := rfl, fcRk := fun _ => rfl }
  | cipherBlock => exact { h with fcL := rfl, fcR := rfl }
  | setIv => exact { h with iv := nofun }
  | removeIv => exact { h with iv := fun _ => rfl }
  | beginStream => exact { h with mpPrev := nofun, mpCur := nofun, mpChain := nofun }
  | feedStream _ hrun l =>
    obtain ⟨hiv, hvalid, hphase, -, -, -⟩ := Mp.feed_keeps s.fc s.mp l
    have hbusy : (s.mp.feed s.fc l).2.phase ≠ .idle := by simp [hphase, hrun]
    exact { h with
      mpPrev := fun hidle => absurd hidle hbusy
      mpCur := fun hidle => absurd hidle hbusy
      mpChain := fun hidle => absurd hidle hbusy
      iv := fun hno => hiv.trans (h.iv (hvalid.symm.trans hno)) }
  | endStream => exact { h with mpPrev := fun _ => rfl, mpCur := fun _ => rfl, mpChain := fun _ => rfl }
  | beginWindow => exact { h with sbW := nofun }
  | feedWindow _ hrun l => exact { h with sbW := fun hidle => by simp [hrun] at hidle }
  | endWindow => exact { h with sbW := fun _ => rfl }
  | installPads => exact { h with mcIpad := nofun, mcOpad := nofun }
  | removePads => exact { h with mcIpad := fun _ => rfl, mcOpad := fun _ => rfl }
  | beginOperation path =>
    cases path with
    | tag => exact { h with }
    | check => exact { h with sbW := nofun }
  | feedOperation _ l =>
    refine { h with sbW := fun hidle => ?_ }
    rw [McPhase.classify_phase] at hidle
    rw [hphases.classify_idle hidle]
    exact h.sbW hidle
  | endOperation => exact { h with mcInner := rfl, mcTag := rfl, sbW := h.released }
  | abortAll =>
    exact { h with
      mpPrev := fun _ => rfl, mpCur := fun _ => rfl, mpChain := fun _ => rfl
      mcInner := rfl, mcTag := rfl, sbW := h.released }

/-- It is about the units and `rxbuf`. -/
theorem Zeroed.of_sameUnits {t u : State} (h : Zeroed u) (hsame : SameUnits t u) : Zeroed t := by
  have hrx : t.rxbuf = [] := hsame.rxbuf.elim id fun heq => heq.trans h.rxbuf
  rw [hsame.eq_update]
  exact { h with rxbuf := hrx }

/-! ### The buffers above their fill counts -/

section
variable {s : State} (h : Buffers Config.hasher s)
include h

/-- A released window is zero from its fill count on, as it was before (R235). -/
theorem Buffers.released (p : Prop) [Decidable p] : (if p then s.sb.clear else s.sb).ZeroAbove := by
  split
  · exact s.sb.zeroAbove_clear
  · exact h.windowAbove

/-- When it is idle it holds nothing. -/
theorem Buffers.released_cnt {p : Prop} [Decidable p] (hidle : (if p then s.sb.clear else s.sb).phase = .idle) :
    (if p then s.sb.clear else s.sb).cnt = 0 := by
  split
  · rfl
  · next hnot =>
    rw [if_neg hnot] at hidle
    exact h.sbIdleCnt hidle

/-- Every effect keeps the buffers zero above their fill counts (R33, R40, R41, log entry 9). -/
theorem Buffers.effect {u : State} {i : Instr} (hphases : Phases Config.hasher s) (he : Effect s i u) :
    Buffers Config.hasher u := by
  have hzero (k : Fin 8) : (zeroBytes 8)[k.val] = 0 := getElem_zeroBytes 8 k.val k.isLt
  have hzeroPad (k : Fin 128) : (zeroBytes 128)[k.val] = 0 := getElem_zeroBytes 128 k.val k.isLt
  cases he with
  | none => exact h
  | installKey | removeKey | cipherBlock | setIv | removeIv => exact { h with }
  | beginStream => exact { h with curAbove := fun k _ => hzero k, mpIdleFill := nofun, mpIdlePrev := nofun }
  | feedStream _ hrun l =>
    obtain ⟨-, -, hphase, -, -, -⟩ := Mp.feed_keeps s.fc s.mp l
    have hbusy : (s.mp.feed s.fc l).2.phase ≠ .idle := by simp [hphase, hrun]
    exact { h with
      curAbove := Mp.ZeroAbove.feed h.curAbove s.fc l
      mpIdleFill := fun hidle => absurd hidle hbusy
      mpIdlePrev := fun hidle => absurd hidle hbusy }
  | endStream => exact { h with curAbove := fun k _ => hzero k, mpIdleFill := fun _ => rfl, mpIdlePrev := fun _ => rfl }
  | beginWindow _ _ n hn => exact { h with windowAbove := s.sb.zeroAbove_begin n hn .run, sbIdleCnt := nofun }
  | feedWindow _ hrun l =>
    exact { h with
      windowAbove := Sb.ZeroAbove.feed h.windowAbove l
      sbIdleCnt := fun hidle => by simp [hrun] at hidle }
  | endWindow => exact { h with windowAbove := s.sb.zeroAbove_clear, sbIdleCnt := fun _ => rfl }
  | installPads _ _ k0 hlen =>
    exact { h with
      ipadAbove := fun k hk => getElem_pad_of_ge 0x36 k (hlen.trans_le hk)
      opadAbove := fun k hk => getElem_pad_of_ge 0x5c k (hlen.trans_le hk) }
  | removePads => exact { h with ipadAbove := fun k _ => hzeroPad k, opadAbove := fun k _ => hzeroPad k }
  | beginOperation path =>
    cases path with
    | tag => exact { h with }
    | check => exact { h with windowAbove := s.sb.zeroAbove_begin _ Config.hasher.hd_le .owned, sbIdleCnt := nofun }
  | feedOperation _ l =>
    refine { h with windowAbove := Sb.ZeroAbove.classify h.windowAbove _ l, sbIdleCnt := fun hidle => ?_ }
    rw [McPhase.classify_phase] at hidle
    rw [hphases.classify_idle hidle]
    exact h.sbIdleCnt hidle
  | endOperation => exact { h with windowAbove := h.released _, sbIdleCnt := h.released_cnt }
  | abortAll =>
    exact { h with
      curAbove := fun k _ => hzero k, mpIdleFill := fun _ => rfl, mpIdlePrev := fun _ => rfl
      windowAbove := h.released _, sbIdleCnt := h.released_cnt }

end

/-- They are about the units. -/
theorem Buffers.of_sameUnits {t u : State} (h : Buffers Config.hasher u) (hsame : SameUnits t u) :
    Buffers Config.hasher t := by
  rw [hsame.eq_update]
  exact { h with }

/-! ### Reset -/

/-- After reset everything is zero (R330). -/
theorem zeroed_reset : Zeroed State.reset := by
  constructor <;> intros <;> rfl

theorem buffers_reset : Buffers Config.hasher State.reset where
  curAbove k _ := getElem_zeroBytes 8 k.val k.isLt
  windowAbove k _ := getElem_zeroBytes 64 k.val k.isLt
  mpIdleFill _ := rfl
  mpIdlePrev _ := rfl
  sbIdleCnt _ := rfl
  ipadAbove k _ := getElem_zeroBytes 128 k.val k.isLt
  opadAbove k _ := getElem_zeroBytes 128 k.val k.isLt

theorem phases_reset : Phases Config.hasher State.reset where
  runKeyed := nofun
  opKeyed hop := absurd rfl hop
  chkOwned := iff_of_false nofun nofun
  chkLength := nofun
  chkPath := nofun
  tagPath := nofun

end Sys2Proof.Safety

namespace Sys2Proof

open Machine Safety

/-- Settles O52: with reset asserted the step is the reset event. -/
theorem resetEventZeroesEverything : Obligations.ResetEventZeroesEverything := fun s hr =>
  ⟨s.resetEvent, if_pos hr, rfl, rfl, rfl, rfl, rfl, rfl, rfl, rfl, rfl, rfl, rfl, rfl, rfl⟩

/-- Settles O53, invariant by invariant. -/
theorem invariantsHoldAtReset : Obligations.InvariantsHoldAtReset := ⟨zeroed_reset, buffers_reset, phases_reset⟩

/-- Settles O54: every effect leaves nothing behind, and reset leaves nothing at all. -/
theorem stepKeepsZeroed : Obligations.StepKeepsZeroed := fun s _ hphases h =>
  step_keeps (zeroed_reset.of_sameUnits (sameUnits_resetEvent s)) (fun _ _ => h.effect hphases)
    fun _ _ hsame hu => hu.of_sameUnits hsame

/-- Settles O55: every effect keeps the buffers zero above their fill counts, and so does reset. -/
theorem stepKeepsBuffers : Obligations.StepKeepsBuffers := fun s _ hphases h =>
  step_keeps (buffers_reset.of_sameUnits (sameUnits_resetEvent s)) (fun _ _ => h.effect hphases)
    fun _ _ hsame hu => hu.of_sameUnits hsame

/-- Settles O56: every effect keeps the phases consistent, and so does reset. -/
theorem stepKeepsPhases : Obligations.StepKeepsPhases := fun s _ h =>
  step_keeps (phases_reset.of_sameUnits (sameUnits_resetEvent s)) (fun _ _ => h.effect)
    fun _ _ hsame hu => hu.of_sameUnits hsame

/-- Settles O57: the only effects on a key are those of the commands that need an idle unit. -/
theorem keysAreConstantDuringOperations : Obligations.KeysAreConstantDuringOperations := by
  intro s t hr h
  obtain ⟨i, u, he, hsame⟩ := step_hasEffect hr h
  rw [hsame.eq_update]
  exact ⟨he.keeps_schedule, he.keeps_pads⟩

/-- Settles O59: the frame of each unit's effects. -/
theorem unitsShareNothing : Obligations.UnitsShareNothing := by
  intro i s
  obtain ⟨t, u, ht, he, hsfx, hsame⟩ := exec_hasEffect s i
  refine ⟨t, ht, ?_⟩
  rw [hsame.eq_update, hsfx]
  exact ⟨he.frame_fc, he.frame_mp, he.frame_sb, he.frame_mc⟩

end Sys2Proof
end
